-- ==== Sys2Proof/Word.lean ====
section
/-! DEFINITION. The byte and the bit of 00_scope.md R15, and the fixed sizes of R8. -/

namespace Sys2Proof

/-- An 8-bit unsigned value; bit 7 is the most significant bit (00_scope.md R15). -/
abbrev Byte := BitVec 8

/-- One pixel's value: 0 is black, 1 is white (10_state.md R27). -/
abbrev Bit := BitVec 1

/-- `BUF_LEN`: the number of framebuffer bytes, 296·128/8 (00_scope.md R8). -/
def bufLen : Nat := 4736

/-- `LUT_LEN`: the length of a waveform table (00_scope.md R8). -/
def lutLen : Nat := 30

end Sys2Proof
end

