-- ==== Sys2Proof/Config.lean ====
section
/-! DEFINITION. The configuration of one core instance (00_scope.md R9 to R14) and the free values.
An `opaque` constant here has no body: nothing can be proved of its value, so a statement that holds does so
whatever the value is. -/

namespace Sys2Proof

/-- The orientation, fixed at construction (00_scope.md R14, 10_state.md R23). -/
inductive Orient where
  | portrait
  | landscape
  deriving DecidableEq, Repr

/-- The refresh mode, fixed at construction (00_scope.md R14, 10_state.md R24). -/
inductive RefreshMode where
  | full
  | partialRefresh
  deriving DecidableEq, Repr

/-- The arithmetic of the general line, the field `LINE_Y` (41_raster.md R113, R114). -/
inductive LineArith where
  /-- The default: exact rationals with floor (R113). -/
  | exact
  /-- The IEEE binary64 reading written out in R114. -/
  | binary64
  /-- Any other arithmetic: an uninterpreted function (log 9). -/
  | custom
  deriving DecidableEq, Repr

/-- The arithmetic of circle sampling, the field `CIRCLE_ROOT` (41_raster.md R126, R127). -/
inductive RootArith where
  /-- The default: exact square roots with floor (R126). -/
  | exact
  /-- The IEEE binary64 reading of R127. -/
  | binary64
  /-- Any other arithmetic: an uninterpreted root, whose sum with the centre is floored as R127 says (log 10). -/
  | custom
  deriving DecidableEq, Repr

/-- One glyph: 8 bytes, byte `j` is column `j` of the 8×8 cell (00_scope.md R12). -/
abbrev Glyph := Vector Byte 8

/-- The payloads of `init` that the source does not give: `PanelInit` (00_scope.md R9). -/
structure PanelInit where
  /-- `P_DRV`, the payload of 0x01. -/
  drv   : List Byte
  /-- `P_BOOST`, the payload of 0x0C. -/
  boost : List Byte
  /-- `P_VCOM`, the payload of 0x2C. -/
  vcom  : List Byte
  /-- `P_DUMMY`, the payload of 0x3A. -/
  dummy : List Byte
  /-- `P_GATE`, the payload of 0x3B. -/
  gate  : List Byte
  deriving DecidableEq, Repr

/-- The memory-window payloads of one orientation (00_scope.md R11). -/
structure Window where
  /-- `RAMX(o)`, the payload of 0x44. -/
  ramX : List Byte
  /-- `RAMY(o)`, the payload of 0x45. -/
  ramY : List Byte
  /-- `CTRX(o)`, the payload of 0x4E. -/
  ctrX : List Byte
  /-- `CTRY(o)`, the payload of 0x4F. -/
  ctrY : List Byte
  deriving DecidableEq, Repr

/-- A bound `N ≥ 1` on busy polls in a row (60_exceptions.md R182), held as what it allows after the first poll, so that
there is no bound of 0 (log 13). -/
structure PollBound where
  /-- `N - 1`. -/
  afterFirst : Nat
  deriving DecidableEq, Repr

/-- The bound `N` itself. -/
def PollBound.polls (b : PollBound) : Nat := b.afterFirst + 1

/-- The configuration record `cfg` of 10_state.md R20: fixed at construction, written by nothing. -/
structure Cfg where
  orient : Orient
  mode : RefreshMode
  init : PanelInit
  /-- `LUT_FULL` (00_scope.md R10). -/
  lutFull : Vector Byte 30
  /-- `LUT_PARTIAL` (00_scope.md R10). -/
  lutPartial : Vector Byte 30
  windowPortrait : Window
  windowLandscape : Window
  /-- `GLYPHS` as a finite table, read by the first entry of a character (00_scope.md R12; log 8). -/
  glyphs : List (Char × Glyph)
  /-- `FB_RESET_FILL` (00_scope.md R13). -/
  fbResetFill : Byte
  /-- `LINE_Y` (00_scope.md R13). -/
  lineY : LineArith
  /-- `CIRCLE_ROOT` (00_scope.md R13). -/
  circleRoot : RootArith
  /-- `GLYPH_LANDSCAPE_MSB_TOP` (00_scope.md R13). -/
  glyphLandscapeMsbTop : Bool
  /-- `BUSY_MAX_POLLS`: `none` is an unbounded wait, any other value is at least 1 (00_scope.md R13, 60_exceptions.md
  R182). -/
  busyMaxPolls : Option PollBound
  deriving DecidableEq, Repr

namespace Config

/-! ### Free values -/

/-- FREE VALUE: the panel agent's answer to the `k`-th poll, where `State.panel` lists none
(00_scope.md R16, 92_eei_decisions.md D36; log 4). -/
opaque busyDraw : Nat → Bool

/-- FREE VALUE: `LINE_Y(x0, y0, x1, y1, x)` under the arithmetic `custom` (41_raster.md R114; log 9). -/
opaque lineYCustom : Int → Int → Int → Int → Int → Int

/-- FREE VALUE: the binary64 `LINE_Y` where a conversion or a product overflows binary64 and the formula of
R114 has no value (log 9). -/
opaque lineYOverflow : Int → Int → Int → Int → Int → Int

/-- FREE VALUE: `sqrt(n)` under the arithmetic `custom`, as a numerator and a denominator less 1 (41_raster.md R127;
log 10). -/
opaque rootCustom : Nat → Nat × Nat

/-- FREE VALUE: the binary64 `sqrt(n)` where `n` overflows binary64, as a numerator and a denominator less 1 (log 10). -/
opaque rootOverflow : Nat → Nat × Nat

/-! ### Open parameters: what `State.reset` is configured with (00_scope.md R9 to R12; log 7, log 8) -/

/-- OPEN: `P_DRV` (00_scope.md R9). -/
opaque pDrv : List Byte

/-- OPEN: `P_BOOST` (00_scope.md R9). -/
opaque pBoost : List Byte

/-- OPEN: `P_VCOM` (00_scope.md R9). -/
opaque pVcom : List Byte

/-- OPEN: `P_DUMMY` (00_scope.md R9). -/
opaque pDummy : List Byte

/-- OPEN: `P_GATE` (00_scope.md R9). -/
opaque pGate : List Byte

/-- OPEN: `LUT_FULL` (00_scope.md R10). -/
opaque lutFull : Vector Byte 30

/-- OPEN: `LUT_PARTIAL` (00_scope.md R10). -/
opaque lutPartial : Vector Byte 30

/-- OPEN: `RAMX(Portrait)` (00_scope.md R11). -/
opaque ramXPortrait : List Byte

/-- OPEN: `RAMY(Portrait)` (00_scope.md R11). -/
opaque ramYPortrait : List Byte

/-- OPEN: `CTRX(Portrait)` (00_scope.md R11). -/
opaque ctrXPortrait : List Byte

/-- OPEN: `CTRY(Portrait)` (00_scope.md R11). -/
opaque ctrYPortrait : List Byte

/-- OPEN: `RAMX(Landscape)` (00_scope.md R11). -/
opaque ramXLandscape : List Byte

/-- OPEN: `RAMY(Landscape)` (00_scope.md R11). -/
opaque ramYLandscape : List Byte

/-- OPEN: `CTRX(Landscape)` (00_scope.md R11). -/
opaque ctrXLandscape : List Byte

/-- OPEN: `CTRY(Landscape)` (00_scope.md R11). -/
opaque ctrYLandscape : List Byte

/-- OPEN: `GLYPHS` (00_scope.md R12). -/
opaque glyphs : List (Char × Glyph)

/-- The open payloads of `init` as the record `PanelInit` (00_scope.md R9). -/
def panelInit : PanelInit :=
  { drv := pDrv, boost := pBoost, vcom := pVcom, dummy := pDummy, gate := pGate }

/-- The open window payloads of Portrait (00_scope.md R11). -/
def windowPortrait : Window :=
  { ramX := ramXPortrait, ramY := ramYPortrait, ctrX := ctrXPortrait, ctrY := ctrYPortrait }

/-- The open window payloads of Landscape (00_scope.md R11). -/
def windowLandscape : Window :=
  { ramX := ramXLandscape, ramY := ramYLandscape, ctrX := ctrXLandscape, ctrY := ctrYLandscape }

/-- A configuration for given construction arguments: the open parameters as they are, and the spec's defaults
for the fields of 00_scope.md R13. -/
def standard (orient : Orient) (mode : RefreshMode) : Cfg :=
  { orient := orient
    mode := mode
    init := panelInit
    lutFull := lutFull
    lutPartial := lutPartial
    windowPortrait := windowPortrait
    windowLandscape := windowLandscape
    glyphs := glyphs
    fbResetFill := 0xFF
    lineY := .exact
    circleRoot := .exact
    glyphLandscapeMsbTop := true
    busyMaxPolls := none }

end Config

end Sys2Proof
end

