-- ==== Sys2Proof/Syntax.lean ====
section
/-! DEFINITION. The instructions: one constructor per row of spec/opcode_table.json, and the forms in which an
instruction is written down (30_encoding.md R60): a term, a line of R87's syntax, or a command frame. -/

namespace Sys2Proof

/-- The 15 wire command rows (30_encoding.md R67) and the 19 host operations (R85). -/
inductive Instr where
  /-- DRIVER_OUTPUT_CONTROL, 0x01 (R70). -/
  | driverOutputControl
  /-- BOOSTER_SOFT_START, 0x0C (R71). -/
  | boosterSoftStart
  /-- DATA_ENTRY_MODE, 0x11 (R75). -/
  | dataEntryMode
  /-- ACTIVATE_UPDATE, 0x20 (R83). -/
  | activateUpdate
  /-- DISPLAY_UPDATE_CONTROL, 0x22 (R82). -/
  | displayUpdateControl
  /-- WRITE_RAM, 0x24 (R81). -/
  | writeRam
  /-- WRITE_VCOM, 0x2C (R72). -/
  | writeVcom
  /-- WRITE_LUT, 0x32 (R76). -/
  | writeLut
  /-- DUMMY_LINE_PERIOD, 0x3A (R73). -/
  | dummyLinePeriod
  /-- GATE_TIME, 0x3B (R74). -/
  | gateTime
  /-- RAM_X_START_END, 0x44 (R77). -/
  | ramXStartEnd
  /-- RAM_Y_START_END, 0x45 (R78). -/
  | ramYStartEnd
  /-- RAM_X_COUNTER, 0x4E (R79). -/
  | ramXCounter
  /-- RAM_Y_COUNTER, 0x4F (R80). -/
  | ramYCounter
  /-- TERMINATE_FRAME, 0xFF (R84). -/
  | terminateFrame
  /-- `setPixel x, y, c` (R100). -/
  | setPixel (x y c : Int)
  /-- `getPixel x, y` (R101). -/
  | getPixel (x y : Int)
  /-- `fill c` (R102). -/
  | fill (c : Int)
  /-- `hline x, y, length, c` (R110). -/
  | hline (x y length c : Int)
  /-- `vline x, y, length, c` (R111). -/
  | vline (x y length c : Int)
  /-- `line x0, y0, x1, y1, c` (R112). -/
  | line (x0 y0 x1 y1 c : Int)
  /-- `rect x0, y0, x1, y1, c, fill=f` (R120). -/
  | rect (x0 y0 x1 y1 c : Int) (fill : Bool)
  /-- `circle cx, cy, radius, c, fill=f` (R125). -/
  | circle (cx cy radius c : Int) (fill : Bool)
  /-- `text s, xOrigin, yOrigin, c` (R130). -/
  | text (s : List Char) (xOrigin yOrigin c : Int)
  /-- `reset` (R140). -/
  | reset
  /-- `waitUntilIdle` (R142). -/
  | waitUntilIdle
  /-- `writeCommand [b0, b1, ...]` (R143). -/
  | writeCommand (bs : List Byte)
  /-- `writeData [b0, b1, ...]` (R144). -/
  | writeData (bs : List Byte)
  /-- `init` (R160). -/
  | init
  /-- `setMemoryArea` (R161). -/
  | setMemoryArea
  /-- `setMemoryPointer` (R162). -/
  | setMemoryPointer
  /-- `writeImage` (R163). -/
  | writeImage
  /-- `update` (R164). -/
  | update
  /-- `fullRefresh` (R166). -/
  | fullRefresh
  deriving DecidableEq, Repr

/-- One operand as R87 writes it, before its type is checked against R85. -/
inductive RawOperand where
  /-- An integer, decimal or hexadecimal. -/
  | int (v : Int)
  /-- A Boolean, `fill=true` or `fill=false`. -/
  | flag (b : Bool)
  /-- A string in double quotes. -/
  | str (s : List Char)
  /-- A byte list in square brackets; that its entries are bytes is not checked yet. -/
  | bytes (bs : List Int)
  deriving DecidableEq, Repr

/-- A host term as written: a mnemonic and its operands (30_encoding.md R85, R87). -/
structure RawTerm where
  mnemonic : List Char
  operands : List RawOperand
  deriving DecidableEq, Repr

/-- One issue of the host, in one of the forms the spec gives an instruction (30_encoding.md R60; log 2). -/
inductive Issue where
  /-- Host level: the operation as a term (R60b, R85). -/
  | term (i : Instr)
  /-- Host level: one line in the textual syntax of R87. -/
  | line (text : List Char)
  /-- Wire level: the bytes of one command frame (R60a, R61). -/
  | frame (bytes : List Byte)
  deriving DecidableEq, Repr

/-- Why an issue is no instruction. -/
inductive DecodeError where
  /-- A command frame with no byte carries no code. -/
  | emptyFrame
  /-- A command frame with more than one byte is no row of the opcode map (30_encoding.md R62). -/
  | longFrame (bytes : List Byte)
  /-- One of the 241 byte values that no source lists (30_encoding.md R66). -/
  | unlistedCode (code : Byte)
  /-- A line that names none of the 19 operations of 30_encoding.md R85. -/
  | unknownMnemonic (name : List Char)
  /-- Operands whose number or types are not those of 30_encoding.md R85. -/
  | operandTypes (name : List Char)
  /-- A byte list with an entry outside 0..255 (30_encoding.md R89). -/
  | byteRange (name : List Char)
  /-- A line that does not follow the textual syntax of 30_encoding.md R87. -/
  | badLine (text : List Char)
  /-- A program whose first line is no `construct` header (30_encoding.md R87). -/
  | badHeader (text : List Char)
  deriving DecidableEq, Repr

end Sys2Proof
end

