-- ==== Sys2Proof/WellFormed.lean ====
section
/-! DEFINITION. Well-formedness (30_encoding.md R89). A term of type `Instr` is well formed by its type; what a host
writes down (`RawTerm`) is checked here, and so is whether a term can be written in R87's syntax at all. -/

namespace Sys2Proof

/-- The operand types of 30_encoding.md R85. -/
inductive OperandType where
  | int
  | flag
  | str
  | bytes
  deriving DecidableEq, Repr

/-- The operand table of 30_encoding.md R85: each of the 19 operations with its operand types. -/
def signatures : List (List Char × List OperandType) :=
  [ ("setPixel".toList, [.int, .int, .int]),
    ("getPixel".toList, [.int, .int]),
    ("fill".toList, [.int]),
    ("hline".toList, [.int, .int, .int, .int]),
    ("vline".toList, [.int, .int, .int, .int]),
    ("line".toList, [.int, .int, .int, .int, .int]),
    ("rect".toList, [.int, .int, .int, .int, .int, .flag]),
    ("circle".toList, [.int, .int, .int, .int, .flag]),
    ("text".toList, [.str, .int, .int, .int]) ] ++
  [ ("reset".toList, []),
    ("waitUntilIdle".toList, []),
    ("writeCommand".toList, [.bytes]),
    ("writeData".toList, [.bytes]),
    ("init".toList, []),
    ("setMemoryArea".toList, []),
    ("setMemoryPointer".toList, []),
    ("writeImage".toList, []),
    ("update".toList, []),
    ("fullRefresh".toList, []) ]

/-- The operand types of a mnemonic, if R85 lists it. -/
def signature (mnemonic : List Char) : Option (List OperandType) :=
  signatures.lookup mnemonic

/-- Whether an operand has a type of R85. -/
def RawOperand.hasType : RawOperand → OperandType → Bool
  | .int _,   .int   => true
  | .flag _,  .flag  => true
  | .str _,   .str   => true
  | .bytes _, .bytes => true
  | _,        _      => false

/-- Whether operands match a row of R85, in number and in types. -/
def operandsTyped : List RawOperand → List OperandType → Bool
  | [], [] => true
  | o :: os, t :: ts => o.hasType t && operandsTyped os ts
  | _, _ => false

/-- "every byte in `bs` is in 0..255" (30_encoding.md R89). -/
def RawOperand.bytesInRange : RawOperand → Bool
  | .bytes bs => bs.all fun v => decide (0 ≤ v) && decide (v ≤ 255)
  | .int _    => true
  | .flag _   => true
  | .str _    => true

/-- Well-formedness of a written term (30_encoding.md R89). -/
def RawTerm.wellFormed (t : RawTerm) : Bool :=
  match signature t.mnemonic with
  | none    => false
  | some ts => operandsTyped t.operands ts && t.operands.all RawOperand.bytesInRange

/-- The character that delimits a string in R87's syntax. -/
def quoteChar : Char := Char.ofNat 34

/-- The character that ends a line. -/
def newlineChar : Char := Char.ofNat 10

/-- Whether a string can stand between double quotes on one line: R87 gives no escape, so a `text` whose string holds
a double quote or a line end can be issued as a term only (log 16). -/
def writableString (s : List Char) : Bool :=
  s.all fun c => c != quoteChar && c != newlineChar

end Sys2Proof
end

