-- ==== Sys2Proof/Decode.lean ====
section
/-! DEFINITION. The decoder, total on every issue and rejecting by name, and after it the encoder
(30_encoding.md R60 to R67, R85 to R89). -/

namespace Sys2Proof

/-! ### Wire level: the command code of a frame -/

/-- The wire opcode map of 30_encoding.md R67, in ascending code order. -/
def codeTable : List (Byte × Instr) :=
  [ (0x01, .driverOutputControl),
    (0x0C, .boosterSoftStart),
    (0x11, .dataEntryMode),
    (0x20, .activateUpdate),
    (0x22, .displayUpdateControl),
    (0x24, .writeRam),
    (0x2C, .writeVcom),
    (0x32, .writeLut) ] ++
  [ (0x3A, .dummyLinePeriod),
    (0x3B, .gateTime),
    (0x44, .ramXStartEnd),
    (0x45, .ramYStartEnd),
    (0x4E, .ramXCounter),
    (0x4F, .ramYCounter),
    (0xFF, .terminateFrame) ]

/-- The row of one command code; the 241 unlisted values have none (R66). -/
def decodeCode (code : Byte) : Except DecodeError Instr :=
  match codeTable.lookup code with
  | some i => .ok i
  | none   => .error (.unlistedCode code)

/-- A command frame carries exactly one byte, the command code (R62). -/
def decodeFrame : List Byte → Except DecodeError Instr
  | []      => .error .emptyFrame
  | [code]  => decodeCode code
  | bs      => .error (.longFrame bs)

/-! ### Host level: the textual syntax of R87 -/

/-- A letter of a mnemonic. -/
def isLetter (c : Char) : Bool :=
  (decide (65 ≤ c.toNat) && decide (c.toNat ≤ 90)) || (decide (97 ≤ c.toNat) && decide (c.toNat ≤ 122))

/-- The value of a digit in a base, upper or lower case. -/
def digitVal (base : Nat) (c : Char) : Option Nat :=
  let n := c.toNat
  let v :=
    if 48 ≤ n ∧ n ≤ 57 then n - 48
    else if 65 ≤ n ∧ n ≤ 70 then n - 55
    else if 97 ≤ n ∧ n ≤ 102 then n - 87
    else base
  if v < base then some v else none

/-- The value of the digits at the head of a text, continuing `acc`, and what follows them. -/
def digitsFrom (base acc : Nat) : List Char → Nat × List Char
  | [] => (acc, [])
  | c :: cs =>
    match digitVal base c with
    | some d => digitsFrom base (acc * base + d) cs
    | none   => (acc, c :: cs)

/-- One or more digits. -/
def parseDigits (base : Nat) : List Char → Option (Nat × List Char)
  | [] => none
  | c :: cs =>
    match digitVal base c with
    | some d => some (digitsFrom base d cs)
    | none   => none

/-- The rest of a text after a given beginning. -/
def stripBegin : List Char → List Char → Option (List Char)
  | [], cs => some cs
  | _ :: _, [] => none
  | p :: ps, c :: cs => if p = c then stripBegin ps cs else none

/-- "Integers are written in decimal, or in hexadecimal with `0x`" (R87). -/
def parseNat (cs : List Char) : Option (Nat × List Char) :=
  match stripBegin ['0', 'x'] cs with
  | some r => parseDigits 16 r
  | none   => parseDigits 10 cs

/-- An integer with an optional minus sign. -/
def parseInt (cs : List Char) : Option (Int × List Char) :=
  match stripBegin ['-'] cs with
  | some r => (parseNat r).map fun p => (-(p.1 : Int), p.2)
  | none   => (parseNat cs).map fun p => ((p.1 : Int), p.2)

/-- The rest of a string after its opening quote: its characters and what follows the closing quote. -/
def parseString : List Char → Option (List Char × List Char)
  | [] => none
  | c :: cs =>
    if c = quoteChar then some ([], cs)
    else if c = newlineChar then none
    else (parseString cs).map fun p => (c :: p.1, p.2)

/-- The entries of a non-empty byte list and what follows its closing bracket; `fuel` bounds their number. -/
def parseEntries : Nat → List Char → Option (List Int × List Char)
  | 0, _ => none
  | fuel + 1, cs =>
    match parseInt cs with
    | none => none
    | some (v, r) =>
      match stripBegin [']'] r with
      | some r' => some ([v], r')
      | none =>
        match stripBegin [',', ' '] r with
        | some r' => (parseEntries fuel r').map fun p => (v :: p.1, p.2)
        | none    => none

/-- The rest of a byte list after its opening bracket. -/
def parseByteList (cs : List Char) : Option (List Int × List Char) :=
  match stripBegin [']'] cs with
  | some r => some ([], r)
  | none   => parseEntries cs.length cs

/-- "Booleans are written `fill=true` or `fill=false`" (R87). -/
def parseFlag (cs : List Char) : Option (Bool × List Char) :=
  match stripBegin "fill=true".toList cs with
  | some r => some (true, r)
  | none   => (stripBegin "fill=false".toList cs).map fun r => (false, r)

/-- One operand, told by its first character. -/
def parseOperand (cs : List Char) : Option (RawOperand × List Char) :=
  match stripBegin [quoteChar] cs with
  | some r => (parseString r).map fun p => (.str p.1, p.2)
  | none =>
    match stripBegin ['['] cs with
    | some r => (parseByteList r).map fun p => (.bytes p.1, p.2)
    | none =>
      match stripBegin ['f'] cs with
      | some _ => (parseFlag cs).map fun p => (.flag p.1, p.2)
      | none   => (parseInt cs).map fun p => (.int p.1, p.2)

/-- Operands "separated by `, `" (R87), and what follows them; `fuel` bounds their number. -/
def parseOperands : Nat → List Char → Option (List RawOperand × List Char)
  | 0, _ => none
  | fuel + 1, cs =>
    match parseOperand cs with
    | none => none
    | some (o, r) =>
      match stripBegin [',', ' '] r with
      | some r' => (parseOperands fuel r').map fun p => (o :: p.1, p.2)
      | none    => some ([o], r)

/-- Whether nothing but spaces and a comment follows: "`;` starts a comment that runs to the end of the line"
(R87). -/
def lineEnds : List Char → Bool
  | [] => true
  | c :: cs => if c = ' ' then lineEnds cs else decide (c = ';')

/-- One line: "the mnemonic, a space, then the operands separated by `, `" (R87). -/
def parseLine (cs : List Char) : Except DecodeError RawTerm :=
  let name := cs.takeWhile isLetter
  let rest := cs.dropWhile isLetter
  if name = [] then .error (.badLine cs)
  else if lineEnds rest then .ok { mnemonic := name, operands := [] }
  else
    match stripBegin [' '] rest with
    | none => .error (.badLine cs)
    | some r =>
      match parseOperands r.length r with
      | none => .error (.badLine cs)
      | some (ops, tail) =>
        if lineEnds tail then .ok { mnemonic := name, operands := ops } else .error (.badLine cs)

/-! ### Host level: from a written term to an operation -/

/-- The bytes of a byte list whose entries are in 0..255. -/
def toBytes (bs : List Int) : List Byte := bs.map (BitVec.ofInt 8)

/-- The operation a mnemonic and operands of its row's types stand for (R85). -/
def buildRows : List (List Char × (List RawOperand → Option Instr)) :=
  [ ("setPixel".toList, fun | [.int x, .int y, .int c] => some (.setPixel x y c) | _ => none),
    ("getPixel".toList, fun | [.int x, .int y] => some (.getPixel x y) | _ => none),
    ("fill".toList, fun | [.int c] => some (.fill c) | _ => none),
    ("hline".toList, fun | [.int x, .int y, .int l, .int c] => some (.hline x y l c) | _ => none),
    ("vline".toList, fun | [.int x, .int y, .int l, .int c] => some (.vline x y l c) | _ => none),
    ("line".toList,
      fun | [.int x0, .int y0, .int x1, .int y1, .int c] => some (.line x0 y0 x1 y1 c) | _ => none),
    ("rect".toList,
      fun | [.int x0, .int y0, .int x1, .int y1, .int c, .flag f] => some (.rect x0 y0 x1 y1 c f) | _ => none),
    ("circle".toList,
      fun | [.int cx, .int cy, .int r, .int c, .flag f] => some (.circle cx cy r c f) | _ => none),
    ("text".toList, fun | [.str s, .int x, .int y, .int c] => some (.text s x y c) | _ => none) ] ++
  [ ("reset".toList, fun | [] => some .reset | _ => none),
    ("waitUntilIdle".toList, fun | [] => some .waitUntilIdle | _ => none),
    ("writeCommand".toList, fun | [.bytes bs] => some (.writeCommand (toBytes bs)) | _ => none),
    ("writeData".toList, fun | [.bytes bs] => some (.writeData (toBytes bs)) | _ => none),
    ("init".toList, fun | [] => some .init | _ => none),
    ("setMemoryArea".toList, fun | [] => some .setMemoryArea | _ => none),
    ("setMemoryPointer".toList, fun | [] => some .setMemoryPointer | _ => none),
    ("writeImage".toList, fun | [] => some .writeImage | _ => none),
    ("update".toList, fun | [] => some .update | _ => none),
    ("fullRefresh".toList, fun | [] => some .fullRefresh | _ => none) ]

/-- The operation of a written term, or why it is ill formed (R89). -/
def elaborateTerm (t : RawTerm) : Except DecodeError Instr :=
  match buildRows.lookup t.mnemonic with
  | none => .error (.unknownMnemonic t.mnemonic)
  | some build =>
    if t.operands.all RawOperand.bytesInRange then
      match build t.operands with
      | some i => .ok i
      | none   => .error (.operandTypes t.mnemonic)
    else .error (.byteRange t.mnemonic)

/-- The operation a line of R87's syntax stands for. -/
def decodeLine (text : List Char) : Except DecodeError Instr :=
  match parseLine text with
  | .ok t    => elaborateTerm t
  | .error e => .error e

/-! ### The decoder -/

/-- The instruction an issue of the host stands for (30_encoding.md R60). -/
def decode : Issue → Except DecodeError Instr
  | .term i    => .ok i
  | .line text => decodeLine text
  | .frame bs  => decodeFrame bs

/-- The bytes of a table word: byte `j` is bits `8j+7..8j` of `w`, as many as `nbits` fills. -/
def wordBytes (nbits w : Nat) : List Byte :=
  (List.range ((nbits + 7) / 8)).map fun j => BitVec.ofNat 8 (w >>> (8 * j))

/-- The instruction the decoder reads from a row of spec/opcode_table.json that has bits: a command frame. -/
def decodeTableWord (nbits w : Nat) : Option Instr :=
  match decode (.frame (wordBytes nbits w)) with
  | .ok i    => some i
  | .error _ => none

/-! ### A program's text (R87): the header, then one operation a line -/

/-- The lines of a text. -/
def splitLines : List Char → List (List Char)
  | [] => [[]]
  | c :: cs =>
    match splitLines cs with
    | l :: ls => if c = newlineChar then [] :: l :: ls else (c :: l) :: ls
    | []      => [[c]]

/-- The header line `construct orient=<Portrait|Landscape>, mode=<Full|Partial>` (R87). -/
def parseHeader (cs : List Char) : Except DecodeError (Orient × RefreshMode) :=
  let row (o m : List Char) := stripBegin ("construct orient=".toList ++ o ++ ", mode=".toList ++ m) cs
  let ends (r : Option (List Char)) : Bool := match r with
    | some tail => lineEnds tail
    | none      => false
  if ends (row "Portrait".toList "Full".toList) then .ok (.portrait, .full)
  else if ends (row "Portrait".toList "Partial".toList) then .ok (.portrait, .partialRefresh)
  else if ends (row "Landscape".toList "Full".toList) then .ok (.landscape, .full)
  else if ends (row "Landscape".toList "Partial".toList) then .ok (.landscape, .partialRefresh)
  else .error (.badHeader cs)

/-- A program's text: the construction arguments and the operation lines; lines that hold no operation (blank, or
a comment only) are passed over. -/
def parseProgram (text : List Char) : Except DecodeError ((Orient × RefreshMode) × List Issue) :=
  match (splitLines text).filter (fun l => !lineEnds l) with
  | [] => .error (.badHeader text)
  | header :: rest =>
    match parseHeader header with
    | .ok om   => .ok (om, rest.map .line)
    | .error e => .error e

/-! ### The encoder -/

/-- The character of a digit below 16, upper case. -/
def digitChar (d : Nat) : Char := if d < 10 then Char.ofNat (48 + d) else Char.ofNat (55 + d)

/-- The decimal digits of a number in front of `acc`; `fuel` bounds their number. -/
def decimalAux : Nat → Nat → List Char → List Char
  | 0, _, acc => acc
  | fuel + 1, n, acc =>
    if n < 10 then digitChar n :: acc else decimalAux fuel (n / 10) (digitChar (n % 10) :: acc)

/-- A natural number in decimal. -/
def decimal (n : Nat) : List Char := decimalAux (n + 1) n []

/-- An integer in decimal, with a minus sign where it is negative. -/
def printInt : Int → List Char
  | .ofNat n   => decimal n
  | .negSucc n => '-' :: decimal (n + 1)

/-- A byte as `0x` and two hexadecimal digits, as in `writeCommand [0x22]` (R87). -/
def printByte (b : Byte) : List Char :=
  ['0', 'x', digitChar (b.toNat / 16), digitChar (b.toNat % 16)]

/-- Texts "separated by `, `" (R87). -/
def joinComma : List (List Char) → List Char
  | [] => []
  | [a] => a
  | a :: b :: rest => a ++ (',' :: ' ' :: joinComma (b :: rest))

/-- A byte list in square brackets (R87). -/
def printBytes (bs : List Byte) : List Char := '[' :: (joinComma (bs.map printByte) ++ [']'])

/-- A string in double quotes (R87). -/
def printString (s : List Char) : List Char := quoteChar :: (s ++ [quoteChar])

/-- A Boolean (R87). -/
def printFlag (b : Bool) : List Char := if b then "fill=true".toList else "fill=false".toList

/-- A line of R87's syntax: the mnemonic, a space, then the operands separated by `, `. -/
def printLine (mnemonic : List Char) : List (List Char) → List Char
  | []       => mnemonic
  | op :: ops => mnemonic ++ (' ' :: joinComma (op :: ops))

/-- The encoding of an instruction: the command frame of a wire row (R67), the line of a host operation (R87), and
for a `text` whose string no line can carry the term itself (R60b; log 16). -/
def encode : Instr → Issue
  | .driverOutputControl  => .frame [0x01]
  | .boosterSoftStart     => .frame [0x0C]
  | .dataEntryMode        => .frame [0x11]
  | .activateUpdate       => .frame [0x20]
  | .displayUpdateControl => .frame [0x22]
  | .writeRam             => .frame [0x24]
  | .writeVcom            => .frame [0x2C]
  | .writeLut             => .frame [0x32]
  | .dummyLinePeriod      => .frame [0x3A]
  | .gateTime             => .frame [0x3B]
  | .ramXStartEnd         => .frame [0x44]
  | .ramYStartEnd         => .frame [0x45]
  | .ramXCounter          => .frame [0x4E]
  | .ramYCounter          => .frame [0x4F]
  | .terminateFrame       => .frame [0xFF]
  | .setPixel x y c => .line (printLine "setPixel".toList [printInt x, printInt y, printInt c])
  | .getPixel x y   => .line (printLine "getPixel".toList [printInt x, printInt y])
  | .fill c         => .line (printLine "fill".toList [printInt c])
  | .hline x y l c  => .line (printLine "hline".toList [printInt x, printInt y, printInt l, printInt c])
  | .vline x y l c  => .line (printLine "vline".toList [printInt x, printInt y, printInt l, printInt c])
  | .line x0 y0 x1 y1 c =>
    .line (printLine "line".toList [printInt x0, printInt y0, printInt x1, printInt y1, printInt c])
  | .rect x0 y0 x1 y1 c f =>
    .line (printLine "rect".toList
      [printInt x0, printInt y0, printInt x1, printInt y1, printInt c, printFlag f])
  | .circle cx cy r c f =>
    .line (printLine "circle".toList [printInt cx, printInt cy, printInt r, printInt c, printFlag f])
  | .text s x y c =>
    if writableString s then
      .line (printLine "text".toList [printString s, printInt x, printInt y, printInt c])
    else .term (.text s x y c)
  | .reset            => .line (printLine "reset".toList [])
  | .waitUntilIdle    => .line (printLine "waitUntilIdle".toList [])
  | .writeCommand bs  => .line (printLine "writeCommand".toList [printBytes bs])
  | .writeData bs     => .line (printLine "writeData".toList [printBytes bs])
  | .init             => .line (printLine "init".toList [])
  | .setMemoryArea    => .line (printLine "setMemoryArea".toList [])
  | .setMemoryPointer => .line (printLine "setMemoryPointer".toList [])
  | .writeImage       => .line (printLine "writeImage".toList [])
  | .update           => .line (printLine "update".toList [])
  | .fullRefresh      => .line (printLine "fullRefresh".toList [])

end Sys2Proof
end

