-- ==== Sys2Proof/Machine/Operands.lean ====
section
/-! DEFINITION. Every operand form: colours, pixel addresses, integer ranges, the arithmetic of lines and circles,
glyph bits, and the payloads of the wire commands (00_scope.md R15, 20_memory.md R41 to R46, 30_encoding.md R65, R86). -/

namespace Sys2Proof.Machine

/-! ### Geometry and pixel addresses -/

/-- `WIDTH(o)` (00_scope.md R8, 10_state.md R25). -/
def width : Orient → Nat
  | .portrait  => 128
  | .landscape => 296

/-- `HEIGHT(o)` (00_scope.md R8, 10_state.md R25). -/
def height : Orient → Nat
  | .portrait  => 296
  | .landscape => 128

/-- A pixel is in range when `0 ≤ x < width` and `0 ≤ y < height` (20_memory.md R43). -/
abbrev InRange (o : Orient) (x y : Int) : Prop :=
  0 ≤ x ∧ x < width o ∧ 0 ≤ y ∧ y < height o

/-- The byte index of an in-range pixel (20_memory.md R41 Landscape, R42 Portrait). -/
def pixelIndex (o : Orient) (x y : Nat) : Nat :=
  match o with
  | .landscape => y / 8 * width .landscape + x
  | .portrait  => (x + y * width .portrait) / 8

/-- The bit number of an in-range pixel, counted from the least significant bit (20_memory.md R41, R42). -/
def pixelBit (o : Orient) (x y : Nat) : Nat :=
  match o with
  | .landscape => 7 - y % 8
  | .portrait  => 7 - x % 8

/-- A colour is read only as `c ≠ 0`: 0 is black and any other value is white (30_encoding.md R86). -/
def colourBit (c : Int) : Bit := if c = 0 then 0#1 else 1#1

/-- The byte `fill c` writes (40_framebuffer.md R102). -/
def fillByte (c : Int) : Byte := if c = 0 then 0x00#8 else 0xFF#8

/-- `(b >> k) & 1` (40_framebuffer.md R101). -/
def bitOf (b : Byte) (k : Nat) : Bit := (b >>> k).setWidth 1

/-- `(b & ~(1 << k) & 0xFF) | (v << k)` (20_memory.md R43). -/
def setBit (b : Byte) (k : Nat) (v : Bit) : Byte := (b &&& ~~~(1#8 <<< k)) ||| (v.setWidth 8 <<< k)

/-! ### Integer ranges (00_scope.md R15) -/

/-- `a + i` for `i` in `range(0, n)`: empty when `n ≤ 0`. -/
def rangeFrom (a n : Int) : List Int := (List.range n.toNat).map fun (i : Nat) => a + (i : Int)

/-- `[a..b]`, the inclusive ascending list: empty when `b < a`. -/
def interval (a b : Int) : List Int := rangeFrom a (b - a + 1)

/-! ### Exact arithmetic (00_scope.md R15) -/

/-- `floorDiv(a, b)` for `b > 0`: the greatest integer `q` with `q·b ≤ a`. -/
def floorDiv (a b : Int) : Int := a.fdiv b

/-- The integer square root of a number of at most `fuel` base-4 digits, one digit a call. -/
def isqrtAux : Nat → Nat → Nat
  | 0, _ => 0
  | fuel + 1, n =>
    let r := 2 * isqrtAux fuel (n / 4)
    if (r + 1) * (r + 1) ≤ n then r + 1 else r

/-- `isqrt(n)`: the greatest integer `s` with `s² ≤ n`. -/
def isqrt (n : Nat) : Nat := isqrtAux (n.log2 + 1) n

/-- `csqrt(n)`: the least integer `s` with `s² ≥ n`. -/
def csqrt (n : Nat) : Nat := if isqrt n * isqrt n = n then isqrt n else isqrt n + 1

/-! ### IEEE binary64 (41_raster.md R114, R127; log 9, log 10) -/

/-- `a / b` rounded to the nearest integer, ties to even. -/
def roundHalfEven (a b : Nat) : Nat :=
  if 2 * (a % b) < b then a / b
  else if b < 2 * (a % b) then a / b + 1
  else if a / b % 2 = 0 then a / b else a / b + 1

/-- `floor(log2(a / b))` for `a, b > 0`. -/
def floorLog2 (a b : Nat) : Int :=
  let d : Int := (a.log2 : Int) - (b.log2 : Int)
  if b * 2 ^ d.toNat ≤ a * 2 ^ (-d).toNat then d else d - 1

/-- The binary64 number nearest to `num / den`, as a fraction; `none` where it overflows. A binary64 number is
`m · 2^q` with `m < 2^53` and `q ≥ -1074`. -/
def binary64 (num : Int) (den : Nat) : Option (Int × Nat) :=
  if num = 0 then some (0, 1)
  else
    let q : Int := max (floorLog2 num.natAbs den - 52) (-1074)
    let m := roundHalfEven (num.natAbs * 2 ^ (-q).toNat) (den * 2 ^ q.toNat)
    if (1024 : Int) ≤ (m.log2 : Int) + q then none
    else some (num.sign * ((m * 2 ^ q.toNat : Nat) : Int), 2 ^ (-q).toNat)

/-- The binary64 square root of an integer `n ≥ 0`, as a fraction; `none` where `n` overflows. The integer square
root has 64 bits after the point, and a sticky bit where it is not exact, so that the last rounding is right. -/
def sqrt64 (n : Nat) : Option (Int × Nat) :=
  match binary64 n 1 with
  | none => none
  | some (num, den) =>
    let scaled := num.toNat / den * 4 ^ 64
    let s := isqrt scaled
    binary64 (2 * (s : Int) + (if s * s = scaled then 0 else 1)) (2 ^ 65)

/-! ### Lines (41_raster.md R113, R114) -/

/-- The default `LINE_Y`: `y0 + floorDiv((y1 - y0)·(x - x0), x1 - x0)` (R113). -/
def lineYExact (x0 y0 x1 y1 x : Int) : Int := y0 + floorDiv ((y1 - y0) * (x - x0)) (x1 - x0)

/-- The binary64 `LINE_Y` of R114: `floor(fl(fl(fl(y1-y0)/fl(x1-x0))·(x-x0)) + y0)`; where it overflows there is no
value, and a free one is taken (log 9). -/
def lineYBinary64 (x0 y0 x1 y1 x : Int) : Int :=
  let value : Option Int :=
    (binary64 (y1 - y0) 1).bind fun dy =>
    (binary64 (x1 - x0) 1).bind fun dx =>
    (binary64 (dy.1 * dx.2) (dy.2 * dx.1.toNat)).bind fun m =>
    (binary64 (m.1 * (x - x0)) m.2).map fun p => floorDiv p.1 p.2 + y0
  match value with
  | some y => y
  | none   => Config.lineYOverflow x0 y0 x1 y1 x

/-- `LINE_Y` as configured (00_scope.md R13). -/
def lineY (arith : LineArith) (x0 y0 x1 y1 x : Int) : Int :=
  match arith with
  | .exact    => lineYExact x0 y0 x1 y1 x
  | .binary64 => lineYBinary64 x0 y0 x1 y1 x
  | .custom   => Config.lineYCustom x0 y0 x1 y1 x

/-! ### Circles (41_raster.md R126, R127) -/

/-- A free root as a fraction. -/
def freeRoot (root : Nat × Nat) : Int × Nat := ((root.1 : Int), root.2 + 1)

/-- `sqrt_64(n)` (R127); where `n` overflows, a free root (log 10). -/
def rootBinary64 (n : Nat) : Int × Nat :=
  match sqrt64 n with
  | some p => p
  | none   => freeRoot (Config.rootOverflow n)

/-- `floor(k + p)` for a fraction `p`. -/
def floorPlus (k : Int) (p : Int × Nat) : Int := k + floorDiv p.1 p.2

/-- `floor(k - p)` for a fraction `p`: a floor, no truncation toward zero, which R127 does not admit. -/
def floorMinus (k : Int) (p : Int × Nat) : Int := k + floorDiv (-p.1) p.2

/-- `floor(k + sqrt(n))` as configured: the default is `k + isqrt(n)` (R126), any other the floor with its root (R127). -/
def rootPlus (arith : RootArith) (k : Int) (n : Nat) : Int :=
  match arith with
  | .exact    => k + isqrt n
  | .binary64 => floorPlus k (rootBinary64 n)
  | .custom   => floorPlus k (freeRoot (Config.rootCustom n))

/-- `floor(k - sqrt(n))` as configured: the default is `k - csqrt(n)` (R126), any other the floor with its root (R127). -/
def rootMinus (arith : RootArith) (k : Int) (n : Nat) : Int :=
  match arith with
  | .exact    => k - csqrt n
  | .binary64 => floorMinus k (rootBinary64 n)
  | .custom   => floorMinus k (freeRoot (Config.rootCustom n))

/-! ### Glyphs (41_raster.md R130, R131) -/

/-- `GLYPHS(c)` (00_scope.md R12). -/
def glyphOf (cfg : Cfg) (c : Char) : Option Glyph := cfg.glyphs.lookup c

/-- Whether row 0 of a glyph byte is its most significant bit: Portrait is the reverse of Landscape (R131). -/
def msbIsTop (cfg : Cfg) : Bool :=
  match cfg.orient with
  | .landscape => cfg.glyphLandscapeMsbTop
  | .portrait  => !cfg.glyphLandscapeMsbTop

/-- `glyphBit(b, k)`: the bit of row `k` (R131). -/
def glyphBit (cfg : Cfg) (b : Byte) (k : Nat) : Bit :=
  if msbIsTop cfg then bitOf b (7 - k) else bitOf b k

/-! ### Payloads (30_encoding.md R65) -/

/-- `DEM(orient)`, the data-entry-mode payload (00_scope.md R8). -/
def dem : Orient → Byte
  | .portrait  => 0x03#8
  | .landscape => 0x04#8

/-- `UPD_CTRL`, the payload of 0x22 (00_scope.md R8). -/
def updCtrl : Byte := 0xC4#8

/-- `LUT(mode)`, the waveform table that the mode selects (10_state.md R24). -/
def lutTable (cfg : Cfg) : Vector Byte 30 :=
  match cfg.mode with
  | .full           => cfg.lutFull
  | .partialRefresh => cfg.lutPartial

/-- `LUT(mode)` as a payload: the 30 bytes in table order (30_encoding.md R65). -/
def lut (cfg : Cfg) : List Byte := (lutTable cfg).toList

/-- The window payloads of the orientation (00_scope.md R11, 10_state.md R29). -/
def window (cfg : Cfg) : Window :=
  match cfg.orient with
  | .portrait  => cfg.windowPortrait
  | .landscape => cfg.windowLandscape

/-! ### Delays (00_scope.md R8) -/

/-- `RESET_LOW_MS`. -/
def resetLowMs : Nat := 10

/-- `RESET_HIGH_MS`. -/
def resetHighMs : Nat := 10

/-- `POLL_MS`. -/
def pollMs : Nat := 10

/-- `SETTLE_MS`. -/
def settleMs : Nat := 300

end Sys2Proof.Machine
end

