-- ==== Sys2Proof/Machine/State.lean ====
section
/-! DEFINITION. The state of one core instance (10_state.md), its faults and refusals, and the state right after
reset, which is construction (10_state.md R37, 70_reset_and_hazards.md R200). -/

namespace Sys2Proof.Machine

/-- The protocol-state register (10_state.md R30). -/
inductive PState where
  | uninitialized
  | resetting
  | initialized
  | writingImage
  | updating
  deriving DecidableEq, Repr

/-- The faults of 60_exceptions.md R180, each with the information it records. Raising one is a NEXT state with the
fault register set (R184); the outcome `fault` is what a core that already holds one answers (R185; log 12). -/
inductive Fault where
  /-- Raised by `text` at the first character without a glyph (R181). SAFE: the core stops where R185 says it takes
  no further operation. -/
  | glyphNotFound (c : Char)
  /-- Raised by the busy wait after `n` busy polls in a row, only with `BUSY_MAX_POLLS` set (R182). SAFE: the core
  stops where R185 says it takes no further operation. -/
  | deviceUnresponsive (n : Nat)
  deriving DecidableEq, Repr

/-- Why the model gives a step no meaning. -/
inductive Refusal where
  /-- Raised by `exec` for an instruction without a meaning, by name. SAFE: nothing can be proved of it. -/
  | notModelled (mnemonic : String)
  /-- Raised by `step` for an issue that is no instruction: 30_encoding.md R89, "A term that is not well formed
  cannot be written" (log 15). SAFE: no such run exists. -/
  | illFormed (e : DecodeError)
  /-- Raised by every meaning when it is invoked while another operation is in progress: 20_memory.md R56, "A host
  that does so is outside the contract" (log 14). SAFE: no such run exists; `step` never does so. -/
  | operationInProgress
  deriving DecidableEq, Repr

/-- The transport events: the closed alphabet of 20_memory.md R52, one per transport primitive. -/
inductive Event where
  /-- Reset line driven low. -/
  | rstLow
  /-- Reset line driven high. -/
  | rstHigh
  /-- Chip-select asserted (low). -/
  | csLow
  /-- Chip-select deasserted (high). -/
  | csHigh
  /-- Data/command line low: command. -/
  | dcCmd
  /-- Data/command line high: data. -/
  | dcData
  /-- The bytes `bs`, in order, clocked out. -/
  | write (bs : List Byte)
  /-- Busy line sampled; `true` means busy. -/
  | poll (busy : Bool)
  /-- A delay of at least `ms` milliseconds. -/
  | sleep (ms : Nat)
  deriving DecidableEq, Repr

/-- What the host receives from an operation (30_encoding.md R85, 60_exceptions.md R184; log 11). -/
inductive Result where
  /-- Normal completion of an operation without a result. -/
  | done
  /-- The result of `getPixel` (40_framebuffer.md R101). -/
  | pixel (r : Option Bit)
  /-- `fault(code, info)` instead of normal completion (60_exceptions.md R184). -/
  | fault (f : Fault)
  deriving DecidableEq, Repr

/-- A primitive effect of a transfer operation (00_scope.md R16) that needs no answer of the panel. -/
inductive Act where
  /-- `emit(e)`. -/
  | emit (e : Event)
  /-- `emit(Write(FB[0..4735]))`: the framebuffer as it stands at that moment (43_controller.md R163). -/
  | sendImage
  /-- `pstate <- p` (10_state.md R30, T2 and T3). -/
  | setPState (p : PState)
  /-- The first step of T4 and T5: `pstate <- p` from an initialised state only. -/
  | enter (p : PState)
  /-- The last step of T4 and T5: back to Initialized where `pstate` is `p`. -/
  | leave (p : PState)
  /-- `call fill(c)` (40_framebuffer.md R102). -/
  | fill (c : Int)
  /-- The end of the operation: the host receives `r`. -/
  | reply (r : Result)
  deriving DecidableEq, Repr

/-- One statement of a transfer operation. -/
inductive Stmt where
  /-- The busy wait of 42_transfer.md R142, with `n` busy polls behind it. -/
  | wait (n : Nat)
  | act (a : Act)
  deriving DecidableEq, Repr

/-- The state. The first five fields are the spec's (10_state.md R20); the others are the model's own (log 2, log 3,
log 4, log 11, log 21). -/
structure State where
  /-- The configuration fixed at construction (10_state.md R20, R23, R24, R28, R29). -/
  cfg : Cfg
  /-- The framebuffer `FB` (10_state.md R26): the bytes that differ from `FB_RESET_FILL`, addresses strictly rising. -/
  fb : List Host.Cell
  /-- The protocol-state register (10_state.md R30). -/
  pstate : PState
  /-- The fault register with the recorded information (10_state.md R32, 60_exceptions.md R180). -/
  fault : Option Fault
  /-- The transport event trace, oldest first (10_state.md R33). -/
  trace : List Event
  /-- The host's issues still to come, next first (10_state.md R22; log 2). -/
  program : List Issue
  /-- The statements still to run of the operation in progress (10_state.md R22; log 3). -/
  pending : List Stmt
  /-- The panel agent's next answers to `poll()`, next first (00_scope.md R16; log 4). -/
  panel : List Bool
  /-- How many polls the core has taken: the counter the free value is applied to (log 4). -/
  polls : Nat
  /-- What the host has received, oldest first (log 11). -/
  results : List Result
  /-- `LUT(mode)`, copied at construction and written by nothing, for the command row WRITE_LUT: a constant that `cfg`
  determines, so that no waveform table is read outside `init` (10_state.md R20, R28; log 21). -/
  selectedLut : Vector Byte 30
  deriving DecidableEq, Repr

/-- `construct(transport, orient, mode)` for a configuration: the table of 10_state.md R37. No event is emitted. -/
def State.construct (cfg : Cfg) : State :=
  { cfg := cfg
    fb := []
    pstate := .uninitialized
    fault := none
    trace := []
    program := []
    pending := []
    panel := []
    polls := 0
    results := []
    selectedLut := lutTable cfg }

/-- The machine right after reset, which is construction (70_reset_and_hazards.md R200). The construction arguments
Landscape and Full are the model's choice (log 6), the open parameters are uninterpreted (log 7, log 8). -/
def State.reset : State := State.construct (Config.standard .landscape .full)

end Sys2Proof.Machine
end

