-- ==== Sys2Proof/Machine/Flags.lean ====
section
/-! DEFINITION. The status of the core. It has no flags or condition codes (10_state.md R35); its status registers are
the protocol state, whose transitions are here (10_state.md R30), and the fault register, whose codes are here
(60_exceptions.md R180). -/

namespace Sys2Proof.Machine

/-- The states T4 and T5 start from (10_state.md R30). -/
def PState.isInitialised : PState → Bool
  | .uninitialized => false
  | .resetting     => false
  | .initialized   => true
  | .writingImage  => true
  | .updating      => true

/-- The first step of T4 (`p` WritingImage) and T5 (`p` Updating): "In Uninitialized or Resetting, T4 and T5 leave it
unchanged" (10_state.md R30). -/
def PState.enter (p now : PState) : PState := if now.isInitialised then p else now

/-- The last step of T4 and T5: "if pstate = p then pstate <- Initialized" (10_state.md R30). -/
def PState.leave (p now : PState) : PState := if now = p then .initialized else now

/-- The numeric code of a fault (60_exceptions.md R180). -/
def Fault.code : Fault → Nat
  | .glyphNotFound _      => 1
  | .deviceUnresponsive _ => 2

end Sys2Proof.Machine
end

