-- ==== Sys2Proof/Machine/Ops.lean ====
section
/-! DEFINITION. The named operations over the framebuffer, the trace, the busy line and the fault register, the run of
an operation's statements, and raising a fault (00_scope.md R16, 20_memory.md, 60_exceptions.md R184). -/

namespace Sys2Proof.Machine

/-! ### The framebuffer as a list of cells (log 5) -/

/-- The byte at an address: the listed one, or the background `bg` that an unlisted address reads as. -/
def Memory.read (bg : Byte) (m : List Host.Cell) (a : Nat) : Byte := (m.lookup a).getD bg

/-- A cell put in its place by address. -/
def Memory.insert (a : Nat) (v : Byte) : List Host.Cell → List Host.Cell
  | [] => [(a, v)]
  | c :: cs => if a < c.1 then (a, v) :: c :: cs else c :: Memory.insert a v cs

/-- The byte at an address replaced; writing the background unlists the address. -/
def Memory.write (bg : Byte) (m : List Host.Cell) (a : Nat) (v : Byte) : List Host.Cell :=
  let others := m.filter fun c => c.1 != a
  if v = bg then others else Memory.insert a v others

/-- All `bufLen` bytes replaced by one value (40_framebuffer.md R102). -/
def Memory.fill (bg v : Byte) : List Host.Cell :=
  if v = bg then [] else (List.range bufLen).map fun a => (a, v)

/-- Addresses strictly rising. -/
def Memory.rising : List Host.Cell → Bool
  | [] => true
  | [_] => true
  | a :: b :: rest => decide (a.1 < b.1) && Memory.rising (b :: rest)

/-- The canonical form: addresses strictly rising and inside the buffer, no cell equal to the background. -/
def Memory.wf (bg : Byte) (m : List Host.Cell) : Bool :=
  Memory.rising m && m.all fun c => decide (c.1 < bufLen) && decide (c.2 ≠ bg)

/-! ### Reading the state -/

/-- `MemRead(a, 1)` (00_scope.md R16). -/
def State.byteAt (s : State) (a : Nat) : Byte := Memory.read s.cfg.fbResetFill s.fb a

/-- The whole framebuffer in ascending index order (20_memory.md R46). -/
def State.image (s : State) : List Byte := (List.range bufLen).map s.byteAt

/-- The bit of a pixel, or the sentinel `none` out of range (40_framebuffer.md R101). -/
def State.pixelAt (s : State) (x y : Int) : Option Bit :=
  if InRange s.cfg.orient x y then
    some (bitOf (s.byteAt (pixelIndex s.cfg.orient x.toNat y.toNat)) (pixelBit s.cfg.orient x.toNat y.toNat))
  else none

/-- The answer the panel agent gives to the `j`-th poll from now: the listed one, or a free draw (92_eei_decisions.md
D36; log 4). -/
def State.answer (s : State) (j : Nat) : Bool :=
  match s.panel[j]? with
  | some b => b
  | none   => Config.busyDraw (s.polls + j)

/-- Whether `n` busy polls in a row reach `BUSY_MAX_POLLS` (42_transfer.md R142). -/
def State.pollLimitReached (s : State) (n : Nat) : Bool :=
  match s.cfg.busyMaxPolls with
  | none       => false
  | some bound => decide (bound.polls ≤ n)

/-! ### Writing the state -/

/-- `MemWrite(a, 1, v)` (00_scope.md R16). -/
def State.writeByte (s : State) (a : Nat) (v : Byte) : State :=
  { s with fb := Memory.write s.cfg.fbResetFill s.fb a v }

/-- `setPixel(x, y, c)`: the read-modify-write of one byte, nothing out of range (20_memory.md R43). -/
def State.setPixel (s : State) (x y c : Int) : State :=
  if InRange s.cfg.orient x y then
    let a := pixelIndex s.cfg.orient x.toNat y.toNat
    let k := pixelBit s.cfg.orient x.toNat y.toNat
    s.writeByte a (setBit (s.byteAt a) k (colourBit c))
  else s

/-- `setPixel` at each of a list of pixels, in order. -/
def State.plot (s : State) (ps : List (Int × Int)) (c : Int) : State :=
  ps.foldl (fun s p => s.setPixel p.1 p.2 c) s

/-- `fill(c)`: `MemWrite(i, 1, v)` for every `i` in `range(0, BUF_LEN)` (40_framebuffer.md R102). -/
def State.fillFB (s : State) (c : Int) : State :=
  { s with fb := Memory.fill s.cfg.fbResetFill (fillByte c) }

/-- `emit(e)` (00_scope.md R16). -/
def State.emit (s : State) (e : Event) : State := { s with trace := s.trace ++ [e] }

/-- `poll()`: the event and the draw consumed (00_scope.md R16). -/
def State.poll (s : State) : State :=
  { s with trace := s.trace ++ [.poll (s.answer 0)], panel := s.panel.drop 1, polls := s.polls + 1 }

/-- What the host receives (60_exceptions.md R184). -/
def State.reply (s : State) (r : Result) : State := { s with results := s.results ++ [r] }

/-- `pstate <- p` (00_scope.md R16). -/
def State.setPState (s : State) (p : PState) : State := { s with pstate := p }

/-- The statements an operation has still to run when it is suspended in its busy wait (log 3). -/
def State.suspend (s : State) (rest : List Stmt) : State := { s with pending := rest }

/-- `raise Fault(code, info)`: the one entry into a fault (60_exceptions.md R184). The operation stops at that
statement, every effect already made stays, `fault <- code`, and the host receives the fault. No state is saved and
there is no handler; no operation returns from a fault (R185). -/
def State.raise (s : State) (f : Fault) : State :=
  { s with fault := some f, pending := [], results := s.results ++ [.fault f] }

/-! ### Running an operation's statements -/

/-- The effect of a statement that needs no answer of the panel. -/
def Act.run (a : Act) (s : State) : State :=
  match a with
  | .emit e      => s.emit e
  | .sendImage   => s.emit (.write s.image)
  | .setPState p => s.setPState p
  | .enter p     => s.setPState (p.enter s.pstate)
  | .leave p     => s.setPState (p.leave s.pstate)
  | .fill c      => s.fillFB c
  | .reply r     => s.reply r

/-- Statements in the order written (00_scope.md R17), up to the end, a fault, or a busy answer of the panel: the busy
wait is "the only suspension point in the system" (20_memory.md R55). One busy poll is followed by its `Sleep`, and
the operation goes on in the machine's next step with the next poll (42_transfer.md R142; log 3). -/
def runStmts : List Stmt → State → State
  | [], s => s
  | .act a :: rest, s => runStmts rest (a.run s)
  | .wait n :: rest, s =>
    if s.answer 0 then
      if s.pollLimitReached (n + 1) then s.poll.raise (.deviceUnresponsive (n + 1))
      else (s.poll.emit (.sleep pollMs)).suspend (.wait (n + 1) :: rest)
    else runStmts rest s.poll

/-- The guard of every operation: a core that holds a fault accepts none (60_exceptions.md R185), and none is invoked
while another is in progress (20_memory.md R56; log 14). -/
def State.accept (s : State) (op : State → State) : Host.Outcome State Fault Refusal :=
  match s.fault with
  | some f => .fault f
  | none =>
    match s.pending with
    | []     => .next (op s)
    | _ :: _ => .refused .operationInProgress

/-- An operation given by its statements; at its end the host receives its completion. -/
def State.perform (s : State) (stmts : List Stmt) : Host.Outcome State Fault Refusal :=
  s.accept (runStmts (stmts ++ [.act (.reply .done)]))

/-- An operation that writes pixels of one colour and completes. -/
def State.draw (s : State) (ps : List (Int × Int)) (c : Int) : Host.Outcome State Fault Refusal :=
  s.accept fun s => (s.plot ps c).reply .done

/-! ### Statements of the transfer operations -/

/-- A statement that emits an event. -/
def emitStmt (e : Event) : Stmt := .act (.emit e)

/-- `waitUntilIdle()` (42_transfer.md R142). -/
def waitStmts : List Stmt := [.wait 0]

/-- `reset()` (42_transfer.md R140); it does not poll (R141). -/
def resetStmts : List Stmt :=
  [ .act (.setPState .resetting),
    emitStmt .rstLow,
    emitStmt (.sleep resetLowMs),
    emitStmt .rstHigh,
    emitStmt (.sleep resetHighMs) ]

/-- `writeCommand(bs)` (42_transfer.md R143). -/
def commandStmts (bs : List Byte) : List Stmt :=
  waitStmts ++ [emitStmt .csLow, emitStmt .dcCmd, emitStmt (.write bs), emitStmt .csHigh]

/-- `writeData(bs)` (42_transfer.md R144). -/
def dataStmts (bs : List Byte) : List Stmt :=
  waitStmts ++ [emitStmt .csLow, emitStmt .dcData, emitStmt (.write bs), emitStmt .csHigh]

/-- `writeData` of the whole framebuffer (43_controller.md R163). -/
def imageStmts : List Stmt :=
  waitStmts ++ [emitStmt .csLow, emitStmt .dcData, .act .sendImage, emitStmt .csHigh]

/-- `pair(code, payload)`: the command frame, and the payload in one data frame unless it is empty
(43_controller.md R159, 30_encoding.md R62). -/
def pairStmts (code : Byte) (payload : List Byte) : List Stmt :=
  commandStmts [code] ++ (if payload = [] then [] else dataStmts payload)

end Sys2Proof.Machine
end

