-- ==== Sys2Proof/Machine/Wire.lean ====
section
/-! DEFINITION. The wire level: the meanings of the 15 command rows (30_encoding.md R70 to R84; log 1), and what a
trace says: the panel commands it carries (R63), the levels of the lines (10_state.md R36) and the least time it takes
(70_reset_and_hazards.md R214). -/

namespace Sys2Proof.Machine

/-! ### The statements of each command: its code and its payload (30_encoding.md R65) -/

/-- 0x01 with `P_DRV` (R70). -/
def driverOutputControlStmts (cfg : Cfg) : List Stmt := pairStmts 0x01 cfg.init.drv

/-- 0x0C with `P_BOOST` (R71). -/
def boosterSoftStartStmts (cfg : Cfg) : List Stmt := pairStmts 0x0C cfg.init.boost

/-- 0x2C with `P_VCOM` (R72). -/
def writeVcomStmts (cfg : Cfg) : List Stmt := pairStmts 0x2C cfg.init.vcom

/-- 0x3A with `P_DUMMY` (R73). -/
def dummyLinePeriodStmts (cfg : Cfg) : List Stmt := pairStmts 0x3A cfg.init.dummy

/-- 0x3B with `P_GATE` (R74). -/
def gateTimeStmts (cfg : Cfg) : List Stmt := pairStmts 0x3B cfg.init.gate

/-- 0x11 with `[DEM(orient)]` (R75). -/
def dataEntryModeStmts (cfg : Cfg) : List Stmt := pairStmts 0x11 [dem cfg.orient]

/-- 0x32 with `LUT(mode)` (R76). -/
def writeLutStmts (table : Vector Byte 30) : List Stmt := pairStmts 0x32 table.toList

/-- 0x44 with `RAMX(orient)` (R77). -/
def ramXStartEndStmts (cfg : Cfg) : List Stmt := pairStmts 0x44 (window cfg).ramX

/-- 0x45 with `RAMY(orient)` (R78). -/
def ramYStartEndStmts (cfg : Cfg) : List Stmt := pairStmts 0x45 (window cfg).ramY

/-- 0x4E with `CTRX(orient)` (R79). -/
def ramXCounterStmts (cfg : Cfg) : List Stmt := pairStmts 0x4E (window cfg).ctrX

/-- 0x4F with `CTRY(orient)` (R80). -/
def ramYCounterStmts (cfg : Cfg) : List Stmt := pairStmts 0x4F (window cfg).ctrY

/-- 0x24 with the 4736 framebuffer bytes in index order (R81). -/
def writeRamStmts : List Stmt := commandStmts [0x24] ++ imageStmts

/-- 0x22 with `[0xC4]` (R82). -/
def displayUpdateControlStmts : List Stmt := pairStmts 0x22 [updCtrl]

/-- 0x20, no data frame (R83). -/
def activateUpdateStmts : List Stmt := commandStmts [0x20]

/-- 0xFF, no data frame (R84). -/
def terminateFrameStmts : List Stmt := commandStmts [0xFF]

/-! ### The meanings of the command rows (log 1) -/

/-- DRIVER_OUTPUT_CONTROL (R70). -/
def execDriverOutputControl (s : State) : Host.Outcome State Fault Refusal :=
  s.perform (driverOutputControlStmts s.cfg)

/-- BOOSTER_SOFT_START (R71). -/
def execBoosterSoftStart (s : State) : Host.Outcome State Fault Refusal := s.perform (boosterSoftStartStmts s.cfg)

/-- DATA_ENTRY_MODE (R75). -/
def execDataEntryMode (s : State) : Host.Outcome State Fault Refusal := s.perform (dataEntryModeStmts s.cfg)

/-- ACTIVATE_UPDATE (R83). -/
def execActivateUpdate (s : State) : Host.Outcome State Fault Refusal := s.perform activateUpdateStmts

/-- DISPLAY_UPDATE_CONTROL (R82). -/
def execDisplayUpdateControl (s : State) : Host.Outcome State Fault Refusal := s.perform displayUpdateControlStmts

/-- WRITE_RAM (R81). -/
def execWriteRam (s : State) : Host.Outcome State Fault Refusal := s.perform writeRamStmts

/-- WRITE_VCOM (R72). -/
def execWriteVcom (s : State) : Host.Outcome State Fault Refusal := s.perform (writeVcomStmts s.cfg)

/-- WRITE_LUT (R76): `LUT(mode)`, exactly 30 bytes (R64, R65), from the copy made at construction, since `init` alone
reads the tables (10_state.md R28). DESIGN CHOICE: issued alone it does so at any time, also before the first `init`, and
after a host `reset` (70_reset_and_hazards.md R201, R213) before the next (log 21). -/
def execWriteLut (s : State) : Host.Outcome State Fault Refusal := s.perform (writeLutStmts s.selectedLut)

/-- DUMMY_LINE_PERIOD (R73). -/
def execDummyLinePeriod (s : State) : Host.Outcome State Fault Refusal := s.perform (dummyLinePeriodStmts s.cfg)

/-- GATE_TIME (R74). -/
def execGateTime (s : State) : Host.Outcome State Fault Refusal := s.perform (gateTimeStmts s.cfg)

/-- RAM_X_START_END (R77). -/
def execRamXStartEnd (s : State) : Host.Outcome State Fault Refusal := s.perform (ramXStartEndStmts s.cfg)

/-- RAM_Y_START_END (R78). -/
def execRamYStartEnd (s : State) : Host.Outcome State Fault Refusal := s.perform (ramYStartEndStmts s.cfg)

/-- RAM_X_COUNTER (R79). -/
def execRamXCounter (s : State) : Host.Outcome State Fault Refusal := s.perform (ramXCounterStmts s.cfg)

/-- RAM_Y_COUNTER (R80). -/
def execRamYCounter (s : State) : Host.Outcome State Fault Refusal := s.perform (ramYCounterStmts s.cfg)

/-- TERMINATE_FRAME (R84). -/
def execTerminateFrame (s : State) : Host.Outcome State Fault Refusal := s.perform terminateFrameStmts

/-! ### Reading a trace back into panel commands (30_encoding.md R63; log 17) -/

/-- The frames of a trace: the data/command level at each `Write`, `true` for data, and its bytes. `dc` is the level
so far; a `Write` before any level was set belongs to no frame. -/
def framesFrom : Option Bool → List Event → List (Bool × List Byte)
  | _, [] => []
  | _, .dcCmd :: es => framesFrom (some false) es
  | _, .dcData :: es => framesFrom (some true) es
  | some dc, .write bs :: es => (dc, bs) :: framesFrom (some dc) es
  | none, .write _ :: es => framesFrom none es
  | dc, .rstLow :: es => framesFrom dc es
  | dc, .rstHigh :: es => framesFrom dc es
  | dc, .csLow :: es => framesFrom dc es
  | dc, .csHigh :: es => framesFrom dc es
  | dc, .poll _ :: es => framesFrom dc es
  | dc, .sleep _ :: es => framesFrom dc es

/-- The frames of a trace, in order. -/
def framesOf (es : List Event) : List (Bool × List Byte) := framesFrom none es

/-- The data at the head of a list of frames, and the frames from the next command frame on. -/
def takePayload : List (Bool × List Byte) → List Byte × List (Bool × List Byte)
  | [] => ([], [])
  | (true, bs) :: fs =>
    let rest := takePayload fs
    (bs ++ rest.1, rest.2)
  | (false, bs) :: fs => ([], (false, bs) :: fs)

/-- Each command frame's bytes with "the concatenation of the data frames that follow it, up to the next command
frame" (R63). Data before the first command frame belongs to none. -/
def commandsOf : List (Bool × List Byte) → List (List Byte × List Byte)
  | [] => []
  | (false, code) :: fs => (code, (takePayload fs).1) :: commandsOf fs
  | (true, _) :: fs => commandsOf fs

/-- A trace read back into panel commands (R63). -/
def readBack (es : List Event) : List (List Byte × List Byte) := commandsOf (framesOf es)

/-! ### Line levels and time (10_state.md R36, 70_reset_and_hazards.md R214; log 18, log 19) -/

/-- The reset line after a trace, `true` for high; `none` before its first event. -/
def resetLevel (es : List Event) : Option Bool :=
  es.foldl (fun l e => match e with
    | .rstLow  => some false
    | .rstHigh => some true
    | .csLow | .csHigh | .dcCmd | .dcData | .write _ | .poll _ | .sleep _ => l) none

/-- The chip-select line after a trace, `true` for high; `none` before its first event. -/
def chipSelectLevel (es : List Event) : Option Bool :=
  es.foldl (fun l e => match e with
    | .csLow  => some false
    | .csHigh => some true
    | .rstLow | .rstHigh | .dcCmd | .dcData | .write _ | .poll _ | .sleep _ => l) none

/-- The data/command line after a trace, `true` for high (data); `none` before its first event. -/
def dataCommandLevel (es : List Event) : Option Bool :=
  es.foldl (fun l e => match e with
    | .dcCmd  => some false
    | .dcData => some true
    | .rstLow | .rstHigh | .csLow | .csHigh | .write _ | .poll _ | .sleep _ => l) none

/-- The least number of milliseconds a trace takes: the sum of its `Sleep` events. -/
def leastMs : List Event → Nat
  | [] => 0
  | .sleep ms :: es => ms + leastMs es
  | .rstLow :: es | .rstHigh :: es | .csLow :: es | .csHigh :: es | .dcCmd :: es | .dcData :: es => leastMs es
  | .write _ :: es => leastMs es
  | .poll _ :: es => leastMs es

end Sys2Proof.Machine
end

