-- ==== Sys2Proof/Machine/Controller.lean ====
section
/-! DEFINITION. The meanings of the controller sequences (43_controller.md). -/

namespace Sys2Proof.Machine

/-- `setMemoryArea()` (R161). -/
def setMemoryAreaStmts (cfg : Cfg) : List Stmt := ramXStartEndStmts cfg ++ ramYStartEndStmts cfg

/-- `setMemoryPointer()` (R162). -/
def setMemoryPointerStmts (cfg : Cfg) : List Stmt := ramXCounterStmts cfg ++ ramYCounterStmts cfg

/-- `init()`: the reset, the seven pairs, the window and pointer, then Initialized (R160). -/
def initStmts (cfg : Cfg) : List Stmt :=
  resetStmts ++ driverOutputControlStmts cfg ++ boosterSoftStartStmts cfg ++ writeVcomStmts cfg ++
    dummyLinePeriodStmts cfg ++ gateTimeStmts cfg ++ dataEntryModeStmts cfg ++ writeLutStmts (lutTable cfg) ++
    setMemoryAreaStmts cfg ++ setMemoryPointerStmts cfg ++ [.act (.setPState .initialized)]

/-- `writeImage()`: T4 around the window, the pointer, 0x24 and the whole framebuffer (R163). -/
def writeImageStmts (cfg : Cfg) : List Stmt :=
  [.act (.enter .writingImage)] ++ setMemoryAreaStmts cfg ++ setMemoryPointerStmts cfg ++ writeRamStmts ++
    [.act (.leave .writingImage)]

/-- `update()`: T5 around the update control pair and the two activate commands; no wait after them (R164, R165). -/
def updateStmts : List Stmt :=
  [.act (.enter .updating)] ++ displayUpdateControlStmts ++ activateUpdateStmts ++ terminateFrameStmts ++
    [.act (.leave .updating)]

/-- `fullRefresh()`: black, push, refresh, settle, white, push, refresh, in both refresh modes (R166, R168). -/
def fullRefreshStmts (cfg : Cfg) : List Stmt :=
  [.act (.fill 0)] ++ writeImageStmts cfg ++ updateStmts ++ [emitStmt (.sleep settleMs)] ++
    [.act (.fill 1)] ++ writeImageStmts cfg ++ updateStmts

/-- `init` (R160). -/
def execInit (s : State) : Host.Outcome State Fault Refusal := s.perform (initStmts s.cfg)

/-- `setMemoryArea` (R161). -/
def execSetMemoryArea (s : State) : Host.Outcome State Fault Refusal := s.perform (setMemoryAreaStmts s.cfg)

/-- `setMemoryPointer` (R162). -/
def execSetMemoryPointer (s : State) : Host.Outcome State Fault Refusal := s.perform (setMemoryPointerStmts s.cfg)

/-- `writeImage` (R163). -/
def execWriteImage (s : State) : Host.Outcome State Fault Refusal := s.perform (writeImageStmts s.cfg)

/-- `update` (R164). -/
def execUpdate (s : State) : Host.Outcome State Fault Refusal := s.perform updateStmts

/-- `fullRefresh` (R166). -/
def execFullRefresh (s : State) : Host.Outcome State Fault Refusal := s.perform (fullRefreshStmts s.cfg)

end Sys2Proof.Machine
end

