-- ==== Sys2Proof/Machine/FrameBuffer.lean ====
section
/-! DEFINITION. The meanings of the FrameBuffer operations (40_framebuffer.md). -/

namespace Sys2Proof.Machine

/-- `setPixel x, y, c` (R100). -/
def execSetPixel (x y c : Int) (s : State) : Host.Outcome State Fault Refusal :=
  s.accept fun s => (s.setPixel x y c).reply .done

/-- `getPixel x, y`: the result goes to the host (R101). -/
def execGetPixel (x y : Int) (s : State) : Host.Outcome State Fault Refusal :=
  s.accept fun s => s.reply (.pixel (s.pixelAt x y))

/-- `fill c` (R102). -/
def execFill (c : Int) (s : State) : Host.Outcome State Fault Refusal :=
  s.accept fun s => (s.fillFB c).reply .done

end Sys2Proof.Machine
end

