-- ==== Sys2Proof/Machine/Raster.lean ====
section
/-! DEFINITION. The meanings of the rasterizer operations (41_raster.md). The rasterizer is stateless and writes only
through `setPixel`: an operation is the list of the pixels it sets, in the order it sets them. -/

namespace Sys2Proof.Machine

/-! ### Lines -/

/-- The pixels of `hline x, y, length` (R110). -/
def hlinePoints (x y length : Int) : List (Int × Int) := (rangeFrom x length).map fun x' => (x', y)

/-- The pixels of `vline x, y, length` (R111). -/
def vlinePoints (x y length : Int) : List (Int × Int) := (rangeFrom y length).map fun y' => (x, y')

/-- The pixels of `lineWalk`: one per column from `x0` to `x1` (R113, R115). -/
def lineWalkPoints (arith : LineArith) (x0 y0 x1 y1 : Int) : List (Int × Int) :=
  (interval x0 x1).map fun x => (x, lineY arith x0 y0 x1 y1 x)

/-- The pixels of `line x0, y0, x1, y1`: the axis-aligned forms first, with signed lengths (R112). -/
def linePoints (arith : LineArith) (x0 y0 x1 y1 : Int) : List (Int × Int) :=
  if x0 = x1 then vlinePoints x0 y0 (y1 - y0)
  else if y0 = y1 then hlinePoints x0 y0 (x1 - x0)
  else lineWalkPoints arith x0 y0 x1 y1

/-! ### Rectangles -/

/-- The pixels of `rectFill` (R121). -/
def rectFillPoints (x0 y0 x1 y1 : Int) : List (Int × Int) :=
  (interval x0 x1).flatMap fun x => (interval y0 y1).map fun y => (x, y)

/-- The pixels of `rectOutline`: top, bottom, left, right (R122). -/
def rectOutlinePoints (x0 y0 x1 y1 : Int) : List (Int × Int) :=
  hlinePoints x0 y0 (x1 - x0) ++ hlinePoints x0 y1 (x1 - x0) ++
    vlinePoints x0 y0 (y1 - y0) ++ vlinePoints x1 y0 (y1 - y0)

/-- The pixels of `rect` (R120). -/
def rectPoints (x0 y0 x1 y1 : Int) (fill : Bool) : List (Int × Int) :=
  if fill then rectFillPoints x0 y0 x1 y1 else rectOutlinePoints x0 y0 x1 y1

/-! ### Circles -/

/-- The pixels of `ring`: the sweep over `x`, then the sweep over `y` (R126). -/
def ringPoints (arith : RootArith) (cx cy r : Int) : List (Int × Int) :=
  ((interval (cx - r) (cx + r)).flatMap fun x =>
    let n := (r * r - (x - cx) * (x - cx)).toNat
    [(x, rootPlus arith cy n), (x, rootMinus arith cy n)]) ++
  ((interval (cy - r) (cy + r)).flatMap fun y =>
    let n := (r * r - (y - cy) * (y - cy)).toNat
    [(rootPlus arith cx n, y), (rootMinus arith cx n, y)])

/-- The pixels of the rings `r, r-1, ..., 1` (R125). -/
def ringsDown (arith : RootArith) (cx cy : Int) : Nat → List (Int × Int)
  | 0 => []
  | r + 1 => ringPoints arith cx cy ((r : Int) + 1) ++ ringsDown arith cx cy r

/-- The pixels of `circle`: its ring, and where it is filled the rings below it down to 1 (R125). -/
def circlePoints (arith : RootArith) (cx cy r : Int) (fill : Bool) : List (Int × Int) :=
  ringPoints arith cx cy r ++ (if fill && decide (1 < r) then ringsDown arith cx cy (r - 1).toNat else [])

/-! ### Text -/

/-- The pixels of column `j` of a glyph at `(x, y)`: the rows whose bit is 1 (R130, R131). -/
def columnPoints (cfg : Cfg) (b : Byte) (x y : Int) : List (Int × Int) :=
  ((List.range 8).filter fun k => glyphBit cfg b k = 1#1).map fun (k : Nat) => (x, y + (k : Int))

/-- The pixels of a glyph at `(x, y)`, column by column (R130). -/
def glyphPoints (cfg : Cfg) (g : Glyph) (x y : Int) : List (Int × Int) :=
  (List.range 8).flatMap fun (j : Nat) => columnPoints cfg (g.toList.getD j 0#8) (x + (j : Int)) y

/-- The pixels of the characters of a string up to the first without a glyph, and that character (R130, R132). Each
character is 8 columns right of the one before. -/
def textRun (cfg : Cfg) (x y : Int) : List Char → List (Int × Int) × Option Char
  | [] => ([], none)
  | c :: cs =>
    match glyphOf cfg c with
    | none   => ([], some c)
    | some g =>
      let rest := textRun cfg (x + 8) y cs
      (glyphPoints cfg g x y ++ rest.1, rest.2)

/-- `text` on a core that accepts it: the pixels drawn stay, and an unknown character raises the fault (R130, R132). -/
def State.drawText (s : State) (str : List Char) (x y c : Int) : State :=
  let run := textRun s.cfg x y str
  match run.2 with
  | none    => (s.plot run.1 c).reply .done
  | some ch => (s.plot run.1 c).raise (.glyphNotFound ch)

/-! ### The meanings -/

/-- `hline x, y, length, c` (R110). -/
def execHline (x y length c : Int) (s : State) : Host.Outcome State Fault Refusal :=
  s.draw (hlinePoints x y length) c

/-- `vline x, y, length, c` (R111). -/
def execVline (x y length c : Int) (s : State) : Host.Outcome State Fault Refusal :=
  s.draw (vlinePoints x y length) c

/-- `line x0, y0, x1, y1, c` (R112). -/
def execLine (x0 y0 x1 y1 c : Int) (s : State) : Host.Outcome State Fault Refusal :=
  s.draw (linePoints s.cfg.lineY x0 y0 x1 y1) c

/-- `rect x0, y0, x1, y1, c, fill=f` (R120). -/
def execRect (x0 y0 x1 y1 c : Int) (fill : Bool) (s : State) : Host.Outcome State Fault Refusal :=
  s.draw (rectPoints x0 y0 x1 y1 fill) c

/-- `circle cx, cy, radius, c, fill=f` (R125). -/
def execCircle (cx cy radius c : Int) (fill : Bool) (s : State) : Host.Outcome State Fault Refusal :=
  s.draw (circlePoints s.cfg.circleRoot cx cy radius fill) c

/-- `text s, xOrigin, yOrigin, c` (R130). -/
def execText (str : List Char) (xOrigin yOrigin c : Int) (s : State) : Host.Outcome State Fault Refusal :=
  s.accept fun s => s.drawText str xOrigin yOrigin c

end Sys2Proof.Machine
end

