-- ==== Sys2Proof/Machine/Transfer.lean ====
section
/-! DEFINITION. The meanings of the transfer operations (42_transfer.md). -/

namespace Sys2Proof.Machine

/-- `reset` (R140, R141). -/
def execReset (s : State) : Host.Outcome State Fault Refusal := s.perform resetStmts

/-- `waitUntilIdle` (R142). -/
def execWaitUntilIdle (s : State) : Host.Outcome State Fault Refusal := s.perform waitStmts

/-- `writeCommand bs` (R143). -/
def execWriteCommand (bs : List Byte) (s : State) : Host.Outcome State Fault Refusal := s.perform (commandStmts bs)

/-- `writeData bs` (R144). -/
def execWriteData (bs : List Byte) (s : State) : Host.Outcome State Fault Refusal := s.perform (dataStmts bs)

end Sys2Proof.Machine
end

