-- ==== Sys2Proof/Machine/Dispatch.lean ====
section
/-! DEFINITION. The dispatch: one arm per instruction, each one call of its meaning. -/

namespace Sys2Proof.Machine

def exec (i : Instr) (s : State) : Host.Outcome State Fault Refusal :=
  match i with
  -- the wire command rows (30_encoding.md R70 to R84)
  | .driverOutputControl => Sys2Proof.Machine.execDriverOutputControl s
  | .boosterSoftStart => Sys2Proof.Machine.execBoosterSoftStart s
  | .dataEntryMode => Sys2Proof.Machine.execDataEntryMode s
  | .activateUpdate => Sys2Proof.Machine.execActivateUpdate s
  | .displayUpdateControl => Sys2Proof.Machine.execDisplayUpdateControl s
  | .writeRam => Sys2Proof.Machine.execWriteRam s
  | .writeVcom => Sys2Proof.Machine.execWriteVcom s
  | .writeLut => Sys2Proof.Machine.execWriteLut s
  | .dummyLinePeriod => Sys2Proof.Machine.execDummyLinePeriod s
  | .gateTime => Sys2Proof.Machine.execGateTime s
  | .ramXStartEnd => Sys2Proof.Machine.execRamXStartEnd s
  | .ramYStartEnd => Sys2Proof.Machine.execRamYStartEnd s
  | .ramXCounter => Sys2Proof.Machine.execRamXCounter s
  | .ramYCounter => Sys2Proof.Machine.execRamYCounter s
  | .terminateFrame => Sys2Proof.Machine.execTerminateFrame s
  -- the FrameBuffer operations (40_framebuffer.md)
  | .setPixel x y c => Sys2Proof.Machine.execSetPixel x y c s
  | .getPixel x y => Sys2Proof.Machine.execGetPixel x y s
  | .fill c => Sys2Proof.Machine.execFill c s
  -- the rasterizer operations (41_raster.md)
  | .hline x y length c => Sys2Proof.Machine.execHline x y length c s
  | .vline x y length c => Sys2Proof.Machine.execVline x y length c s
  | .line x0 y0 x1 y1 c => Sys2Proof.Machine.execLine x0 y0 x1 y1 c s
  | .rect x0 y0 x1 y1 c fill => Sys2Proof.Machine.execRect x0 y0 x1 y1 c fill s
  | .circle cx cy radius c fill => Sys2Proof.Machine.execCircle cx cy radius c fill s
  | .text str xOrigin yOrigin c => Sys2Proof.Machine.execText str xOrigin yOrigin c s
  -- the transfer operations (42_transfer.md)
  | .reset => Sys2Proof.Machine.execReset s
  | .waitUntilIdle => Sys2Proof.Machine.execWaitUntilIdle s
  | .writeCommand bs => Sys2Proof.Machine.execWriteCommand bs s
  | .writeData bs => Sys2Proof.Machine.execWriteData bs s
  -- the controller sequences (43_controller.md)
  | .init => Sys2Proof.Machine.execInit s
  | .setMemoryArea => Sys2Proof.Machine.execSetMemoryArea s
  | .setMemoryPointer => Sys2Proof.Machine.execSetMemoryPointer s
  | .writeImage => Sys2Proof.Machine.execWriteImage s
  | .update => Sys2Proof.Machine.execUpdate s
  | .fullRefresh => Sys2Proof.Machine.execFullRefresh s

end Sys2Proof.Machine
end

