-- ==== Sys2Proof/Machine/Load.lean ====
section
/-! DEFINITION. How a program comes to be run: the host constructs a core and issues its operations
(10_state.md R22, R37; 30_encoding.md R87; log 2). -/

namespace Sys2Proof.Machine

/-- A core constructed by a program's header, with the program's lines as what the host issues. The construction
arguments come from the header, the other parameters from `params`. -/
def State.load (params : Cfg) (text : List Char) : Except DecodeError State :=
  match parseProgram text with
  | .ok (om, lines) =>
    .ok { State.construct { params with orient := om.1, mode := om.2 } with program := lines }
  | .error e => .error e

/-- The next issue taken from the host, if there is one. -/
def State.nextIssue (s : State) : Option (Issue × State) :=
  match s.program with
  | []      => none
  | i :: is => some (i, { s with program := is })

end Sys2Proof.Machine
end

