-- ==== Sys2Proof/Machine/Step.lean ====
section
/-! DEFINITION. One step of the machine (log 2, log 3, log 12). -/

namespace Sys2Proof.Machine

/-- One step. A core that holds a fault accepts no further operation (60_exceptions.md R185). An operation in progress
goes on where it was suspended (42_transfer.md R142). Otherwise the host's next issue is decoded and executed; with
none, the core waits for the host (70_reset_and_hazards.md R202). -/
def step (s : State) : Host.Outcome State Fault Refusal :=
  match s.fault with
  | some f => .fault f
  | none =>
    match s.pending with
    | st :: rest => .next (runStmts (st :: rest) (s.suspend []))
    | [] =>
      match s.nextIssue with
      | none => .next s
      | some (issue, s') =>
        match decode issue with
        | .ok i    => exec i s'
        | .error e => .refused (.illFormed e)

/-- `s` with a table word as the host's next issue, a command frame, and nothing that would come before it: no
operation in progress and no fault (log 2). -/
def State.withFetchWord (s : State) (nbits w : Nat) : State :=
  { s with program := .frame (wordBytes nbits w) :: s.program, pending := [], fault := none }

end Sys2Proof.Machine
end

