-- ==== Sys2Proof/Safety.lean ====
section
/-! DEFINITION. What counts as a safe run, in the terms the claims use: when an operation is accepted, what a panel that
answers idle makes of its frames, what drawing exactly some pixels is, and the invariant that every step keeps. -/

namespace Sys2Proof.Machine

/-! ### Premises -/

/-- The core accepts an operation: it holds no fault (60_exceptions.md R185) and none is in progress (20_memory.md
R56). -/
def State.Ready (s : State) : Prop := s.fault = none ∧ s.pending = []

/-- The panel answers the next `k` polls with idle: the premise `PanelEventuallyIdle` of 70_reset_and_hazards.md R208
with no busy answer in between. -/
def State.AllIdle (s : State) (k : Nat) : Prop := ∀ j, j < k → s.answer j = false

/-- How many of the panel's next `m` answers are idle. -/
def State.idleAmong (s : State) (m : Nat) : Nat := ((List.range m).filter fun j => !s.answer j).length

/-- How many busy waits a list of statements holds. -/
def waits : List Stmt → Nat
  | [] => 0
  | .wait _ :: rest => waits rest + 1
  | .act _ :: rest => waits rest

/-- `n` busy polls in a row are fewer than `BUSY_MAX_POLLS`, where it is set (60_exceptions.md R182). -/
def State.BelowBound (s : State) (n : Nat) : Prop := ∀ bound, s.cfg.busyMaxPolls = some bound → n < bound.polls

/-- The next `w` busy waits, the first of them with its first poll the `j`-th from now, each meet a `Poll(false)` after
finitely many polls, and after fewer busy ones than `BUSY_MAX_POLLS` where it is set. -/
def State.MeetsIdle (s : State) : Nat → Nat → Prop
  | 0, _ => True
  | w + 1, j => ∃ n, s.BelowBound n ∧ (∀ k, k < n → s.answer (j + k) = true) ∧ s.answer (j + n) = false ∧
      s.MeetsIdle w (j + n + 1)

/-- `t` is where `k` steps lead from `s`, none of them a fault or a refusal. -/
def stepsTo : Nat → State → State → Prop
  | 0, s, t => t = s
  | k + 1, s, t => ∃ u, step s = .next u ∧ stepsTo k u t

/-! ### Kinds of instructions -/

/-- The operations that write the framebuffer (10_state.md R26). -/
def draws : Instr → Bool
  | .setPixel _ _ _ | .fill _ | .hline _ _ _ _ | .vline _ _ _ _ | .line _ _ _ _ _ => true
  | .rect _ _ _ _ _ _ | .circle _ _ _ _ _ | .text _ _ _ _ | .fullRefresh => true
  | .driverOutputControl | .boosterSoftStart | .dataEntryMode | .activateUpdate | .displayUpdateControl => false
  | .writeRam | .writeVcom | .writeLut | .dummyLinePeriod | .gateTime => false
  | .ramXStartEnd | .ramYStartEnd | .ramXCounter | .ramYCounter | .terminateFrame => false
  | .getPixel _ _ | .reset | .waitUntilIdle | .writeCommand _ | .writeData _ => false
  | .init | .setMemoryArea | .setMemoryPointer | .writeImage | .update => false

/-- The operations that wait for the panel: the ones 60_exceptions.md R182 lists, `waitUntilIdle` itself, and the
command rows (log 1). -/
def transfers : Instr → Bool
  | .setPixel _ _ _ | .getPixel _ _ | .fill _ | .hline _ _ _ _ | .vline _ _ _ _ | .line _ _ _ _ _ => false
  | .rect _ _ _ _ _ _ | .circle _ _ _ _ _ | .text _ _ _ _ | .reset => false
  | .driverOutputControl | .boosterSoftStart | .dataEntryMode | .activateUpdate | .displayUpdateControl => true
  | .writeRam | .writeVcom | .writeLut | .dummyLinePeriod | .gateTime => true
  | .ramXStartEnd | .ramYStartEnd | .ramXCounter | .ramYCounter | .terminateFrame => true
  | .waitUntilIdle | .writeCommand _ | .writeData _ => true
  | .init | .setMemoryArea | .setMemoryPointer | .writeImage | .update | .fullRefresh => true

/-- The operations that write the protocol state (10_state.md R30, T2 to T5). -/
def movesProtocol : Instr → Bool
  | .reset | .init | .writeImage | .update | .fullRefresh => true
  | .setPixel _ _ _ | .getPixel _ _ | .fill _ | .hline _ _ _ _ | .vline _ _ _ _ | .line _ _ _ _ _ => false
  | .rect _ _ _ _ _ _ | .circle _ _ _ _ _ | .text _ _ _ _ => false
  | .driverOutputControl | .boosterSoftStart | .dataEntryMode | .activateUpdate | .displayUpdateControl => false
  | .writeRam | .writeVcom | .writeLut | .dummyLinePeriod | .gateTime => false
  | .ramXStartEnd | .ramYStartEnd | .ramXCounter | .ramYCounter | .terminateFrame => false
  | .waitUntilIdle | .writeCommand _ | .writeData _ | .setMemoryArea | .setMemoryPointer => false

/-! ### Frames on an idle panel -/

/-- `frame(kind, bs)`: `true` is a data frame (30_encoding.md R61). -/
def frameEvents (data : Bool) (bs : List Byte) : List Event :=
  [.csLow, if data then .dcData else .dcCmd, .write bs, .csHigh]

/-- Frames, each after the one idle poll of its busy wait. -/
def idleFrames (fs : List (Bool × List Byte)) : List Event :=
  fs.flatMap fun f => .poll false :: frameEvents f.1 f.2

/-- The frames of `pair(code, payload)`: no data frame for an empty payload (30_encoding.md R62). -/
def pairFrames (code : Byte) (payload : List Byte) : List (Bool × List Byte) :=
  (false, [code]) :: (if payload = [] then [] else [(true, payload)])

/-- The state after frames are sent to an idle panel: one poll and one frame each. -/
def State.afterFrames (s : State) (fs : List (Bool × List Byte)) : State :=
  { s with
    trace := s.trace ++ idleFrames fs
    panel := s.panel.drop fs.length
    polls := s.polls + fs.length }

/-- The frames of `setMemoryArea` (43_controller.md R161). -/
def areaFrames (cfg : Cfg) : List (Bool × List Byte) :=
  pairFrames 0x44 (window cfg).ramX ++ pairFrames 0x45 (window cfg).ramY

/-- The frames of `setMemoryPointer` (43_controller.md R162). -/
def pointerFrames (cfg : Cfg) : List (Bool × List Byte) :=
  pairFrames 0x4E (window cfg).ctrX ++ pairFrames 0x4F (window cfg).ctrY

/-- The frames of `init` after its reset (43_controller.md R160). -/
def initFrames (cfg : Cfg) : List (Bool × List Byte) :=
  pairFrames 0x01 cfg.init.drv ++ pairFrames 0x0C cfg.init.boost ++ pairFrames 0x2C cfg.init.vcom ++
    pairFrames 0x3A cfg.init.dummy ++ pairFrames 0x3B cfg.init.gate ++ pairFrames 0x11 [dem cfg.orient] ++
    pairFrames 0x32 (lut cfg) ++ areaFrames cfg ++ pointerFrames cfg

/-- The frames of `writeImage` for an image (43_controller.md R163). -/
def imageFrames (cfg : Cfg) (image : List Byte) : List (Bool × List Byte) :=
  areaFrames cfg ++ pointerFrames cfg ++ [(false, [0x24]), (true, image)]

/-- The frames of `update` (43_controller.md R164). -/
def updateFrames : List (Bool × List Byte) :=
  [(false, [0x22]), (true, [0xC4]), (false, [0x20]), (false, [0xFF])]

/-- The frames that each operation sends, in order, whatever the panel answers (30_encoding.md R65 and R70 to R84,
42_transfer.md R143 and R144, 43_controller.md R160 to R166). -/
def sentFrames (s : State) : Instr → List (Bool × List Byte)
  | .driverOutputControl  => pairFrames 0x01 s.cfg.init.drv
  | .boosterSoftStart     => pairFrames 0x0C s.cfg.init.boost
  | .dataEntryMode        => pairFrames 0x11 [dem s.cfg.orient]
  | .activateUpdate       => [(false, [0x20])]
  | .displayUpdateControl => pairFrames 0x22 [0xC4]
  | .writeRam             => [(false, [0x24]), (true, s.image)]
  | .writeVcom            => pairFrames 0x2C s.cfg.init.vcom
  | .writeLut             => pairFrames 0x32 s.selectedLut.toList
  | .dummyLinePeriod      => pairFrames 0x3A s.cfg.init.dummy
  | .gateTime             => pairFrames 0x3B s.cfg.init.gate
  | .ramXStartEnd         => pairFrames 0x44 (window s.cfg).ramX
  | .ramYStartEnd         => pairFrames 0x45 (window s.cfg).ramY
  | .ramXCounter          => pairFrames 0x4E (window s.cfg).ctrX
  | .ramYCounter          => pairFrames 0x4F (window s.cfg).ctrY
  | .terminateFrame       => [(false, [0xFF])]
  | .setPixel _ _ _ | .getPixel _ _ | .fill _ | .hline _ _ _ _ | .vline _ _ _ _ | .line _ _ _ _ _ => []
  | .rect _ _ _ _ _ _ | .circle _ _ _ _ _ | .text _ _ _ _ | .reset | .waitUntilIdle => []
  | .writeCommand bs      => [(false, bs)]
  | .writeData bs         => [(true, bs)]
  | .init                 => initFrames s.cfg
  | .setMemoryArea        => areaFrames s.cfg
  | .setMemoryPointer     => pointerFrames s.cfg
  | .writeImage           => imageFrames s.cfg s.image
  | .update               => updateFrames
  | .fullRefresh          =>
    imageFrames s.cfg (List.replicate bufLen 0x00) ++ updateFrames ++
      (imageFrames s.cfg (List.replicate bufLen 0xFF) ++ updateFrames)

/-- How often an operation calls `waitUntilIdle`: once before each frame, and `waitUntilIdle` is one call itself
(30_encoding.md R61). -/
def busyWaits (s : State) (i : Instr) : Nat :=
  (sentFrames s i).length + if i = .waitUntilIdle then 1 else 0

/-- `PanelEventuallyIdle`, the fairness premise of 70_reset_and_hazards.md R208, for one operation: "every
`waitUntilIdle` meets a `Poll(false)` after finitely many polls". With `BUSY_MAX_POLLS` set, finitely many means fewer
busy polls than the bound, since a wait takes no more (60_exceptions.md R182). -/
def State.PanelEventuallyIdle (s : State) (i : Instr) : Prop := s.MeetsIdle (busyWaits s i) 0

/-- The protocol state that an operation waits in, its first wait met, from the one it found (10_state.md R30): T2 for
`init`, the first step of T4 for `writeImage` and for the first part of `fullRefresh`, the first step of T5 for
`update`, none for any other. -/
def waitsIn (i : Instr) (p : PState) : PState :=
  match i with
  | .init => .resetting
  | .writeImage | .fullRefresh => if p = .uninitialized ∨ p = .resetting then p else .writingImage
  | .update => if p = .uninitialized ∨ p = .resetting then p else .updating
  | .driverOutputControl | .boosterSoftStart | .dataEntryMode | .activateUpdate | .displayUpdateControl => p
  | .writeRam | .writeVcom | .writeLut | .dummyLinePeriod | .gateTime => p
  | .ramXStartEnd | .ramYStartEnd | .ramXCounter | .ramYCounter | .terminateFrame => p
  | .setPixel _ _ _ | .getPixel _ _ | .fill _ | .hline _ _ _ _ | .vline _ _ _ _ | .line _ _ _ _ _ => p
  | .rect _ _ _ _ _ _ | .circle _ _ _ _ _ | .text _ _ _ _ => p
  | .reset => .resetting
  | .waitUntilIdle | .writeCommand _ | .writeData _ | .setMemoryArea | .setMemoryPointer => p

/-- A trace without its busy polls and the pause after each. -/
def withoutBusy : List Event → List Event
  | [] => []
  | .poll true :: .sleep _ :: es => withoutBusy es
  | e :: es => e :: withoutBusy es

/-- The protocol state after a completed `writeImage` or `update` that found `p` (10_state.md R30, T4 and T5). -/
def PState.afterTransfer (p : PState) : PState := if p.isInitialised then .initialized else p

/-! ### Drawing -/

/-- The step from `s` to `t` completes an operation that sets exactly the in-range pixels of `P` to the colour `c`:
nothing but the framebuffer and the host's results changes, the pixels of `P` have the colour, every other pixel is as
it was, and every byte that holds no in-range pixel of `P` is as it was. -/
def DrawsExactly (s t : State) (c : Int) (P : Int → Int → Prop) : Prop :=
  t = { s with fb := t.fb, results := s.results ++ [.done] } ∧
  (∀ x y, P x y → InRange s.cfg.orient x y → t.pixelAt x y = some (colourBit c)) ∧
  (∀ x y, ¬ P x y → t.pixelAt x y = s.pixelAt x y) ∧
  (∀ a, (∀ x y, P x y → InRange s.cfg.orient x y → pixelIndex s.cfg.orient x.toNat y.toNat ≠ a) →
    t.byteAt a = s.byteAt a)

/-- `p = floor(k + sqrt(n))` for integers `n ≥ 0` and `k`, said without a square root: `p ≤ k + sqrt(n) < p + 1`. -/
def IsFloorPlusSqrt (k n p : Int) : Prop := k ≤ p ∧ (p - k) * (p - k) ≤ n ∧ n < (p - k + 1) * (p - k + 1)

/-- `p = floor(k - sqrt(n))` for integers `n ≥ 0` and `k`, said without a square root: `p ≤ k - sqrt(n) < p + 1`. -/
def IsFloorMinusSqrt (k n p : Int) : Prop :=
  p ≤ k ∧ n ≤ (k - p) * (k - p) ∧ (p < k → (k - p - 1) * (k - p - 1) < n)

/-- `(x, y)` is on the ring of radius `r` around `(cx, cy)` in exact arithmetic: the sweep over `x` or the sweep over
`y` of 41_raster.md R126 plots it. -/
def OnRing (cx cy r x y : Int) : Prop :=
  (cx - r ≤ x ∧ x ≤ cx + r ∧
    (IsFloorPlusSqrt cy (r * r - (x - cx) * (x - cx)) y ∨ IsFloorMinusSqrt cy (r * r - (x - cx) * (x - cx)) y)) ∨
  (cy - r ≤ y ∧ y ≤ cy + r ∧
    (IsFloorPlusSqrt cx (r * r - (y - cy) * (y - cy)) x ∨ IsFloorMinusSqrt cx (r * r - (y - cy) * (y - cy)) x))

/-! ### The bus: what the panel may see (30_encoding.md R61, 42_transfer.md R145, 70_reset_and_hazards.md R206) -/

/-- Where the transport port stands between two events. -/
inductive BusState where
  /-- Outside every frame and every reset pulse. -/
  | idle
  /-- The reset line is low and has not been held yet. -/
  | resetLow
  /-- The reset line has been held low for its settle time. -/
  | resetHeld
  /-- The reset line is high again and its settle time has not passed. -/
  | resetRisen
  /-- Chip-select is low, no data/command level yet. -/
  | selected
  /-- The data/command level is set, nothing written yet. -/
  | addressed
  /-- The bytes of the frame are written. -/
  | written
  deriving DecidableEq, Repr

/-- The events allowed at each point: a frame is `CsLow, Dc, Write, CsHigh` with nothing in between (30_encoding.md
R61), and a reset pulse keeps both settle times (70_reset_and_hazards.md R206). -/
def BusState.step : BusState → Event → Option BusState
  | .idle, .poll _      => some .idle
  | .idle, .sleep _     => some .idle
  | .idle, .rstLow      => some .resetLow
  | .idle, .csLow       => some .selected
  | .resetLow, .sleep ms => if resetLowMs ≤ ms then some .resetHeld else none
  | .resetHeld, .rstHigh => some .resetRisen
  | .resetRisen, .sleep ms => if resetHighMs ≤ ms then some .idle else none
  | .selected, .dcCmd   => some .addressed
  | .selected, .dcData  => some .addressed
  | .addressed, .write _ => some .written
  | .written, .csHigh   => some .idle
  | _, _ => none

/-- Where events lead from a point, `none` where one of them is not allowed. -/
def busRun : BusState → List Event → Option BusState
  | b, [] => some b
  | b, e :: es => (b.step e).bind fun b' => busRun b' es

/-- A sample of the busy line. -/
def Event.isPoll : Event → Bool
  | .poll _ => true
  | .rstLow | .rstHigh | .csLow | .csHigh | .dcCmd | .dcData | .write _ | .sleep _ => false

/-- Where the events of statements lead from a point; a busy wait is allowed outside frames only, and only a busy wait
polls. -/
def stmtsBus : BusState → List Stmt → Option BusState
  | b, [] => some b
  | b, .act (.emit e) :: rest => if e.isPoll then none else (b.step e).bind fun b' => stmtsBus b' rest
  | b, .act .sendImage :: rest => (b.step (.write [])).bind fun b' => stmtsBus b' rest
  | b, .act (.setPState _) :: rest => stmtsBus b rest
  | b, .act (.enter _) :: rest => stmtsBus b rest
  | b, .act (.leave _) :: rest => stmtsBus b rest
  | b, .act (.fill _) :: rest => stmtsBus b rest
  | b, .act (.reply _) :: rest => stmtsBus b rest
  | b, .wait _ :: rest => if b = .idle then stmtsBus .idle rest else none

/-! ### The protocol state (10_state.md R30) -/

/-- The states in which no transfer is under way. -/
def PState.settled : PState → Bool
  | .uninitialized => true
  | .resetting     => true
  | .initialized   => true
  | .writingImage  => false
  | .updating      => false

/-- The protocol state that statements end in, from one they find. -/
def pstateAfter : PState → List Stmt → PState
  | p, [] => p
  | _, .act (.setPState q) :: rest => pstateAfter q rest
  | p, .act (.enter q) :: rest => pstateAfter (q.enter p) rest
  | p, .act (.leave q) :: rest => pstateAfter (q.leave p) rest
  | p, .act (.emit _) :: rest => pstateAfter p rest
  | p, .act .sendImage :: rest => pstateAfter p rest
  | p, .act (.fill _) :: rest => pstateAfter p rest
  | p, .act (.reply _) :: rest => pstateAfter p rest
  | p, .wait _ :: rest => pstateAfter p rest

/-! ### Busy polls in a row (42_transfer.md R142, 60_exceptions.md R180) -/

/-- `n` busy polls, each with its pause. -/
def busyPolls (n : Nat) : List Event := (List.replicate n [Event.poll true, Event.sleep pollMs]).flatten

/-- A trace that ends in `n` busy polls in a row, each with its pause, and in no more than `n`. -/
def EndsBusy (n : Nat) (es : List Event) : Prop :=
  ∃ before, es = before ++ busyPolls n ∧ before.getLast? ≠ some (.poll true) ∧
    ∀ more, before ≠ more ++ [.poll true, .sleep pollMs]

/-- The busy polls that the wait at the head of statements has behind it. -/
def busyCount : List Stmt → Nat
  | .wait n :: _ => n
  | _ => 0

/-- No busy wait among statements has begun. -/
def FreshWaits (l : List Stmt) : Prop := ∀ n, .wait n ∈ l → n = 0

/-! ### The invariant -/

/-- How many polls a trace holds. -/
def pollCount : List Event → Nat
  | [] => 0
  | .poll _ :: es => pollCount es + 1
  | .rstLow :: es | .rstHigh :: es | .csLow :: es | .csHigh :: es | .dcCmd :: es | .dcData :: es => pollCount es
  | .write _ :: es => pollCount es
  | .sleep _ :: es => pollCount es

/-- What every step keeps. -/
structure State.Inv (s : State) : Prop where
  /-- The framebuffer is in its canonical form. -/
  memory : Memory.wf s.cfg.fbResetFill s.fb = true
  /-- The trace is whole frames, whole reset pulses, polls and sleeps (42_transfer.md R145). -/
  bus : busRun .idle s.trace = some .idle
  /-- What is left of a suspended operation keeps it so. -/
  pendingBus : stmtsBus .idle s.pending = some .idle
  /-- An operation is suspended in its busy wait only (20_memory.md R55). -/
  suspended : s.pending = [] ∨ ∃ n rest, s.pending = .wait n :: rest
  /-- Outside a fault, no operation ends while the protocol state says that a transfer is under way (10_state.md
  R30). -/
  protocol : s.fault = none → (pstateAfter s.pstate s.pending).settled = true
  /-- A fault ends its operation (60_exceptions.md R184). -/
  stopped : s.fault ≠ none → s.pending = []
  /-- Outside a fault, the wait in progress counts the busy polls that the trace ends in, and with none in progress the
  trace ends in no busy poll (42_transfer.md R142). -/
  counts : s.fault = none → EndsBusy (busyCount s.pending) s.trace
  /-- The waits behind the first one have not begun: each counts from 0 (42_transfer.md R142). -/
  fresh : FreshWaits s.pending.tail
  /-- A wait in progress is below the bound (60_exceptions.md R182). -/
  below : ∀ bound, s.cfg.busyMaxPolls = some bound → busyCount s.pending < bound.polls
  /-- `DeviceUnresponsive` exists only with `BUSY_MAX_POLLS` set, and records that count: the trace ends in as many busy
  polls in a row, no pause behind the last (60_exceptions.md R180, R182). -/
  bounded : ∀ n, s.fault = some (.deviceUnresponsive n) → ∃ bound es, s.cfg.busyMaxPolls = some bound ∧
    n = bound.polls ∧ s.trace = es ++ [.poll true] ∧ EndsBusy bound.afterFirst es
  /-- The table copied at construction is `LUT(mode)`: the state holds nothing here that `cfg` does not determine
  (10_state.md R20, R24; log 21). -/
  table : s.selectedLut = lutTable s.cfg
  /-- Every poll is counted, so that no free draw is used twice (log 4). -/
  counted : s.polls = pollCount s.trace

end Sys2Proof.Machine
end

