-- ==== Sys2Proof/Certificates/Slice0/Obligations.lean ====
section
/-! DEFINITION. The statements for the provers. A docstring names the rule of spec/ a statement formalises; where a rule
is marked there as a decision or as derived, it names the decision, and where the model chose, the log entry. -/

open Sys2Proof
open Sys2Proof.Machine

/-! ### Encoding (30_encoding.md) -/

/-- The decoder reads every instruction back from its encoding, with every operand, and only a `text` whose string no
line can carry is issued as a term. The syntax is R87 (decision D34) with the details of log 16. -/
def Obligations.DecodeOfEncodeIsTheInstruction : Prop :=
  ∀ i : Instr, decode (encode i) = .ok i ∧
    (encode i = .term i → ∃ s x y c, i = .text s x y c ∧ writableString s = false)

/-- The 15 command frames of R67, and lines of R87, written out, decode to the instructions they stand for. -/
def Obligations.SpecWordsAndLinesDecode : Prop :=
  decode (.frame [0x01#8]) = .ok .driverOutputControl ∧
  decode (.frame [0x0C#8]) = .ok .boosterSoftStart ∧
  decode (.frame [0x11#8]) = .ok .dataEntryMode ∧
  decode (.frame [0x20#8]) = .ok .activateUpdate ∧
  decode (.frame [0x22#8]) = .ok .displayUpdateControl ∧
  decode (.frame [0x24#8]) = .ok .writeRam ∧
  decode (.frame [0x2C#8]) = .ok .writeVcom ∧
  decode (.frame [0x32#8]) = .ok .writeLut ∧
  decode (.frame [0x3A#8]) = .ok .dummyLinePeriod ∧
  decode (.frame [0x3B#8]) = .ok .gateTime ∧
  decode (.frame [0x44#8]) = .ok .ramXStartEnd ∧
  decode (.frame [0x45#8]) = .ok .ramYStartEnd ∧
  decode (.frame [0x4E#8]) = .ok .ramXCounter ∧
  decode (.frame [0x4F#8]) = .ok .ramYCounter ∧
  decode (.frame [0xFF#8]) = .ok .terminateFrame ∧
  decode (.line "writeCommand [0x22]".toList) = .ok (.writeCommand [0x22#8]) ∧
  decode (.line "getPixel -1, 0  ; -> none".toList) = .ok (.getPixel (-1) 0) ∧
  decode (.line "rect 0, 0, 9, 9, 0, fill=true ; W1".toList) = .ok (.rect 0 0 9 9 0 true) ∧
  decode (.line "fullRefresh".toList) = .ok .fullRefresh

/-- A command frame decodes to an instruction exactly when it is that instruction's encoding, and 15 of the 256 byte
values do (R66 and R67; the mnemonics are decision D34; that other frames are refused is log 15). -/
def Obligations.CommandFramesDecodeByTheOpcodeMap : Prop :=
  (∀ (bs : List Byte) (i : Instr), decode (.frame bs) = .ok i ↔ encode i = .frame bs) ∧
  ((List.range 256).filter fun n => (decodeTableWord 8 n).isSome).length = 15

/-- A written term stands for an operation exactly when it is well formed (R89, decision D46). -/
def Obligations.WrittenTermsDecodeExactlyWhenWellFormed : Prop :=
  ∀ t : RawTerm, (∃ i, elaborateTerm t = .ok i) ↔ t.wellFormed = true

/-! ### A step (log 2, log 12, log 14, log 15) -/

/-- A step of a ready core takes the host's next issue and is the execution of the instruction it decodes to
(10_state.md R22, decision D41; log 2). -/
def Obligations.StepRunsTheDecodedInstruction : Prop :=
  ∀ (s : State) (issue : Issue) (rest : List Issue) (i : Instr), s.Ready → s.program = issue :: rest →
    decode issue = .ok i → step s = exec i { s with program := rest }

/-- A table word put where the step fetches is executed by the very next step (log 2). -/
def Obligations.FetchWordRunsItsRow : Prop :=
  ∀ (s : State) (nbits w : Nat) (i : Instr), decodeTableWord nbits w = some i →
    step (s.withFetchWord nbits w) = exec i { s with pending := [], fault := none }

/-- An issue that is no instruction is refused by name (R89: "A term that is not well formed cannot be written",
decision D46; log 15). -/
def Obligations.IllFormedIssueIsRefused : Prop :=
  ∀ (s : State) (issue : Issue) (rest : List Issue) (e : DecodeError), s.Ready → s.program = issue :: rest →
    decode issue = .error e → step s = .refused (.illFormed e)

/-- Every instruction answers a next state on a ready core and on no other: a core that holds a fault accepts none
(10_state.md R32, decision D33; log 12), and none runs while another is in progress (20_memory.md R56; log 14). -/
def Obligations.OnlyAReadyCoreAccepts : Prop :=
  ∀ (i : Instr) (s : State),
    ((∃ t, exec i s = .next t) ↔ s.Ready) ∧
    (∀ f, s.fault = some f → exec i s = .fault f ∧ step s = .fault f) ∧
    (s.fault = none → s.pending ≠ [] → exec i s = .refused .operationInProgress)

/-- With nothing issued the core waits for the host, its state as it is (70_reset_and_hazards.md R202, derived there;
log 2). -/
def Obligations.CoreWaitsForTheHost : Prop :=
  ∀ s : State, s.Ready → s.program = [] → step s = .next s

/-- Construction leaves the configuration supplied, every byte `FB_RESET_FILL`, Uninitialized, no fault and an empty
trace, and the waveform table of the mode selected (R24; log 21); at `State.reset` every pixel is white (10_state.md R37,
decisions D3 and D4; the construction arguments of `State.reset` are log 6). -/
def Obligations.ConstructionState : Prop :=
  (∀ cfg : Cfg, (State.construct cfg).cfg = cfg ∧
    (∀ a, a < 4736 → (State.construct cfg).byteAt a = cfg.fbResetFill) ∧
    (State.construct cfg).pstate = .uninitialized ∧ (State.construct cfg).fault = none ∧
    (State.construct cfg).trace = [] ∧
    (State.construct cfg).selectedLut = if cfg.mode = .full then cfg.lutFull else cfg.lutPartial) ∧
  State.reset = State.construct (Config.standard .landscape .full) ∧
  ∀ x y, InRange .landscape x y → State.reset.pixelAt x y = some 1#1

/-! ### Pixel addresses (20_memory.md) -/

/-- `width` and `height` of each orientation, and their product (10_state.md R25). -/
def Obligations.DimensionsOfTheOrientations : Prop :=
  width .portrait = 128 ∧ height .portrait = 296 ∧ width .landscape = 296 ∧ height .landscape = 128 ∧
  bufLen = 4736 ∧ ∀ o : Orient, width o * height o = 37888 ∧ width o * height o / 8 = bufLen

/-- The Landscape address: index and bit by shift and mask, inside the buffer, and the eight pixels of a byte with
pixel `k` in bit `7 - k` (20_memory.md R41). -/
def Obligations.LandscapeAddress : Prop :=
  ∀ x y : Nat, x < 296 → y < 128 →
    pixelIndex .landscape x y = (y >>> 3) * 296 + x ∧
    pixelIndex .landscape x y ≤ 4735 ∧
    pixelBit .landscape x y = 7 - (y &&& 7) ∧
    ∀ k, k < 8 →
      pixelIndex .landscape x (8 * (y >>> 3) + k) = pixelIndex .landscape x y ∧
      pixelBit .landscape x (8 * (y >>> 3) + k) = 7 - k

/-- The Portrait address: index and bit by shift and mask, inside the buffer, and the eight pixels of a byte with pixel
`k` in bit `7 - k` (20_memory.md R42, its last sentence derived there). -/
def Obligations.PortraitAddress : Prop :=
  ∀ x y : Nat, x < 128 → y < 296 →
    pixelIndex .portrait x y = (x + y * 128) >>> 3 ∧
    pixelIndex .portrait x y ≤ 4735 ∧
    pixelBit .portrait x y = 7 - (x &&& 7) ∧
    ∀ k, k < 8 →
      pixelIndex .portrait (8 * (pixelIndex .portrait x y % 16) + k) (pixelIndex .portrait x y / 16) =
        pixelIndex .portrait x y ∧
      pixelBit .portrait (8 * (pixelIndex .portrait x y % 16) + k) (pixelIndex .portrait x y / 16) = 7 - k

/-- In each orientation the in-range pixels are one to one with the pairs of an index below 4736 and a bit below 8, and
the corners are where R44 says (20_memory.md R44, derived there). -/
def Obligations.PixelAddressIsABijection : Prop :=
  (∀ (o : Orient) (x y : Int), InRange o x y →
    pixelIndex o x.toNat y.toNat < 4736 ∧ pixelBit o x.toNat y.toNat < 8) ∧
  (∀ (o : Orient) (x y x' y' : Int), InRange o x y → InRange o x' y' →
    pixelIndex o x.toNat y.toNat = pixelIndex o x'.toNat y'.toNat →
    pixelBit o x.toNat y.toNat = pixelBit o x'.toNat y'.toNat → x = x' ∧ y = y') ∧
  (∀ (o : Orient) (a k : Nat), a < 4736 → k < 8 →
    ∃ x y : Int, InRange o x y ∧ pixelIndex o x.toNat y.toNat = a ∧ pixelBit o x.toNat y.toNat = k) ∧
  (∀ o : Orient, pixelIndex o 0 0 = 0 ∧ pixelBit o 0 0 = 7) ∧
  pixelIndex .landscape 295 127 = 4735 ∧ pixelBit .landscape 295 127 = 0 ∧
  pixelIndex .portrait 127 295 = 4735 ∧ pixelBit .portrait 127 295 = 0

/-! ### The framebuffer (40_framebuffer.md) -/

/-- `setPixel`: out of range nothing is written and nothing faults; in range one byte is read, changed in one bit and
written, and nothing else of the state changes but the host's completion (40_framebuffer.md R100, 20_memory.md R43). -/
def Obligations.SetPixelChangesOneBit : Prop :=
  ∀ (s : State) (x y c : Int), s.Ready → ∃ t, exec (.setPixel x y c) s = .next t ∧
    t = { s with fb := t.fb, results := s.results ++ [.done] } ∧
    (¬ (0 ≤ x ∧ x < width s.cfg.orient ∧ 0 ≤ y ∧ y < height s.cfg.orient) → t.fb = s.fb) ∧
    (0 ≤ x ∧ x < width s.cfg.orient ∧ 0 ≤ y ∧ y < height s.cfg.orient →
      ∀ i k, i = pixelIndex s.cfg.orient x.toNat y.toNat → k = pixelBit s.cfg.orient x.toNat y.toNat →
        t.byteAt i = (s.byteAt i &&& ~~~(1#8 <<< k) &&& 0xFF#8) ||| ((if c ≠ 0 then 1#8 else 0#8) <<< k) ∧
        (∀ j, j < 8 → j ≠ k → (t.byteAt i).getLsbD j = (s.byteAt i).getLsbD j) ∧
        (t.byteAt i).getLsbD k = decide (c ≠ 0) ∧
        ((s.byteAt i).getLsbD k = decide (c ≠ 0) → t.byteAt i = s.byteAt i) ∧
        ∀ a, a ≠ i → t.byteAt a = s.byteAt a)

/-- `getPixel` gives the host the bit of an in-range pixel and the sentinel otherwise, and changes nothing else
(40_framebuffer.md R101, decision D7). -/
def Obligations.GetPixelReturnsTheBit : Prop :=
  ∀ (s : State) (x y : Int), s.Ready →
    (InRange s.cfg.orient x y →
      exec (.getPixel x y) s = .next { s with results := s.results ++
        [.pixel (some (((s.byteAt (pixelIndex s.cfg.orient x.toNat y.toNat)) >>>
          pixelBit s.cfg.orient x.toNat y.toNat).setWidth 1))] }) ∧
    (¬ InRange s.cfg.orient x y →
      exec (.getPixel x y) s = .next { s with results := s.results ++ [.pixel none] })

/-- After `setPixel` at an in-range pixel, `getPixel` there gives 1 for every colour but 0, and `getPixel` anywhere
else gives what it gave before (40_framebuffer.md R101, decision D7, with 90_conflicts.md C3). -/
def Obligations.GetPixelAfterSetPixel : Prop :=
  ∀ (s : State) (x y c : Int), s.Ready → InRange s.cfg.orient x y →
    ∃ t, exec (.setPixel x y c) s = .next t ∧
      exec (.getPixel x y) t =
        .next { t with results := t.results ++ [.pixel (some (if c = 0 then 0#1 else 1#1))] } ∧
      ∀ x' y' : Int, (x' ≠ x ∨ y' ≠ y) → ∃ r, exec (.getPixel x' y') s = .next { s with results := s.results ++ [r] } ∧
        exec (.getPixel x' y') t = .next { t with results := t.results ++ [r] }

/-- Writing a pixel a second time leaves the framebuffer that the second write alone leaves, so writing it twice in one
colour is writing it once; and `fill` twice is the last `fill` (20_memory.md R50, its `fill` part derived there). -/
def Obligations.LastPixelWriteWins : Prop :=
  ∀ (s : State) (x y c d : Int), s.Ready →
    (∃ t u v, exec (.setPixel x y c) s = .next t ∧ exec (.setPixel x y d) t = .next u ∧
      exec (.setPixel x y d) s = .next v ∧ u.fb = v.fb) ∧
    (∃ t u v, exec (.fill c) s = .next t ∧ exec (.fill d) t = .next u ∧
      exec (.fill d) s = .next v ∧ u.fb = v.fb)

/-- `fill` gives every byte of the buffer one value and every pixel one colour, and changes nothing else
(40_framebuffer.md R102, decision D8). -/
def Obligations.FillSetsEveryByte : Prop :=
  ∀ (s : State) (c : Int), s.Ready → ∃ t, exec (.fill c) s = .next t ∧
    t = { s with fb := t.fb, results := s.results ++ [.done] } ∧
    (∀ a, a < 4736 → t.byteAt a = if c ≠ 0 then 0xFF#8 else 0x00#8) ∧
    ∀ x y, InRange s.cfg.orient x y → t.pixelAt x y = some (if c ≠ 0 then 1#1 else 0#1)

/-! ### The rasterizer (41_raster.md) -/

/-- `hline` draws the pixels `(x, y)` to `(x + length - 1, y)`, none where `length ≤ 0` (41_raster.md R110, decision
D9). -/
def Obligations.HlineDrawsItsRun : Prop :=
  ∀ (s : State) (x y length c : Int), s.Ready → ∃ t, exec (.hline x y length c) s = .next t ∧
    DrawsExactly s t c fun px py => x ≤ px ∧ px < x + length ∧ py = y

/-- `vline` draws the pixels `(x, y)` to `(x, y + length - 1)`, none where `length ≤ 0` (41_raster.md R111, decision
D9). -/
def Obligations.VlineDrawsItsRun : Prop :=
  ∀ (s : State) (x y length c : Int), s.Ready → ∃ t, exec (.vline x y length c) s = .next t ∧
    DrawsExactly s t c fun px py => px = x ∧ y ≤ py ∧ py < y + length

/-- `line` by its shape: vertical first, as `vline` of signed length, then horizontal, as `hline` of signed length,
each without its end point; otherwise one pixel in each column from `x0` to `x1`, at the height that `LINE_Y` gives
(41_raster.md R112, R113 and R115, decisions D10, D11 and D13). It holds for every `LINE_Y`. -/
def Obligations.LineDispatchesOnItsShape : Prop :=
  ∀ (s : State) (x0 y0 x1 y1 c : Int), s.Ready → ∃ t, exec (.line x0 y0 x1 y1 c) s = .next t ∧
    (x0 = x1 → exec (.vline x0 y0 (y1 - y0) c) s = .next t ∧
      DrawsExactly s t c fun px py => px = x0 ∧ y0 ≤ py ∧ py < y1) ∧
    (x0 ≠ x1 → y0 = y1 → exec (.hline x0 y0 (x1 - x0) c) s = .next t ∧
      DrawsExactly s t c fun px py => py = y0 ∧ x0 ≤ px ∧ px < x1) ∧
    (x0 ≠ x1 → y0 ≠ y1 →
      DrawsExactly s t c fun px py => x0 ≤ px ∧ px ≤ x1 ∧ py = lineY s.cfg.lineY x0 y0 x1 y1 px)

/-- Under the default `LINE_Y` the general line draws, in each column, the floor of the real line, so that both end
points are drawn; with `x1 < x0` it draws nothing (41_raster.md R113, decisions D11 and D12). -/
def Obligations.ExactLineIsTheFloorOfTheRealLine : Prop :=
  ∀ (s : State) (x0 y0 x1 y1 c : Int), s.Ready → s.cfg.lineY = .exact → x0 ≠ x1 → y0 ≠ y1 →
    ∃ t, exec (.line x0 y0 x1 y1 c) s = .next t ∧
      (DrawsExactly s t c fun px py => x0 ≤ px ∧ px ≤ x1 ∧
        (py - y0) * (x1 - x0) ≤ (y1 - y0) * (px - x0) ∧ (y1 - y0) * (px - x0) < (py - y0 + 1) * (x1 - x0)) ∧
      (x0 < x1 → InRange s.cfg.orient x0 y0 → t.pixelAt x0 y0 = some (colourBit c)) ∧
      (x0 < x1 → InRange s.cfg.orient x1 y1 → t.pixelAt x1 y1 = some (colourBit c)) ∧
      (x1 < x0 → ∀ a, t.byteAt a = s.byteAt a)

/-- `rect` with `fill=true` draws every pixel of `[x0,x1]×[y0,y1]`, both ends included (41_raster.md R121). -/
def Obligations.FilledRectangleIsTheProduct : Prop :=
  ∀ (s : State) (x0 y0 x1 y1 c : Int), s.Ready → ∃ t, exec (.rect x0 y0 x1 y1 c true) s = .next t ∧
    DrawsExactly s t c fun px py => (x0 ≤ px ∧ px ≤ x1) ∧ y0 ≤ py ∧ py ≤ y1

/-- `rect` with `fill=false` draws four runs of length `x1 - x0` and `y1 - y0`, so that the corner `(x1, y1)` is not
drawn (41_raster.md R120 and R122, decision D14). -/
def Obligations.RectangleOutlineIsFourRuns : Prop :=
  ∀ (s : State) (x0 y0 x1 y1 c : Int), s.Ready → ∃ t, exec (.rect x0 y0 x1 y1 c false) s = .next t ∧
    (DrawsExactly s t c fun px py =>
      (x0 ≤ px ∧ px < x1 ∧ (py = y0 ∨ py = y1)) ∨ ((px = x0 ∨ px = x1) ∧ y0 ≤ py ∧ py < y1)) ∧
    t.pixelAt x1 y1 = s.pixelAt x1 y1

/-- `circle` draws its ring, and filled the rings below it down to 1: the sweep over `x` and the sweep over `y`, with
the roots that `CIRCLE_ROOT` gives (41_raster.md R125 to R127, decisions D15 and D16). Under every `CIRCLE_ROOT`, the
arithmetic `custom` included, these are floors of the centre plus and minus one root, none of them truncated toward zero:
the centre only shifts them, and the one below it is as far away as the one above, or 1 farther (R127; log 10). -/
def Obligations.CircleSamplesBothAxes : Prop :=
  (∀ (s : State) (cx cy r c : Int) (fill : Bool), s.Ready → ∃ t, exec (.circle cx cy r c fill) s = .next t ∧
    DrawsExactly s t c fun px py => ∃ k, (k = r ∨ (fill = true ∧ 1 ≤ k ∧ k < r)) ∧
      ((cx - k ≤ px ∧ px ≤ cx + k ∧
        (py = rootPlus s.cfg.circleRoot cy (k * k - (px - cx) * (px - cx)).toNat ∨
          py = rootMinus s.cfg.circleRoot cy (k * k - (px - cx) * (px - cx)).toNat)) ∨
       (cy - k ≤ py ∧ py ≤ cy + k ∧
        (px = rootPlus s.cfg.circleRoot cx (k * k - (py - cy) * (py - cy)).toNat ∨
          px = rootMinus s.cfg.circleRoot cx (k * k - (py - cy) * (py - cy)).toNat)))) ∧
  ∀ (arith : RootArith) (k : Int) (n : Nat),
    rootPlus arith k n = k + rootPlus arith 0 n ∧ rootMinus arith k n = k + rootMinus arith 0 n ∧
    (rootMinus arith 0 n = -rootPlus arith 0 n ∨ rootMinus arith 0 n = -rootPlus arith 0 n - 1)

/-- Under the default `CIRCLE_ROOT`, and in binary64 for radii below 300 and centres from -5 to 299, the rings are the
floors of the real circle, said without a square root (41_raster.md R125 to R127, R127 derived there, decisions D15 and
D16; the binary64 root is log 10). -/
def Obligations.ExactCircleIsTheFloorOfTheRealCircle : Prop :=
  ∀ (s : State) (cx cy r c : Int) (fill : Bool), s.Ready →
    (s.cfg.circleRoot = .exact ∨
      (s.cfg.circleRoot = .binary64 ∧ r < 300 ∧ -5 ≤ cx ∧ cx < 300 ∧ -5 ≤ cy ∧ cy < 300)) →
    ∃ t, exec (.circle cx cy r c fill) s = .next t ∧
      DrawsExactly s t c fun px py => ∃ k, (k = r ∨ (fill = true ∧ 1 ≤ k ∧ k < r)) ∧ OnRing cx cy k px py

/-- Under the default `CIRCLE_ROOT` an unfilled circle of radius `r ≥ 0` changes only pixels whose distance from the
centre, rounded down, is `r - 1`, `r` or `r + 1` (41_raster.md R128(a), derived there). -/
def Obligations.UnfilledCircleStaysNearItsRadius : Prop :=
  ∀ (s : State) (cx cy r c : Int), s.Ready → s.cfg.circleRoot = .exact → 0 ≤ r →
    ∃ t, exec (.circle cx cy r c false) s = .next t ∧
      ∀ x y, t.pixelAt x y ≠ s.pixelAt x y →
        ∃ d : Int, 0 ≤ d ∧ d * d ≤ (x - cx) * (x - cx) + (y - cy) * (y - cy) ∧
          (x - cx) * (x - cx) + (y - cy) * (y - cy) < (d + 1) * (d + 1) ∧ (d = r - 1 ∨ d = r ∨ d = r + 1)

/-- Under the default `CIRCLE_ROOT` a filled circle of radius `r ≥ 1` leaves its centre, and from radius 2 on the pixel
left above it, as they were; at radius 2 these are its only holes (41_raster.md R128(b), derived there). -/
def Obligations.FilledCircleLeavesItsHoles : Prop :=
  ∀ (s : State) (cx cy r c : Int), s.Ready → s.cfg.circleRoot = .exact → 1 ≤ r →
    ∃ t, exec (.circle cx cy r c true) s = .next t ∧
      t.pixelAt cx cy = s.pixelAt cx cy ∧
      (2 ≤ r → t.pixelAt (cx - 1) (cy - 1) = s.pixelAt (cx - 1) (cy - 1)) ∧
      (r = 2 → ∀ x y, InRange s.cfg.orient x y → (x - cx) * (x - cx) + (y - cy) * (y - cy) ≤ 4 →
        (x ≠ cx ∨ y ≠ cy) → (x ≠ cx - 1 ∨ y ≠ cy - 1) → t.pixelAt x y = some (colourBit c))

/-- `text`, where every character has a glyph, draws the 1 bits of each glyph: byte `j` is column `j`, character `n` is
8 columns right of character `n - 1`, and row `k` is bit `7 - k` where the top row is the most significant bit and bit
`k` where it is the least (41_raster.md R130 and R131, decisions D17, D18 and D43). -/
def Obligations.TextDrawsItsGlyphs : Prop :=
  ∀ (s : State) (str : List Char) (x y c : Int), s.Ready →
    (∀ d ∈ str, ∃ g, s.cfg.glyphs.lookup d = some g) →
    ∃ t, exec (.text str x y c) s = .next t ∧
      DrawsExactly s t c fun px py => ∃ (n : Nat) (d : Char) (g : Glyph) (j : Fin 8) (k : Nat),
        str[n]? = some d ∧ s.cfg.glyphs.lookup d = some g ∧ k < 8 ∧
        (g[j]).getLsbD (if (s.cfg.orient = .landscape ↔ s.cfg.glyphLandscapeMsbTop = true) then 7 - k else k) = true ∧
        px = x + 8 * n + j ∧ py = y + k

/-- At the first character without a glyph `text` raises `GlyphNotFound` with it: the framebuffer is as the characters
before it leave it, no later one is drawn, and nothing else changes (41_raster.md R132 and 60_exceptions.md R181 and
R184, decisions D19 and D33; log 12). -/
def Obligations.TextStopsAtTheFirstUnknownCharacter : Prop :=
  ∀ (s : State) (before after : List Char) (d : Char) (x y c : Int), s.Ready →
    (∀ e ∈ before, ∃ g, s.cfg.glyphs.lookup e = some g) → s.cfg.glyphs.lookup d = none →
    ∃ t u, exec (.text (before ++ d :: after) x y c) s = .next t ∧ exec (.text before x y c) s = .next u ∧
      t = { s with fb := u.fb, fault := some (.glyphNotFound d), results := s.results ++ [.fault (.glyphNotFound d)] }

/-- A step raises `GlyphNotFound` only where the host's next issue is a `text` whose first character without a glyph is
the one recorded. It raises `DeviceUnresponsive` only in an operation that transfers, in progress or just issued, with
`BUSY_MAX_POLLS` set, right after as many busy polls in a row as the bound says, no more before them and no pause behind
the last; the count recorded is that bound. The codes are 1 and 2 (60_exceptions.md R180 to R182, decisions D19, D21 and
D32). The invariant rules out a suspended wait that does not count the polls behind it. -/
def Obligations.FaultsComeOnlyFromTheirCauses : Prop :=
  (∀ s t : State, s.Inv → step s = .next t →
    (∀ d, t.fault = some (.glyphNotFound d) →
      s.pending = [] ∧ ∃ issue rest str x y c, s.program = issue :: rest ∧ decode issue = .ok (.text str x y c) ∧
        (str.find? fun e => (s.cfg.glyphs.lookup e).isNone) = some d) ∧
    (∀ n, t.fault = some (.deviceUnresponsive n) →
      (s.pending ≠ [] ∨ ∃ issue rest i, s.program = issue :: rest ∧ decode issue = .ok i ∧ transfers i = true) ∧
      ∃ bound before, s.cfg.busyMaxPolls = some bound ∧ n = bound.polls ∧
        t.trace = before ++ busyPolls (n - 1) ++ [.poll true] ∧ before.getLast? ≠ some (.poll true) ∧
        ∀ more, before ≠ more ++ [.poll true, .sleep 10])) ∧
  (∀ d, Fault.code (.glyphNotFound d) = 1) ∧ ∀ n, Fault.code (.deviceUnresponsive n) = 2

/-! ### Transfer (42_transfer.md) -/

/-- `reset` emits its four events, polls nothing, whatever the panel answers, and leaves Resetting (42_transfer.md R140
and R141, decisions D6 and D31). -/
def Obligations.ResetPulsesThePanel : Prop :=
  ∀ s : State, s.Ready → exec .reset s = .next { s with
    pstate := .resetting
    trace := s.trace ++ [.rstLow, .sleep 10, .rstHigh, .sleep 10]
    results := s.results ++ [.done] }

/-- On an idle panel `waitUntilIdle` is one poll, and `writeCommand` and `writeData` are one poll and one frame of
exactly the bytes given (42_transfer.md R142 to R144, decisions D20, D22 and D42). -/
def Obligations.FramesOnAnIdlePanel : Prop :=
  ∀ (s : State) (bs : List Byte), s.Ready → s.AllIdle 1 →
    exec .waitUntilIdle s = .next { s with
      trace := s.trace ++ [.poll false]
      panel := s.panel.drop 1
      polls := s.polls + 1
      results := s.results ++ [.done] } ∧
    exec (.writeCommand bs) s = .next { s with
      trace := s.trace ++ [.poll false, .csLow, .dcCmd, .write bs, .csHigh]
      panel := s.panel.drop 1
      polls := s.polls + 1
      results := s.results ++ [.done] } ∧
    exec (.writeData bs) s = .next { s with
      trace := s.trace ++ [.poll false, .csLow, .dcData, .write bs, .csHigh]
      panel := s.panel.drop 1
      polls := s.polls + 1
      results := s.results ++ [.done] }

/-- Where the panel answers busy `n` times and then idle, and no bound is reached, the operation takes `n` steps more
and ends with `n` times a busy poll and a 10 ms pause, then the idle poll, then its frame (42_transfer.md R142 to R144,
decisions D20 and D21; that each busy poll ends a step is log 3). -/
def Obligations.BusyWaitPollsUntilIdle : Prop :=
  ∀ (s : State) (n : Nat) (i : Instr) (bs : List Byte) (after : List Event), s.Ready →
    (∀ j, j < n → s.answer j = true) → s.answer n = false →
    (∀ bound, s.cfg.busyMaxPolls = some bound → n < bound.polls) →
    (i, after) ∈ [(.waitUntilIdle, []), (.writeCommand bs, [.csLow, .dcCmd, .write bs, .csHigh]),
      (.writeData bs, [.csLow, .dcData, .write bs, .csHigh])] →
    ∃ t, exec i s = .next t ∧ stepsTo n t { s with
      trace := s.trace ++ (List.replicate n [Event.poll true, Event.sleep 10]).flatten ++ .poll false :: after
      panel := s.panel.drop (n + 1)
      polls := s.polls + (n + 1)
      results := s.results ++ [.done] }

/-- With no bound and a panel that stays busy, an operation that transfers goes on polling: after any number of steps
it is still in progress, has raised no fault and sent no frame, only the reset pulse of `init`. It waits in the protocol
state that its first write of it leaves, and `fullRefresh` with every byte black; nothing else has changed
(42_transfer.md R142, 10_state.md R30, decisions D6 and D21; log 3). -/
def Obligations.StuckBusyLineNeverEnds : Prop :=
  ∀ (s : State) (i : Instr) (k : Nat), s.Ready → transfers i = true → s.cfg.busyMaxPolls = none →
    (∀ j, j ≤ k → s.answer j = true) →
    ∃ t u, exec i s = .next t ∧ stepsTo k t u ∧ u.pending ≠ [] ∧ u.fault = none ∧
      (i ≠ .fullRefresh → u.fb = s.fb) ∧ (i = .fullRefresh → ∀ a, a < 4736 → u.byteAt a = 0x00#8) ∧
      u = { s with
        fb := u.fb
        pstate := waitsIn i s.pstate
        pending := u.pending
        trace := s.trace ++ (if i = .init then [.rstLow, .sleep 10, .rstHigh, .sleep 10] else []) ++
          (List.replicate (k + 1) [Event.poll true, Event.sleep 10]).flatten
        panel := s.panel.drop (k + 1)
        polls := s.polls + (k + 1) }

/-- With `BUSY_MAX_POLLS = N`, which is at least 1, and `N` busy answers in a row, a busy wait raises
`DeviceUnresponsive(N)` after the `N`-th poll, before the pause that would follow it. At the first wait of an operation
that transfers, no frame has been sent, and what the operation did before stays: the reset pulse of `init`, the black
framebuffer of `fullRefresh`, the protocol state. At any wait, one with `n` busy polls behind it, every effect already
made stays and nothing else changes (60_exceptions.md R182 and R184, 10_state.md R30, decisions D6, D21 and D33; log 3,
log 12). The invariant rules out a suspended wait past the bound. -/
def Obligations.BoundedWaitFaults : Prop :=
  (∀ (s : State) (i : Instr) (bound : PollBound), s.Ready → transfers i = true → s.cfg.busyMaxPolls = some bound →
    (∀ j, j < bound.polls → s.answer j = true) →
    ∃ t u, exec i s = .next t ∧ stepsTo bound.afterFirst t u ∧
      (i ≠ .fullRefresh → u.fb = s.fb) ∧ (i = .fullRefresh → ∀ a, a < 4736 → u.byteAt a = 0x00#8) ∧
      u = { s with
        fb := u.fb
        pstate := waitsIn i s.pstate
        fault := some (.deviceUnresponsive bound.polls)
        trace := s.trace ++ (if i = .init then [.rstLow, .sleep 10, .rstHigh, .sleep 10] else []) ++
          (List.replicate bound.afterFirst [Event.poll true, Event.sleep 10]).flatten ++ [.poll true]
        panel := s.panel.drop bound.polls
        polls := s.polls + bound.polls
        results := s.results ++ [.fault (.deviceUnresponsive bound.polls)] }) ∧
  ∀ (s : State) (n : Nat) (rest : List Stmt) (bound : PollBound), s.Inv → s.pending = .wait n :: rest →
    s.cfg.busyMaxPolls = some bound → (∀ j, n + j < bound.polls → s.answer j = true) →
    n < bound.polls ∧ stepsTo (bound.polls - n) s { s with
      fault := some (.deviceUnresponsive bound.polls)
      pending := []
      trace := s.trace ++ (List.replicate (bound.afterFirst - n) [Event.poll true, Event.sleep 10]).flatten ++
        [.poll true]
      panel := s.panel.drop (bound.polls - n)
      polls := s.polls + (bound.polls - n)
      results := s.results ++ [.fault (.deviceUnresponsive bound.polls)] }

/-! ### The panel commands (30_encoding.md R70 to R84) -/

/-- Each command row with a payload sends, on an idle panel, its command frame and then its payload in one data frame,
no data frame where the payload is empty, and changes nothing else (30_encoding.md R65 and R70 to R82; the framing is
decision D23; that a row is an instruction of the core is log 1). WRITE_LUT sends the 30 bytes of the table selected at
construction (log 21), which in every state with the invariant is `LUT(mode)` (R64, R65 and R76). -/
def Obligations.PayloadCommandsSendTheirPair : Prop :=
  (∀ (s : State) (i : Instr) (code : Byte) (payload : List Byte), s.Ready →
    (i, code, payload) ∈ [
      (Instr.driverOutputControl, (0x01#8 : Byte), s.cfg.init.drv),
      (.boosterSoftStart, 0x0C#8, s.cfg.init.boost),
      (.writeVcom, 0x2C#8, s.cfg.init.vcom),
      (.dummyLinePeriod, 0x3A#8, s.cfg.init.dummy),
      (.gateTime, 0x3B#8, s.cfg.init.gate),
      (.dataEntryMode, 0x11#8, if s.cfg.orient = .portrait then [0x03#8] else [0x04#8]),
      (.writeLut, 0x32#8, s.selectedLut.toList),
      (.ramXStartEnd, 0x44#8,
        if s.cfg.orient = .portrait then s.cfg.windowPortrait.ramX else s.cfg.windowLandscape.ramX),
      (.ramYStartEnd, 0x45#8,
        if s.cfg.orient = .portrait then s.cfg.windowPortrait.ramY else s.cfg.windowLandscape.ramY),
      (.ramXCounter, 0x4E#8,
        if s.cfg.orient = .portrait then s.cfg.windowPortrait.ctrX else s.cfg.windowLandscape.ctrX),
      (.ramYCounter, 0x4F#8,
        if s.cfg.orient = .portrait then s.cfg.windowPortrait.ctrY else s.cfg.windowLandscape.ctrY),
      (.displayUpdateControl, 0x22#8, [0xC4#8])] →
    s.AllIdle (pairFrames code payload).length →
    exec i s = .next { s.afterFrames (pairFrames code payload) with results := s.results ++ [.done] }) ∧
  ∀ s : State, s.Inv → s.Ready → s.AllIdle 2 →
    exec .writeLut s = .next { s.afterFrames [(false, [0x32#8]),
        (true, if s.cfg.mode = .full then s.cfg.lutFull.toList else s.cfg.lutPartial.toList)] with
      results := s.results ++ [.done] }

/-- WRITE_RAM sends, on an idle panel, the command frame 0x24 and the 4736 framebuffer bytes in index order in one data
frame; ACTIVATE_UPDATE and TERMINATE_FRAME send one command frame and no data frame (30_encoding.md R81, R83 and R84,
decision D28; that a row is an instruction of the core is log 1). -/
def Obligations.ImageAndBareCommandsSendTheirFrames : Prop :=
  ∀ s : State, s.Ready →
    (s.AllIdle 2 → exec .writeRam s = .next
      { s.afterFrames [(false, [0x24#8]), (true, (List.range 4736).map s.byteAt)] with
        results := s.results ++ [.done] }) ∧
    (s.AllIdle 1 → exec .activateUpdate s = .next
      { s.afterFrames [(false, [0x20#8])] with results := s.results ++ [.done] }) ∧
    (s.AllIdle 1 → exec .terminateFrame s = .next
      { s.afterFrames [(false, [0xFF#8])] with results := s.results ++ [.done] })

/-! ### The controller (43_controller.md) -/

/-- `setMemoryArea` and `setMemoryPointer` send the window and the address counters of the orientation, X before Y, and
change nothing else (43_controller.md R161 and R162, decisions D27 and D44). -/
def Obligations.WindowAndPointerAreSentInOrder : Prop :=
  ∀ (s : State) (w : Window), s.Ready →
    w = (if s.cfg.orient = .portrait then s.cfg.windowPortrait else s.cfg.windowLandscape) →
    (s.AllIdle (pairFrames 0x44 w.ramX ++ pairFrames 0x45 w.ramY).length →
      exec .setMemoryArea s = .next
        { s.afterFrames (pairFrames 0x44 w.ramX ++ pairFrames 0x45 w.ramY) with results := s.results ++ [.done] }) ∧
    (s.AllIdle (pairFrames 0x4E w.ctrX ++ pairFrames 0x4F w.ctrY).length →
      exec .setMemoryPointer s = .next
        { s.afterFrames (pairFrames 0x4E w.ctrX ++ pairFrames 0x4F w.ctrY) with results := s.results ++ [.done] })

/-- `init` on an idle panel: the reset pulse, the seven pairs in order with the data-entry mode of the orientation and
the waveform table of the mode, the window and the pointer, then Initialized; nothing else changes (43_controller.md
R160, decisions D24 to D26). -/
def Obligations.InitSendsItsSequence : Prop :=
  ∀ (s : State) (fs : List (Bool × List Byte)), s.Ready →
    fs = pairFrames 0x01 s.cfg.init.drv ++ pairFrames 0x0C s.cfg.init.boost ++ pairFrames 0x2C s.cfg.init.vcom ++
      pairFrames 0x3A s.cfg.init.dummy ++ pairFrames 0x3B s.cfg.init.gate ++
      pairFrames 0x11 (if s.cfg.orient = .portrait then [0x03#8] else [0x04#8]) ++
      pairFrames 0x32 (if s.cfg.mode = .full then s.cfg.lutFull.toList else s.cfg.lutPartial.toList) ++
      areaFrames s.cfg ++ pointerFrames s.cfg →
    s.AllIdle fs.length →
    exec .init s = .next { s with
      pstate := .initialized
      trace := s.trace ++ [.rstLow, .sleep 10, .rstHigh, .sleep 10] ++ idleFrames fs
      panel := s.panel.drop fs.length
      polls := s.polls + fs.length
      results := s.results ++ [.done] }

/-- `writeImage` on an idle panel: the window, the pointer, 0x24 and the framebuffer in index order in one data frame;
the framebuffer is as it was, and the protocol state ends in Initialized unless it was Uninitialized or Resetting
(43_controller.md R163, decisions D6 and D29). -/
def Obligations.WriteImageSendsTheFramebuffer : Prop :=
  ∀ (s : State) (fs : List (Bool × List Byte)), s.Ready →
    fs = areaFrames s.cfg ++ pointerFrames s.cfg ++ [(false, [0x24#8]), (true, (List.range 4736).map s.byteAt)] →
    s.AllIdle fs.length →
    exec .writeImage s = .next { s.afterFrames fs with
      pstate := if s.pstate = .uninitialized ∨ s.pstate = .resetting then s.pstate else .initialized
      results := s.results ++ [.done] }

/-- `update` on an idle panel: 0x22 with 0xC4, 0x20 and 0xFF, nothing after them; the protocol state ends in
Initialized unless it was Uninitialized or Resetting (43_controller.md R164 and R165, decisions D6 and D28). -/
def Obligations.UpdateActivatesTheRefresh : Prop :=
  ∀ s : State, s.Ready → s.AllIdle 4 →
    exec .update s = .next { s with
      pstate := if s.pstate = .uninitialized ∨ s.pstate = .resetting then s.pstate else .initialized
      trace := s.trace ++
        [.poll false, .csLow, .dcCmd, .write [0x22#8], .csHigh, .poll false, .csLow, .dcData, .write [0xC4#8], .csHigh,
         .poll false, .csLow, .dcCmd, .write [0x20#8], .csHigh, .poll false, .csLow, .dcCmd, .write [0xFF#8], .csHigh]
      panel := s.panel.drop 4
      polls := s.polls + 4
      results := s.results ++ [.done] }

/-- `fullRefresh` on an idle panel, in both refresh modes: 4736 bytes of black pushed and refreshed, one 300 ms pause,
4736 bytes of white pushed and refreshed; the framebuffer ends all white (43_controller.md R166 to R168, decisions D8
and D30, R167 derived there). -/
def Obligations.FullRefreshClearsTheGhosts : Prop :=
  ∀ (s : State) (n : Nat), s.Ready → n = (areaFrames s.cfg).length + (pointerFrames s.cfg).length + 6 →
    s.AllIdle (2 * n) →
    ∃ t, exec .fullRefresh s = .next t ∧
      t = { s with
        fb := t.fb
        pstate := if s.pstate = .uninitialized ∨ s.pstate = .resetting then s.pstate else .initialized
        trace := s.trace ++
          idleFrames (areaFrames s.cfg ++ pointerFrames s.cfg ++
            [(false, [0x24#8]), (true, List.replicate 4736 0x00#8)] ++ updateFrames) ++
          [.sleep 300] ++
          idleFrames (areaFrames s.cfg ++ pointerFrames s.cfg ++
            [(false, [0x24#8]), (true, List.replicate 4736 0xFF#8)] ++ updateFrames)
        panel := s.panel.drop (2 * n)
        polls := s.polls + 2 * n
        results := s.results ++ [.done] } ∧
      ∀ a, a < 4736 → t.byteAt a = 0xFF#8

/-- Read back into panel commands, what `init`, `writeImage` and `update` emit on an idle panel is the commands of the
opcode map with the payloads of R65, in their order (30_encoding.md R63, derived there; log 17). -/
def Obligations.TracesReadBackAsTheListedCommands : Prop :=
  ∀ (s : State) (w : Window), s.Ready → s.AllIdle 22 → w = window s.cfg →
    (∃ t, exec .init s = .next t ∧ readBack (t.trace.drop s.trace.length) =
      [([0x01#8], s.cfg.init.drv), ([0x0C#8], s.cfg.init.boost), ([0x2C#8], s.cfg.init.vcom),
       ([0x3A#8], s.cfg.init.dummy), ([0x3B#8], s.cfg.init.gate), ([0x11#8], [dem s.cfg.orient]),
       ([0x32#8], lut s.cfg), ([0x44#8], w.ramX), ([0x45#8], w.ramY), ([0x4E#8], w.ctrX), ([0x4F#8], w.ctrY)]) ∧
    (∃ t, exec .writeImage s = .next t ∧ readBack (t.trace.drop s.trace.length) =
      [([0x44#8], w.ramX), ([0x45#8], w.ramY), ([0x4E#8], w.ctrX), ([0x4F#8], w.ctrY), ([0x24#8], s.image)]) ∧
    (∃ t, exec .update s = .next t ∧ readBack (t.trace.drop s.trace.length) =
      [([0x22#8], [0xC4#8]), ([0x20#8], []), ([0xFF#8], [])])

/-! ### The whole machine -/

/-- Construction meets the invariant, for every configuration (10_state.md R37, decisions D3 and D4). -/
def Obligations.ConstructionMeetsTheInvariant : Prop :=
  (∀ cfg : Cfg, (State.construct cfg).Inv) ∧ State.reset.Inv

/-- Every step keeps the invariant, from every state that has it: the framebuffer canonical, whole frames and whole reset
pulses on the bus, suspension in a busy wait only, no transfer state left behind, each busy wait counting from 0 the busy
polls in a row that the trace ends in, below the bound, a fault only where its cause can be and with that count, every
poll counted, the table selected at construction the one of the mode (42_transfer.md R142 and R145, 20_memory.md R55,
10_state.md R24 and R30, 60_exceptions.md R180, R182 and R184; log 3, log 4, log 5, log 21). -/
def Obligations.EveryStepKeepsTheInvariant : Prop :=
  ∀ s t : State, s.Inv → step s = .next t → t.Inv

/-- In every state with the invariant, the reset line was held low for at least 10 ms before each rising edge, and the
first frame after a rising edge comes at least 10 ms later (70_reset_and_hazards.md R206). -/
def Obligations.ResetPulsesKeepTheirSettleTimes : Prop :=
  ∀ s : State, s.Inv →
    (∀ before between after : List Event,
      s.trace = before ++ .rstLow :: (between ++ .rstHigh :: after) → .rstHigh ∉ between → 10 ≤ leastMs between) ∧
    (∀ before between after : List Event,
      s.trace = before ++ .rstHigh :: (between ++ .csLow :: after) → .csLow ∉ between → 10 ≤ leastMs between)

/-- In every state with the invariant, each falling chip-select is followed by one data/command level, one write and the
rising chip-select; levels, writes and rising edges occur with chip-select low only, and polls, pauses and reset edges
never do (42_transfer.md R145, derived there). -/
def Obligations.FramesAreWhole : Prop :=
  ∀ s : State, s.Inv → ∀ (before after : List Event) (e : Event), s.trace = before ++ e :: after →
    (e = .csLow → ∃ d bs rest, after = d :: .write bs :: .csHigh :: rest ∧ (d = .dcCmd ∨ d = .dcData)) ∧
    ((e = .dcCmd ∨ e = .dcData ∨ e = .csHigh ∨ ∃ bs, e = .write bs) → chipSelectLevel before = some false) ∧
    ((e = .csLow ∨ e = .rstLow ∨ e = .rstHigh ∨ (∃ b, e = .poll b) ∨ ∃ ms, e = .sleep ms) →
      chipSelectLevel before ≠ some false)

/-- A step only adds to the trace and to what the host has received, takes issues from the front of the program only, and
changes neither the configuration nor the table selected from it (10_state.md R33, decision D45, with R20, R23 and R24;
log 2, log 11, log 21). -/
def Obligations.HistoryOnlyGrows : Prop :=
  ∀ s t : State, step s = .next t →
    (∃ es, t.trace = s.trace ++ es) ∧ (∃ rs, t.results = s.results ++ rs) ∧
    (∃ is, s.program = is ++ t.program) ∧ t.cfg = s.cfg ∧ t.selectedLut = s.selectedLut

/-- What an instruction leaves unchanged, at once and, where the host has issued nothing after it, in every later step
of its run, whatever the panel answers: the configuration, the table selected at construction (log 21) and the program
always; the framebuffer unless it is one of the operations that R26 lists; the trace and the panel unless it transfers or
is `reset`; the protocol state unless R30 has it written; no fault unless it transfers or is `text`. While it waits, and
where a wait has raised the fault, the protocol state is the one that the operation set on its way in, and each byte of
`fullRefresh` is black or each is white (10_state.md R21, R26, R28 and R30, decision D6; 60_exceptions.md R180 and R184,
decisions D32 and D33). -/
def Obligations.InstructionsChangeOnlyTheirOwnState : Prop :=
  ∀ (i : Instr) (s t u : State) (k : Nat), exec i s = .next t → (k = 0 ∨ s.program = []) → stepsTo k t u →
    u.cfg = s.cfg ∧ u.program = s.program ∧
    (draws i = false → u.fb = s.fb) ∧
    (transfers i = false → i ≠ .reset → u.trace = s.trace) ∧
    (transfers i = false → u.panel = s.panel ∧ u.polls = s.polls ∧ u.pending = []) ∧
    (movesProtocol i = false → u.pstate = s.pstate) ∧
    (transfers i = false → (∀ str x y c, i ≠ .text str x y c) → u.fault = none) ∧
    u.selectedLut = s.selectedLut ∧
    (u.pending ≠ [] ∨ (∃ n, u.fault = some (.deviceUnresponsive n)) →
      (i ≠ .fullRefresh → u.pstate = waitsIn i s.pstate) ∧
      (i = .fullRefresh →
        (u.pstate = waitsIn .writeImage s.pstate ∨ u.pstate = waitsIn .update s.pstate) ∧
        ((∀ a, a < 4736 → u.byteAt a = 0x00#8) ∨ ∀ a, a < 4736 → u.byteAt a = 0xFF#8)))

/-- The protocol state decides nothing: from two states that differ in it alone, a step has the same outcome, its next
states differing in it alone (10_state.md R31, decision D5). -/
def Obligations.ProtocolStateDecidesNothing : Prop :=
  ∀ (s : State) (p : PState),
    (∀ t, step s = .next t → ∃ q, step { s with pstate := p } = .next { t with pstate := q }) ∧
    (∀ f, step s = .fault f → step { s with pstate := p } = .fault f) ∧
    (∀ r, step s = .refused r → step { s with pstate := p } = .refused r)

/-- Of the operations `init` alone reads the refresh mode: any other does the same under either mode (43_controller.md
R168, decision D30). The command row WRITE_LUT reads no mode either, but sends the copy of `LUT(mode)` made at
construction, which is kept here while the mode is changed; a core constructed in the other mode sends the other table
(log 1, log 21). -/
def Obligations.RefreshModeIsReadOnlyByInit : Prop :=
  ∀ (i : Instr) (s t : State) (m : RefreshMode), exec i s = .next t → i ≠ .init →
    exec i { s with cfg := { s.cfg with mode := m } } = .next { t with cfg := { t.cfg with mode := m } }

/-- An operation ends without `DeviceUnresponsive` exactly where the panel meets `PanelEventuallyIdle`, with a bound on
polling where each wait meets fewer busy answers than it: then its run sends exactly the frames that it sends to an idle
panel, however often the panel is busy in between, has one result for the host and no fault but that of `text`, and takes
no more steps than the panel gives answers up to the idle one of the last wait; without it the run never so ends
(70_reset_and_hazards.md R207 and R208, 42_transfer.md R142 to R144, 60_exceptions.md R182, decisions D21 and D36; the
steps are log 3, a command row as an operation is log 1). -/
def Obligations.EveryOperationEndsOnAFairPanel : Prop :=
  ∀ (i : Instr) (s : State), s.Ready →
    (s.PanelEventuallyIdle i →
      ∃ t u k es r, exec i s = .next t ∧ stepsTo k t u ∧ u.pending = [] ∧ u.results = s.results ++ [r] ∧
        (u.fault = none ∨ ∃ d, u.fault = some (.glyphNotFound d)) ∧
        u.trace = s.trace ++ es ∧ framesOf es = sentFrames s i ∧
        ∀ m, busyWaits s i ≤ s.idleAmong m → k ≤ m) ∧
    ∀ t u k, exec i s = .next t → stepsTo k t u → u.pending = [] → (∀ n, u.fault ≠ some (.deviceUnresponsive n)) →
      s.PanelEventuallyIdle i

/-- A step that leaves an operation in progress, where it did anything at all, ended with a busy poll and its 10 ms
pause: the busy wait is the only suspension point (20_memory.md R55; log 3). -/
def Obligations.SuspensionOnlyAfterABusyPoll : Prop :=
  ∀ s t : State, step s = .next t → t.pending ≠ [] →
    ∃ es n rest, t.trace = es ++ [.poll true, .sleep 10] ∧ t.pending = .wait (n + 1) :: rest ∧ t.fault = none

/-- The polls a step emits carry the panel's next answers, in order, each answer used once (00_scope.md R16, 92_eei_decisions.md
D36; log 4). The invariant rules out suspended statements that no operation has. -/
def Obligations.PollsCarryThePanelsAnswers : Prop :=
  ∀ s t : State, s.Inv → step s = .next t → ∃ es p, t.trace = s.trace ++ es ∧
    (es.filterMap fun e => match e with | .poll b => some b | _ => none) = (List.range p).map s.answer ∧
    t.panel = s.panel.drop p ∧ t.polls = s.polls + p

/-- Every command frame that the run of an operation sends, at once or, where the host has issued nothing after it, in any
later step, carries one byte, and it is one of the 15 listed codes; the host's own `writeCommand` and `writeData` send
what the host gives (30_encoding.md R62 and R66, decisions D23 and D39; the steps are log 3). -/
def Obligations.OperationsSendOnlyListedCodes : Prop :=
  ∀ (i : Instr) (s t u : State) (k : Nat) (bs : List Byte), exec i s = .next t → (k = 0 ∨ s.program = []) →
    stepsTo k t u → (∀ b, i ≠ .writeCommand b) → (∀ b, i ≠ .writeData b) →
    (false, bs) ∈ framesOf (u.trace.drop s.trace.length) →
    bs ∈ [[0x01#8], [0x0C#8], [0x11#8], [0x20#8], [0x22#8], [0x24#8], [0x2C#8], [0x32#8], [0x3A#8], [0x3B#8], [0x44#8],
      [0x45#8], [0x4E#8], [0x4F#8], [0xFF#8]]

/-- The two readings of `LINE_Y` differ at the end of `line 0, 0, 7, 61, c`: 61 in exact arithmetic, 60 in binary64
(41_raster.md R114, decision D12; log 9). -/
def Obligations.BinaryLineMissesItsEndPoint : Prop :=
  lineY .exact 0 0 7 61 7 = 61 ∧ lineY .binary64 0 0 7 61 7 = 60

/-- `init` alone reads the waveform tables, and it reads only the one of the mode; no instruction reads the other
(10_state.md R28; the command row WRITE_LUT sends the copy made at construction, log 1, log 21). -/
def Obligations.WaveformTablesAreReadOnlyByInit : Prop :=
  ∀ (i : Instr) (s t : State) (full part : Vector Byte 30), exec i s = .next t →
    (i ≠ .init →
      exec i { s with cfg := { s.cfg with lutFull := full, lutPartial := part } } =
        .next { t with cfg := { t.cfg with lutFull := full, lutPartial := part } }) ∧
    (s.cfg.mode = .full →
      exec i { s with cfg := { s.cfg with lutPartial := part } } =
        .next { t with cfg := { t.cfg with lutPartial := part } }) ∧
    (s.cfg.mode = .partialRefresh →
      exec i { s with cfg := { s.cfg with lutFull := full } } = .next { t with cfg := { t.cfg with lutFull := full } })

/-- Busy answers of the panel, with a bound on polling fewer of them in each wait than it, add polls and pauses to a run
and nothing else: where the run ends, the state is the one that the same instruction leaves in one step on an idle panel,
but for the panel's answers taken, and the trace without its busy polls and their pauses is that step's trace
(42_transfer.md R142 to R144, 60_exceptions.md R182, decisions D20 and D21; log 3). -/
def Obligations.BusyAnswersAddOnlyPolls : Prop :=
  ∀ (i : Instr) (s : State), s.Ready → s.PanelEventuallyIdle i →
    ∃ t u v k es, exec i s = .next t ∧ stepsTo k t u ∧ u.pending = [] ∧
      exec i { s with panel := List.replicate 28 false } = .next v ∧
      u = { v with trace := s.trace ++ es, panel := u.panel, polls := u.polls } ∧
      v.trace = s.trace ++ withoutBusy es
end

