-- ==== Sys2Proof/Laws/Arith.lean ====
section
/-! SUPPORT. The integer primitives of 00_scope.md R15: ranges, floor division, integer square
roots, and the binary64 root of 41_raster.md R127. -/

namespace Sys2Proof.Machine

/-! ### Ranges -/

theorem mem_rangeFrom {a n x : Int} : x ∈ rangeFrom a n ↔ a ≤ x ∧ x < a + n := by
  unfold rangeFrom
  rw [List.mem_map]
  constructor
  · rintro ⟨i, hi, rfl⟩
    rw [List.mem_range] at hi
    omega
  · rintro ⟨h1, h2⟩
    exact ⟨(x - a).toNat, by rw [List.mem_range]; omega, by omega⟩

theorem mem_interval {a b x : Int} : x ∈ interval a b ↔ a ≤ x ∧ x ≤ b := by
  unfold interval
  rw [mem_rangeFrom]
  omega

theorem length_rangeFrom (a n : Int) : (rangeFrom a n).length = n.toNat := by simp [rangeFrom]

theorem rangeFrom_nonpos {a n : Int} (h : n ≤ 0) : rangeFrom a n = [] := by
  have : n.toNat = 0 := by omega
  simp [rangeFrom, this]

/-! ### Floor division -/

/-- `floorDiv(a, b)` is the greatest `q` with `q·b ≤ a`. -/
theorem le_floorDiv {a b q : Int} (hb : 0 < b) : q ≤ floorDiv a b ↔ q * b ≤ a := by
  unfold floorDiv
  rw [Int.fdiv_eq_ediv_of_nonneg _ hb.le]
  exact Int.le_ediv_iff_mul_le hb

theorem floorDiv_mul_le {a b : Int} (hb : 0 < b) : floorDiv a b * b ≤ a := (le_floorDiv hb).mp le_rfl

theorem lt_floorDiv_add_one_mul {a b : Int} (hb : 0 < b) : a < (floorDiv a b + 1) * b := by
  by_contra h
  have := (le_floorDiv hb).mpr (not_lt.mp h)
  omega

theorem floorDiv_eq_iff {a b q : Int} (hb : 0 < b) : floorDiv a b = q ↔ q * b ≤ a ∧ a < (q + 1) * b := by
  constructor
  · rintro rfl
    exact ⟨floorDiv_mul_le hb, lt_floorDiv_add_one_mul hb⟩
  · rintro ⟨h1, h2⟩
    refine le_antisymm ?_ ((le_floorDiv hb).mpr h1)
    have h3 := floorDiv_mul_le (a := a) hb
    have h4 : floorDiv a b * b < (q + 1) * b := lt_of_le_of_lt h3 h2
    have := lt_of_mul_lt_mul_right h4 hb.le
    omega

/-- The floor of a negative is the negative of the floor, or 1 less. -/
theorem floorDiv_neg {a b : Int} (hb : 0 < b) :
    floorDiv (-a) b ≤ -floorDiv a b ∧ -floorDiv a b - 1 ≤ floorDiv (-a) b := by
  have h1 := floorDiv_mul_le (a := a) hb
  have h2 := lt_floorDiv_add_one_mul (a := a) hb
  constructor
  · have h3 := floorDiv_mul_le (a := -a) hb
    have h4 : (floorDiv (-a) b + floorDiv a b) * b ≤ 0 := by rw [Int.add_mul]; omega
    by_contra hc
    nlinarith
  · rw [le_floorDiv hb, show (-floorDiv a b - 1) * b = -((floorDiv a b + 1) * b) by ring]
    omega

/-! ### Integer square roots -/

theorem isqrtAux_spec (fuel n : Nat) (h : n < 4 ^ fuel) :
    isqrtAux fuel n * isqrtAux fuel n ≤ n ∧ n < (isqrtAux fuel n + 1) * (isqrtAux fuel n + 1) := by
  induction fuel generalizing n with
  | zero =>
    have : n = 0 := by simpa using h
    simp [isqrtAux, this]
  | succ f ih =>
    obtain ⟨h1, h2⟩ := ih (n / 4) (by rw [pow_succ] at h; omega)
    simp only [isqrtAux]
    generalize isqrtAux f (n / 4) = r at h1 h2
    have e1 : 2 * r * (2 * r) = 4 * (r * r) := by ring
    have e2 : (2 * r + 1 + 1) * (2 * r + 1 + 1) = 4 * ((r + 1) * (r + 1)) := by ring
    split
    · rename_i hle
      exact ⟨hle, by rw [e2]; omega⟩
    · rename_i hgt
      exact ⟨by rw [e1]; omega, not_le.mp hgt⟩

/-- `isqrt(n)` is the greatest `s` with `s² ≤ n` (00_scope.md R15). -/
theorem isqrt_spec (n : Nat) : isqrt n * isqrt n ≤ n ∧ n < (isqrt n + 1) * (isqrt n + 1) := by
  apply isqrtAux_spec
  calc n < 2 ^ (n.log2 + 1) := Nat.lt_log2_self
    _ ≤ 4 ^ (n.log2 + 1) := Nat.pow_le_pow_left (by norm_num) _

theorem isqrt_eq_iff {n s : Nat} : isqrt n = s ↔ s * s ≤ n ∧ n < (s + 1) * (s + 1) := by
  constructor
  · rintro rfl
    exact isqrt_spec n
  · rintro ⟨h1, h2⟩
    obtain ⟨h3, h4⟩ := isqrt_spec n
    have a : isqrt n < s + 1 := by nlinarith
    have b : s < isqrt n + 1 := by nlinarith
    omega

/-- `csqrt(n)` is the least `s` with `s² ≥ n` (00_scope.md R15). -/
theorem csqrt_spec (n : Nat) : n ≤ csqrt n * csqrt n ∧ ∀ s, n ≤ s * s → csqrt n ≤ s := by
  obtain ⟨h1, h2⟩ := isqrt_spec n
  unfold csqrt
  split
  · rename_i h
    refine ⟨h.ge, fun s hs => ?_⟩
    by_contra hc
    nlinarith
  · rename_i h
    refine ⟨h2.le, fun s hs => ?_⟩
    by_contra hc
    have : s ≤ isqrt n := by omega
    have : s * s ≤ isqrt n * isqrt n := Nat.mul_le_mul this this
    omega

theorem csqrt_eq_iff {n s : Nat} : csqrt n = s ↔ n ≤ s * s ∧ ∀ t, n ≤ t * t → s ≤ t := by
  constructor
  · rintro rfl
    exact csqrt_spec n
  · rintro ⟨h1, h2⟩
    obtain ⟨h3, h4⟩ := csqrt_spec n
    exact le_antisymm (h4 s h1) (h2 _ h3)

/-! ### The binary64 root (41_raster.md R127) -/

/-- Rounding to nearest is off by half a unit at most. -/
theorem roundHalfEven_spec (a : Nat) {b : Nat} (hb : 0 < b) :
    2 * (roundHalfEven a b * b) ≤ 2 * a + b ∧ 2 * a ≤ 2 * (roundHalfEven a b * b) + b := by
  have h := Nat.div_add_mod' a b
  have hm := Nat.mod_lt a hb
  unfold roundHalfEven
  split_ifs <;> (try rw [Nat.add_mul, Nat.one_mul]) <;> omega

/-- A fraction whose floor of the logarithm is known and at most 52 rounds to that many bits less than 52 after the
point. -/
theorem binary64_eq {num den e : Nat} (hn : 0 < num) (hl : floorLog2 num den = 52 - (e : Int)) (he : e ≤ 1074)
    (hm : roundHalfEven (num * 2 ^ e) den < 2 ^ 200) :
    binary64 num den = some (((roundHalfEven (num * 2 ^ e) den : Nat) : Int), 2 ^ e) := by
  have hq : max (floorLog2 num den - 52) (-1074) = -(e : Int) := by omega
  have h0 : (num : Int) ≠ 0 := by omega
  have hs : (num : Int).sign = 1 := Int.sign_eq_one_of_pos (by omega)
  have e1 : (- -(e : Int)).toNat = e := by omega
  have e2 : (-(e : Int)).toNat = 0 := by omega
  unfold binary64
  rw [if_neg h0]
  simp only [Int.natAbs_natCast, hq, e1, e2, pow_zero, Nat.mul_one, hs, Int.one_mul]
  have hlog : (roundHalfEven (num * 2 ^ e) den).log2 < 200 := by
    rcases Nat.eq_zero_or_pos (roundHalfEven (num * 2 ^ e) den) with h | h
    · rw [h]; decide
    · exact (Nat.log2_lt h.ne').mpr hm
  rw [if_neg (by omega)]

/-- The floor of the logarithm of a number over a power of two that it is at least. -/
theorem floorLog2_pow {num k : Nat} (h : 2 ^ k ≤ num) : floorLog2 num (2 ^ k) = (num.log2 : Int) - k := by
  have hn : num ≠ 0 := by have := Nat.two_pow_pos k; omega
  have hk : k ≤ num.log2 := (Nat.le_log2 hn).mpr h
  have e1 : ((num.log2 : Int) - k).toNat = num.log2 - k := by omega
  have e2 : (-((num.log2 : Int) - k)).toNat = 0 := by omega
  unfold floorLog2
  simp only [Nat.log2_two_pow, e1, e2, pow_zero, Nat.mul_one]
  rw [if_pos]
  rw [← pow_add, Nat.add_sub_cancel' hk]
  exact Nat.log2_self_le hn

/-- An integer of at most 53 bits is a binary64 number. -/
theorem binary64_nat {n : Nat} (h1 : 0 < n) (h2 : n < 2 ^ 53) :
    binary64 n 1 = some (((n * 2 ^ (52 - n.log2) : Nat) : Int), 2 ^ (52 - n.log2)) := by
  have hl : n.log2 < 53 := (Nat.log2_lt (by omega)).mpr h2
  have hr : ∀ a, roundHalfEven a 1 = a := fun a => by
    have := roundHalfEven_spec a (b := 1) (by omega)
    omega
  have hle : n * 2 ^ (52 - n.log2) ≤ 2 ^ 53 * 2 ^ 52 :=
    Nat.mul_le_mul h2.le (Nat.pow_le_pow_right (by norm_num) (by omega))
  have key := binary64_eq (num := n) (den := 1) (e := 52 - n.log2) h1
    (by rw [← pow_zero 2, floorLog2_pow (by rw [pow_zero]; exact h1)]; omega) (by omega) (by rw [hr]; omega)
  rwa [hr] at key

/-- The root of a number below 90000 that is no square is away from the integers on both sides of it: its 64 bits after
the point show that. -/
theorem isqrt_scaled_between {n r s b : Nat} (hr : r < 300) (hb : b ≤ 1) (h1 : r * r < n) (h2 : n < (r + 1) * (r + 1))
    (s1 : s * s ≤ n * 4 ^ 64) (s2 : n * 4 ^ 64 < (s + 1) * (s + 1)) :
    r * 2 ^ 65 + 2 ^ 50 ≤ 2 * s + b ∧ 2 * s + b + 2 ^ 50 ≤ (r + 1) * 2 ^ 65 := by
  constructor
  · by_contra hc
    have hle : s + 1 ≤ r * 2 ^ 64 + 2 ^ 50 := by omega
    have h3 := Nat.mul_le_mul hle hle
    rw [show (r * 2 ^ 64 + 2 ^ 50) * (r * 2 ^ 64 + 2 ^ 50) = r * r * 2 ^ 128 + r * 2 ^ 115 + 2 ^ 100 by ring] at h3
    omega
  · by_contra hc
    have hle : r * 2 ^ 64 + (2 ^ 64 - 2 ^ 50) ≤ s := by omega
    have h3 := Nat.mul_le_mul hle hle
    rw [show (r * 2 ^ 64 + (2 ^ 64 - 2 ^ 50)) * (r * 2 ^ 64 + (2 ^ 64 - 2 ^ 50)) =
      r * r * 2 ^ 128 + r * (2 ^ 65 * (2 ^ 64 - 2 ^ 50)) + (2 ^ 64 - 2 ^ 50) * (2 ^ 64 - 2 ^ 50) by ring] at h3
    rw [show (r + 1) * (r + 1) = r * r + 2 * r + 1 by ring] at h2
    omega

/-- A number rounded to the grid of `1 / E` stays between the integers it is away from. -/
theorem rounded_between {r N m E : Nat} (hE : 2 ^ 44 ≤ E) (h1 : r * 2 ^ 65 + 2 ^ 50 ≤ N)
    (h2 : N + 2 ^ 50 ≤ (r + 1) * 2 ^ 65) (m1 : 2 * (m * 2 ^ 65) ≤ 2 * (N * E) + 2 ^ 65)
    (m2 : 2 * (N * E) ≤ 2 * (m * 2 ^ 65) + 2 ^ 65) : r * E < m ∧ m < (r + 1) * E := by
  have h3 := Nat.mul_le_mul_right E h1
  have h4 := Nat.mul_le_mul_right E h2
  rw [show (r * 2 ^ 65 + 2 ^ 50) * E = r * E * 2 ^ 65 + 2 ^ 50 * E by ring] at h3
  rw [show (N + 2 ^ 50) * E = N * E + 2 ^ 50 * E by ring,
    show (r + 1) * 2 ^ 65 * E = r * E * 2 ^ 65 + 2 ^ 65 * E by ring] at h4
  rw [show (r + 1) * E = r * E + E by ring]
  omega

/-- For every integer below 90000 the binary64 root, rounded down, is the exact one, and so is its negative. -/
theorem sqrt64_floor {n : Nat} (h : n < 90000) : ∃ p, sqrt64 n = some p ∧ floorDiv p.1 p.2 = isqrt n ∧
    floorDiv (-p.1) p.2 = -(csqrt n : Int) := by
  rcases Nat.eq_zero_or_pos n with rfl | hpos
  · exact ⟨(0, 1), by decide +kernel, by decide +kernel, by decide +kernel⟩
  obtain ⟨r1, r2⟩ := isqrt_spec n
  obtain ⟨s1, s2⟩ := isqrt_spec (n * 4 ^ 64)
  obtain ⟨s, hs⟩ : ∃ s, isqrt (n * 4 ^ 64) = s := ⟨_, rfl⟩
  obtain ⟨b, hb⟩ : ∃ b, b = if s * s = n * 4 ^ 64 then 0 else 1 := ⟨_, rfl⟩
  have hb1 : b ≤ 1 := by rw [hb]; split <;> omega
  have hsq : isqrt n * isqrt n = n → s = isqrt n * 2 ^ 64 := fun hq => by
    rw [← hs]
    refine isqrt_eq_iff.mpr ⟨?_, ?_⟩
    · rw [show isqrt n * 2 ^ 64 * (isqrt n * 2 ^ 64) = isqrt n * isqrt n * 4 ^ 64 by ring, hq]
    · rw [show (isqrt n * 2 ^ 64 + 1) * (isqrt n * 2 ^ 64 + 1) =
        isqrt n * isqrt n * 4 ^ 64 + 2 ^ 65 * isqrt n + 1 by ring, hq]
      omega
  have hc : csqrt n = if isqrt n * isqrt n = n then isqrt n else isqrt n + 1 := rfl
  generalize isqrt n = r at r1 r2 hc hsq ⊢
  rw [hs] at s1 s2
  have hr0 : 1 ≤ r := by by_contra hc; interval_cases r; omega
  have hr : r < 300 := by
    by_contra hc
    have := Nat.mul_le_mul (not_lt.mp hc) (not_lt.mp hc)
    omega
  have hgap : r * r ≠ n → r * 2 ^ 65 + 2 ^ 50 ≤ 2 * s + b ∧ 2 * s + b + 2 ^ 50 ≤ (r + 1) * 2 ^ 65 := fun hq =>
    isqrt_scaled_between hr hb1 (by omega) r2 s1 s2
  have hsize : r * 2 ^ 65 ≤ 2 * s + b ∧ 2 * s + b ≤ (r + 1) * 2 ^ 65 := by
    by_cases hq : r * r = n
    · have := hsq hq
      omega
    · obtain ⟨g1, g2⟩ := hgap hq
      exact ⟨le_trans (Nat.le_add_right ..) g1, le_trans (Nat.le_add_right ..) g2⟩
  have hN : 2 ^ 65 ≤ 2 * s + b := by omega
  have hN0 : 2 * s + b ≠ 0 := by omega
  have hlog1 : 65 ≤ (2 * s + b).log2 := (Nat.le_log2 hN0).mpr hN
  have hlog2 : (2 * s + b).log2 < 74 := (Nat.log2_lt hN0).mpr (by omega)
  obtain ⟨e, he⟩ : ∃ e, e = 52 - ((2 * s + b).log2 - 65) := ⟨_, rfl⟩
  obtain ⟨m1, m2⟩ := roundHalfEven_spec ((2 * s + b) * 2 ^ e) (Nat.two_pow_pos 65)
  have hE : 2 ^ 44 ≤ 2 ^ e := Nat.pow_le_pow_right (by norm_num) (by omega)
  have hE2 : 2 ^ e ≤ 2 ^ 52 := Nat.pow_le_pow_right (by norm_num) (by omega)
  have h3 : (2 * s + b) * 2 ^ e ≤ 2 ^ 74 * 2 ^ 52 := Nat.mul_le_mul (by omega) hE2
  have hb64 := binary64_eq (num := 2 * s + b) (den := 2 ^ 65) (e := e) (by omega) (by rw [floorLog2_pow hN]; omega)
    (by omega) (by omega)
  have hval : sqrt64 n = binary64 ((2 * s + b : Nat) : Int) (2 ^ 65) := by
    unfold sqrt64
    rw [binary64_nat hpos (by omega)]
    simp only [Int.toNat_natCast, Nat.mul_div_cancel _ (Nat.two_pow_pos _), hs]
    rw [hb]
    congr 1
    split_ifs <;> push_cast <;> ring
  refine ⟨_, hval.trans hb64, ?_⟩
  have hE' : (0 : Int) < ((2 ^ e : Nat) : Int) := by exact_mod_cast Nat.two_pow_pos e
  generalize roundHalfEven ((2 * s + b) * 2 ^ e) (2 ^ 65) = m at m1 m2
  generalize 2 ^ e = E at m1 m2 hE hE' ⊢
  simp only [floorDiv_eq_iff hE', hc]
  split_ifs with hq
  · have hb0 : b = 0 := by
      rw [hb, if_pos]
      rw [hsq hq, ← hq]
      ring
    have e1 : 2 * s + b = r * 2 ^ 65 := by have := hsq hq; omega
    rw [e1, Nat.mul_right_comm] at m1 m2
    obtain rfl : m = r * E := by omega
    push_cast
    refine ⟨⟨le_rfl, ?_⟩, ?_, ?_⟩ <;> linarith
  · obtain ⟨g1, g2⟩ := hgap hq
    obtain ⟨k1, k2⟩ := rounded_between hE g1 g2 m1 m2
    have k1' : (r : Int) * E < m := by exact_mod_cast k1
    have k2' : (m : Int) < (r + 1) * E := by exact_mod_cast k2
    push_cast
    refine ⟨⟨k1'.le, k2'⟩, ?_, ?_⟩ <;> linarith

/-- `floor(k + sqrt(n))` and `floor(k - sqrt(n))` are the same in binary64 and in exact arithmetic wherever `n` is a
root of a circle of radius below 300. -/
theorem root_binary64 {n : Nat} (h : n < 90000) (k : Int) :
    rootPlus .binary64 k n = rootPlus .exact k n ∧ rootMinus .binary64 k n = rootMinus .exact k n := by
  obtain ⟨p, h1, h2, h3⟩ := sqrt64_floor h
  have e : rootBinary64 n = p := by rw [rootBinary64, h1]
  constructor
  · rw [rootPlus, rootPlus, e, floorPlus, h2]
  · rw [rootMinus, rootMinus, e, floorMinus, h3]
    rfl

end Sys2Proof.Machine
end

