-- ==== Sys2Proof/Laws/Codec.lean ====
section
/-! SUPPORT. The textual syntax of 30_encoding.md R87: what each printer writes, its parser reads back, with whatever
follows left over. -/

namespace Sys2Proof

/-! ### Beginnings -/

theorem stripBegin_append (p r : List Char) : stripBegin p (p ++ r) = some r := by
  induction p with
  | nil => cases r <;> rfl
  | cons c p ih => simp [stripBegin, ih]

theorem stripBegin_head_ne {p c : Char} {ps cs : List Char} (h : p ≠ c) : stripBegin (p :: ps) (c :: cs) = none := by
  simp [stripBegin, h]

/-- What may follow an operand: nothing, a comma, or a closing bracket. -/
def Delimited (r : List Char) : Prop := ∀ c t, r = c :: t → c = ',' ∨ c = ']'

theorem delimited_nil : Delimited [] := fun _ _ h => by cases h
theorem delimited_comma (t : List Char) : Delimited (',' :: t) := fun _ _ h => by cases h; exact .inl rfl
theorem delimited_bracket (t : List Char) : Delimited (']' :: t) := fun _ _ h => by cases h; exact .inr rfl

/-! ### Numbers -/

theorem digitVal_digitChar {d : Nat} (h : d < 10) : digitVal 10 (digitChar d) = some d := by
  interval_cases d <;> decide

theorem digitVal_hex {d : Nat} (h : d < 16) : digitVal 16 (digitChar d) = some d := by
  interval_cases d <;> decide

theorem digitChar_ne_x {d : Nat} (h : d < 10) : digitChar d ≠ 'x' := by
  interval_cases d <;> decide

theorem digitChar_ne_minus {d : Nat} (h : d < 10) : digitChar d ≠ '-' := by
  interval_cases d <;> decide

/-- The printed digits: a non-empty list of decimal digits in front of `acc`. -/
theorem decimalAux_digits (fuel n : Nat) (acc : List Char) (h : 0 < fuel) :
    ∃ (d : Nat) (ds : List Nat), d < 10 ∧ (∀ e ∈ ds, e < 10) ∧
      decimalAux fuel n acc = digitChar d :: (ds.map digitChar ++ acc) := by
  induction fuel generalizing n acc with
  | zero => omega
  | succ f ih =>
    unfold decimalAux
    split
    · rename_i hn
      exact ⟨n, [], hn, by simp, by simp⟩
    · rcases Nat.eq_zero_or_pos f with rfl | hf
      · exact ⟨n % 10, [], Nat.mod_lt _ (by omega), by simp, by simp [decimalAux]⟩
      · obtain ⟨d, ds, hd, hds, e⟩ := ih (n / 10) (digitChar (n % 10) :: acc) hf
        refine ⟨d, ds ++ [n % 10], hd, ?_, by simp [e]⟩
        intro e' he'
        rcases List.mem_append.mp he' with h' | h'
        · exact hds e' h'
        · simp at h'; subst h'; exact Nat.mod_lt _ (by omega)

theorem decimalAux_append (fuel n : Nat) (acc r : List Char) :
    decimalAux fuel n acc ++ r = decimalAux fuel n (acc ++ r) := by
  induction fuel generalizing n acc with
  | zero => rfl
  | succ f ih =>
    unfold decimalAux
    split
    · simp
    · rw [ih]; simp

theorem digitsFrom_digit {base a d : Nat} {c : Char} {cs : List Char} (h : digitVal base c = some d) :
    digitsFrom base a (c :: cs) = digitsFrom base (a * base + d) cs := by
  simp [digitsFrom, h]

theorem digitsFrom_delimited {base a : Nat} {r : List Char} (h : Delimited r) :
    digitsFrom base a r = (a, r) := by
  cases r with
  | nil => rfl
  | cons c t =>
    have hv : digitVal base c = none := by
      rcases h c t rfl with rfl | rfl <;> simp [digitVal]
    simp [digitsFrom, hv]

theorem digitsFrom_decimal (fuel n : Nat) (acc : List Char) (h : n < fuel) :
    digitsFrom 10 0 (decimalAux fuel n acc) = digitsFrom 10 n acc := by
  induction fuel generalizing n acc with
  | zero => omega
  | succ f ih =>
    unfold decimalAux
    split
    · rename_i hn
      rw [digitsFrom_digit (digitVal_digitChar hn)]
      simp
    · rw [ih (n / 10) _ (by omega), digitsFrom_digit (digitVal_digitChar (Nat.mod_lt n (by omega)))]
      congr 1
      omega

theorem parseDigits_decimal (n : Nat) (r : List Char) (h : Delimited r) :
    parseDigits 10 (decimal n ++ r) = some (n, r) := by
  unfold decimal
  rw [decimalAux_append, List.nil_append]
  obtain ⟨d, ds, hd, -, e⟩ := decimalAux_digits (n + 1) n r (by omega)
  have h1 := digitsFrom_decimal (n + 1) n r (by omega)
  rw [digitsFrom_delimited h, e, digitsFrom_digit (digitVal_digitChar hd)] at h1
  rw [e, parseDigits, digitVal_digitChar hd]
  simp only [Nat.zero_mul, Nat.zero_add] at h1
  simp [h1]

theorem parseNat_decimal (n : Nat) (r : List Char) (h : Delimited r) :
    parseNat (decimal n ++ r) = some (n, r) := by
  have hx : stripBegin ['0', 'x'] (decimal n ++ r) = none := by
    unfold decimal
    rw [decimalAux_append, List.nil_append]
    obtain ⟨d, ds, hd, hds, e⟩ := decimalAux_digits (n + 1) n r (by omega)
    rw [e]
    simp only [stripBegin]
    split
    · cases ds with
      | nil =>
        cases r with
        | nil => rfl
        | cons c t =>
          have : 'x' ≠ c := by rcases h c t rfl with rfl | rfl <;> decide
          simp [stripBegin, this]
      | cons e' es =>
        have : 'x' ≠ digitChar e' := (digitChar_ne_x (hds e' (by simp))).symm
        simp [stripBegin, this]
    · rfl
  rw [parseNat, hx]
  exact parseDigits_decimal n r h

theorem stripBegin_minus_decimal (n : Nat) (r : List Char) : stripBegin ['-'] (decimal n ++ r) = none := by
  unfold decimal
  rw [decimalAux_append]
  obtain ⟨d, ds, hd, -, e⟩ := decimalAux_digits (n + 1) n ([] ++ r) (by omega)
  rw [e]
  exact stripBegin_head_ne (digitChar_ne_minus hd).symm

/-- A printed integer is read back. -/
theorem parseInt_printInt (v : Int) (r : List Char) (h : Delimited r) : parseInt (printInt v ++ r) = some (v, r) := by
  cases v with
  | ofNat n =>
    simp only [printInt, parseInt, stripBegin_minus_decimal, parseNat_decimal n r h]
    rfl
  | negSucc n =>
    have e : stripBegin ['-'] (printInt (.negSucc n) ++ r) = some (decimal (n + 1) ++ r) :=
      stripBegin_append ['-'] _
    rw [parseInt, e]
    simp only [parseNat_decimal (n + 1) r h, Option.map_some]
    rfl

/-- A printed byte is read back. -/
theorem parseInt_printByte (b : Byte) (r : List Char) (h : Delimited r) :
    parseInt (printByte b ++ r) = some ((b.toNat : Int), r) := by
  have hb : b.toNat < 256 := b.isLt
  have e1 : stripBegin ['-'] (printByte b ++ r) = none := stripBegin_head_ne (by decide)
  have e2 : stripBegin ['0', 'x'] (printByte b ++ r) =
      some (digitChar (b.toNat / 16) :: digitChar (b.toNat % 16) :: r) := by
    simp [printByte, stripBegin]
  rw [parseInt, e1]
  simp only [parseNat, e2, parseDigits, digitVal_hex (show b.toNat / 16 < 16 by omega),
    digitsFrom_digit (digitVal_hex (show b.toNat % 16 < 16 by omega)), digitsFrom_delimited h,
    Option.map_some]
  congr 2
  omega

/-! ### Strings, Booleans, byte lists -/

theorem parseString_printed (s r : List Char) (h : writableString s = true) :
    parseString (s ++ quoteChar :: r) = some (s, r) := by
  induction s with
  | nil => simp [parseString]
  | cons c s ih =>
    unfold writableString at h
    rw [List.all_cons, Bool.and_eq_true, Bool.and_eq_true] at h
    obtain ⟨⟨h1, h2⟩, h3⟩ := h
    have h1 : c ≠ quoteChar := by simpa using h1
    have h2 : c ≠ newlineChar := by simpa using h2
    rw [List.cons_append, parseString, if_neg h1, if_neg h2, ih h3]
    rfl

theorem parseFlag_printFlag (b : Bool) (r : List Char) : parseFlag (printFlag b ++ r) = some (b, r) := by
  cases b
  · have e : stripBegin "fill=true".toList ("fill=false".toList ++ r) = none := by simp [stripBegin]
    simp only [parseFlag, printFlag, Bool.false_eq_true, if_false, e, stripBegin_append, Option.map_some]
  · simp only [parseFlag, printFlag, if_true, stripBegin_append]

theorem parseEntries_printed (b : Byte) (bs : List Byte) (r : List Char) (fuel : Nat) (hf : bs.length < fuel) :
    parseEntries fuel (joinComma ((b :: bs).map printByte) ++ (']' :: r)) =
      some ((b :: bs).map fun b => (b.toNat : Int), r) := by
  induction bs generalizing b fuel with
  | nil =>
    obtain ⟨f, rfl⟩ : ∃ f, fuel = f + 1 := ⟨fuel - 1, by simp at hf; omega⟩
    simp only [List.map_cons, List.map_nil, joinComma, parseEntries,
      parseInt_printByte b (']' :: r) (delimited_bracket r)]
    simp [stripBegin]
  | cons b' bs ih =>
    obtain ⟨f, rfl⟩ : ∃ f, fuel = f + 1 := ⟨fuel - 1, by simp at hf; omega⟩
    have e : joinComma ((b :: b' :: bs).map printByte) ++ (']' :: r) =
        printByte b ++ (',' :: ' ' :: (joinComma ((b' :: bs).map printByte) ++ (']' :: r))) := by
      simp [joinComma]
    have ih' := ih b' f (by simp at hf; omega)
    rw [e, parseEntries, parseInt_printByte b _ (delimited_comma _)]
    simp only [stripBegin_head_ne (show (']' : Char) ≠ ',' by decide)]
    have e2 : stripBegin [',', ' '] (',' :: ' ' :: (joinComma ((b' :: bs).map printByte) ++ (']' :: r))) =
        some (joinComma ((b' :: bs).map printByte) ++ (']' :: r)) := stripBegin_append [',', ' '] _
    rw [e2]
    simp only [ih', Option.map_some]
    rfl

theorem length_joinComma_printByte (bs : List Byte) : bs.length ≤ (joinComma (bs.map printByte)).length := by
  induction bs with
  | nil => simp
  | cons b bs ih =>
    cases bs with
    | nil => simp [joinComma, printByte]
    | cons b' bs =>
      have hb : (printByte b).length = 4 := rfl
      simp only [List.map_cons, joinComma, List.length_append, List.length_cons] at *
      omega

/-- A printed byte list is read back. -/
theorem parseByteList_printed (bs : List Byte) (r : List Char) :
    parseByteList (joinComma (bs.map printByte) ++ (']' :: r)) = some (bs.map fun b => (b.toNat : Int), r) := by
  cases bs with
  | nil => simp [parseByteList, joinComma, stripBegin]
  | cons b bs =>
    have e : stripBegin [']'] (joinComma ((b :: bs).map printByte) ++ (']' :: r)) = none := by
      cases bs <;> exact stripBegin_head_ne (by decide)
    rw [parseByteList, e]
    apply parseEntries_printed
    have := length_joinComma_printByte (b :: bs)
    simp only [List.length_append, List.length_cons] at *
    omega

/-! ### Operands -/

/-- The printed operand and what it stands for. -/
inductive Printed : List Char → RawOperand → Prop where
  | int (v : Int) : Printed (printInt v) (.int v)
  | flag (b : Bool) : Printed (printFlag b) (.flag b)
  | str (s : List Char) (h : writableString s = true) : Printed (printString s) (.str s)
  | bytes (bs : List Byte) : Printed (printBytes bs) (.bytes (bs.map fun b => (b.toNat : Int)))

theorem printInt_head (v : Int) (r : List Char) :
    ∃ c t, printInt v ++ r = c :: t ∧ c ≠ quoteChar ∧ c ≠ '[' ∧ c ≠ 'f' := by
  cases v with
  | ofNat n =>
    simp only [printInt, decimal, decimalAux_append]
    obtain ⟨d, ds, hd, -, e⟩ := decimalAux_digits (n + 1) n ([] ++ r) (by omega)
    rw [e]
    refine ⟨_, _, rfl, ?_⟩
    interval_cases d <;> decide
  | negSucc n => exact ⟨'-', _, rfl, by decide, by decide, by decide⟩

theorem parseOperand_printed {text : List Char} {o : RawOperand} (hp : Printed text o) (r : List Char)
    (h : Delimited r) : parseOperand (text ++ r) = some (o, r) := by
  cases hp with
  | int v =>
    obtain ⟨c, t, e, h1, h2, h3⟩ := printInt_head v r
    have hi := parseInt_printInt v r h
    rw [e] at *
    simp only [parseOperand, stripBegin_head_ne h1.symm, stripBegin_head_ne h2.symm, stripBegin_head_ne h3.symm, hi,
      Option.map_some]
  | flag b =>
    have hf := parseFlag_printFlag b r
    have e : ∃ t, printFlag b ++ r = 'f' :: t := by cases b <;> exact ⟨_, rfl⟩
    obtain ⟨t, e⟩ := e
    rw [e] at hf ⊢
    simp only [parseOperand, stripBegin_head_ne (show quoteChar ≠ 'f' by decide),
      stripBegin_head_ne (show ('[' : Char) ≠ 'f' by decide), show stripBegin ['f'] ('f' :: t) = some t from
      stripBegin_append ['f'] t, hf, Option.map_some]
  | str s hs =>
    have e : stripBegin [quoteChar] (printString s ++ r) = some (s ++ quoteChar :: r) := by
      simp [printString, stripBegin]
    simp only [parseOperand, e, parseString_printed s r hs, Option.map_some]
  | bytes bs =>
    have e0 : printBytes bs ++ r = '[' :: (joinComma (bs.map printByte) ++ (']' :: r)) := by simp [printBytes]
    rw [e0]
    simp only [parseOperand, stripBegin_head_ne (show quoteChar ≠ '[' by decide),
      show ∀ t, stripBegin ['['] ('[' :: t) = some t from fun t => stripBegin_append ['['] t,
      parseByteList_printed bs r, Option.map_some]

/-- Printed operands, separated by `, `, are read back. -/
theorem parseOperands_printed {texts : List (List Char)} {os : List RawOperand} (hp : List.Forall₂ Printed texts os)
    (hne : texts ≠ []) (fuel : Nat) (hf : texts.length ≤ fuel) :
    parseOperands fuel (joinComma texts) = some (os, []) := by
  induction hp generalizing fuel with
  | nil => exact absurd rfl hne
  | @cons t o ts os hto hrest ih =>
    obtain ⟨f, rfl⟩ : ∃ f, fuel = f + 1 := ⟨fuel - 1, by simp at hf; omega⟩
    cases hrest with
    | nil =>
      have := parseOperand_printed hto [] delimited_nil
      rw [List.append_nil] at this
      simp [joinComma, parseOperands, this, stripBegin]
    | @cons t' o' ts' os' hto' hrest' =>
      have e : joinComma (t :: t' :: ts') = t ++ (',' :: ' ' :: joinComma (t' :: ts')) := rfl
      have ih' := ih (by simp) f (by simp at hf ⊢; omega)
      rw [e, parseOperands, parseOperand_printed hto _ (delimited_comma _)]
      simp only [show ∀ u, stripBegin [',', ' '] (',' :: ' ' :: u) = some u from
        fun u => stripBegin_append [',', ' '] u, ih', Option.map_some]

theorem printed_length {text : List Char} {o : RawOperand} (h : Printed text o) : 1 ≤ text.length := by
  cases h with
  | int v =>
    obtain ⟨c, t, e, -⟩ := printInt_head v []
    rw [List.append_nil] at e
    simp [e]
  | flag b => cases b <;> simp [printFlag]
  | str s _ => simp [printString]
  | bytes bs => simp [printBytes]

theorem length_joinComma {texts : List (List Char)} {os : List RawOperand} (hp : List.Forall₂ Printed texts os) :
    texts.length ≤ (joinComma texts).length := by
  induction hp with
  | nil => simp
  | @cons t o ts os hto hrest ih =>
    have h1 := printed_length hto
    cases hrest with
    | nil => simpa [joinComma] using h1
    | cons _ _ =>
      simp only [joinComma, List.length_append, List.length_cons] at *
      omega

/-- A printed line is read back as its mnemonic and operands. -/
theorem parseLine_printed {name : List Char} (hn : name ≠ []) (hl : name.all isLetter = true)
    {texts : List (List Char)} {os : List RawOperand} (hp : List.Forall₂ Printed texts os) :
    parseLine (printLine name texts) = .ok { mnemonic := name, operands := os } := by
  have htake : ∀ r, (∀ c t, r = c :: t → isLetter c = false) →
      (name ++ r).takeWhile isLetter = name ∧ (name ++ r).dropWhile isLetter = r := by
    intro r hr
    have h0 : r.takeWhile isLetter = [] ∧ r.dropWhile isLetter = r := by
      cases r with
      | nil => simp
      | cons c t => simp [hr c t rfl]
    rw [List.all_eq_true] at hl
    rw [List.takeWhile_append_of_pos hl, List.dropWhile_append_of_pos hl]
    simp [h0]
  cases hp with
  | nil =>
    obtain ⟨h1, h2⟩ := htake [] (fun _ _ h => by cases h)
    rw [List.append_nil] at h1 h2
    simp [printLine, parseLine, h1, h2, hn, lineEnds]
  | @cons t o ts os hto hrest =>
    have hall : List.Forall₂ Printed (t :: ts) (o :: os) := .cons hto hrest
    obtain ⟨h1, h2⟩ := htake (' ' :: joinComma (t :: ts)) (fun c u h => by cases h; decide)
    have h3 : lineEnds (' ' :: joinComma (t :: ts)) = false := by
      have : ∃ c u, joinComma (t :: ts) = c :: u ∧ c ≠ ' ' ∧ c ≠ ';' := by
        have : ∀ r, ∃ c u, t ++ r = c :: u ∧ c ≠ ' ' ∧ c ≠ ';' := by
          intro r
          cases hto with
          | int v =>
            cases v with
            | ofNat n =>
              simp only [printInt, decimal, decimalAux_append]
              obtain ⟨d, ds, hd, -, e⟩ := decimalAux_digits (n + 1) n ([] ++ r) (by omega)
              rw [e]
              refine ⟨_, _, rfl, ?_⟩
              interval_cases d <;> decide
            | negSucc n => exact ⟨'-', _, rfl, by decide, by decide⟩
          | flag b => cases b <;> exact ⟨'f', _, rfl, by decide, by decide⟩
          | str s _ => exact ⟨quoteChar, _, rfl, by decide, by decide⟩
          | bytes bs => exact ⟨'[', _, rfl, by decide, by decide⟩
        cases ts with
        | nil => simpa [joinComma] using this []
        | cons t' ts' => exact this _
      obtain ⟨c, u, e, hc1, hc2⟩ := this
      simp [lineEnds, e, hc1, hc2]
    have h4 := parseOperands_printed hall (by simp) (joinComma (t :: ts)).length (length_joinComma hall)
    have e : printLine name (t :: ts) = name ++ (' ' :: joinComma (t :: ts)) := rfl
    rw [e]
    simp only [parseLine, h1, h2, hn, h3, if_false, Bool.false_eq_true,
      show ∀ u, stripBegin [' '] (' ' :: u) = some u from fun u => stripBegin_append [' '] u, h4, lineEnds, if_true]

/-- The bytes of a printed byte list are the bytes printed. -/
theorem toBytes_toNat (bs : List Byte) : toBytes (bs.map fun b => (b.toNat : Int)) = bs := by
  induction bs with
  | nil => rfl
  | cons b bs ih =>
    unfold toBytes at *
    rw [List.map_cons, List.map_cons, ih]
    congr 1
    apply BitVec.eq_of_toNat_eq
    simp

theorem bytesInRange_toNat (bs : List Byte) : (RawOperand.bytes (bs.map fun b => (b.toNat : Int))).bytesInRange = true := by
  simp only [RawOperand.bytesInRange, List.all_map, List.all_eq_true]
  intro b _
  have := b.isLt
  simp
  omega

end Sys2Proof
end

