-- ==== Sys2Proof/Laws/State.lean ====
section
/-! SUPPORT. What each update of the state does to each field, and that `construct` gives the values of 10_state.md R37:
one lemma per field per update, so that no later proof unfolds a record update. -/

namespace Sys2Proof.Machine

/-! ### `writeByte` -/

@[simp] theorem State.writeByte_cfg (s : State) (a : Nat) (v : Byte) : (s.writeByte a v).cfg = s.cfg := rfl
@[simp] theorem State.writeByte_fb (s : State) (a : Nat) (v : Byte) : (s.writeByte a v).fb = Memory.write s.cfg.fbResetFill s.fb a v := rfl
@[simp] theorem State.writeByte_pstate (s : State) (a : Nat) (v : Byte) : (s.writeByte a v).pstate = s.pstate := rfl
@[simp] theorem State.writeByte_fault (s : State) (a : Nat) (v : Byte) : (s.writeByte a v).fault = s.fault := rfl
@[simp] theorem State.writeByte_trace (s : State) (a : Nat) (v : Byte) : (s.writeByte a v).trace = s.trace := rfl
@[simp] theorem State.writeByte_program (s : State) (a : Nat) (v : Byte) : (s.writeByte a v).program = s.program := rfl
@[simp] theorem State.writeByte_pending (s : State) (a : Nat) (v : Byte) : (s.writeByte a v).pending = s.pending := rfl
@[simp] theorem State.writeByte_panel (s : State) (a : Nat) (v : Byte) : (s.writeByte a v).panel = s.panel := rfl
@[simp] theorem State.writeByte_polls (s : State) (a : Nat) (v : Byte) : (s.writeByte a v).polls = s.polls := rfl
@[simp] theorem State.writeByte_results (s : State) (a : Nat) (v : Byte) : (s.writeByte a v).results = s.results := rfl
@[simp] theorem State.writeByte_selectedLut (s : State) (a : Nat) (v : Byte) : (s.writeByte a v).selectedLut = s.selectedLut := rfl

/-! ### `fillFB` -/

@[simp] theorem State.fillFB_cfg (s : State) (c : Int) : (s.fillFB c).cfg = s.cfg := rfl
@[simp] theorem State.fillFB_fb (s : State) (c : Int) : (s.fillFB c).fb = Memory.fill s.cfg.fbResetFill (fillByte c) := rfl
@[simp] theorem State.fillFB_pstate (s : State) (c : Int) : (s.fillFB c).pstate = s.pstate := rfl
@[simp] theorem State.fillFB_fault (s : State) (c : Int) : (s.fillFB c).fault = s.fault := rfl
@[simp] theorem State.fillFB_trace (s : State) (c : Int) : (s.fillFB c).trace = s.trace := rfl
@[simp] theorem State.fillFB_program (s : State) (c : Int) : (s.fillFB c).program = s.program := rfl
@[simp] theorem State.fillFB_pending (s : State) (c : Int) : (s.fillFB c).pending = s.pending := rfl
@[simp] theorem State.fillFB_panel (s : State) (c : Int) : (s.fillFB c).panel = s.panel := rfl
@[simp] theorem State.fillFB_polls (s : State) (c : Int) : (s.fillFB c).polls = s.polls := rfl
@[simp] theorem State.fillFB_results (s : State) (c : Int) : (s.fillFB c).results = s.results := rfl
@[simp] theorem State.fillFB_selectedLut (s : State) (c : Int) : (s.fillFB c).selectedLut = s.selectedLut := rfl

/-! ### `emit` -/

@[simp] theorem State.emit_cfg (s : State) (e : Event) : (s.emit e).cfg = s.cfg := rfl
@[simp] theorem State.emit_fb (s : State) (e : Event) : (s.emit e).fb = s.fb := rfl
@[simp] theorem State.emit_pstate (s : State) (e : Event) : (s.emit e).pstate = s.pstate := rfl
@[simp] theorem State.emit_fault (s : State) (e : Event) : (s.emit e).fault = s.fault := rfl
@[simp] theorem State.emit_trace (s : State) (e : Event) : (s.emit e).trace = s.trace ++ [e] := rfl
@[simp] theorem State.emit_program (s : State) (e : Event) : (s.emit e).program = s.program := rfl
@[simp] theorem State.emit_pending (s : State) (e : Event) : (s.emit e).pending = s.pending := rfl
@[simp] theorem State.emit_panel (s : State) (e : Event) : (s.emit e).panel = s.panel := rfl
@[simp] theorem State.emit_polls (s : State) (e : Event) : (s.emit e).polls = s.polls := rfl
@[simp] theorem State.emit_results (s : State) (e : Event) : (s.emit e).results = s.results := rfl
@[simp] theorem State.emit_selectedLut (s : State) (e : Event) : (s.emit e).selectedLut = s.selectedLut := rfl

/-! ### `poll` -/

@[simp] theorem State.poll_cfg (s : State) : (s.poll).cfg = s.cfg := rfl
@[simp] theorem State.poll_fb (s : State) : (s.poll).fb = s.fb := rfl
@[simp] theorem State.poll_pstate (s : State) : (s.poll).pstate = s.pstate := rfl
@[simp] theorem State.poll_fault (s : State) : (s.poll).fault = s.fault := rfl
@[simp] theorem State.poll_trace (s : State) : (s.poll).trace = s.trace ++ [.poll (s.answer 0)] := rfl
@[simp] theorem State.poll_program (s : State) : (s.poll).program = s.program := rfl
@[simp] theorem State.poll_pending (s : State) : (s.poll).pending = s.pending := rfl
@[simp] theorem State.poll_panel (s : State) : (s.poll).panel = s.panel.drop 1 := rfl
@[simp] theorem State.poll_polls (s : State) : (s.poll).polls = s.polls + 1 := rfl
@[simp] theorem State.poll_results (s : State) : (s.poll).results = s.results := rfl
@[simp] theorem State.poll_selectedLut (s : State) : (s.poll).selectedLut = s.selectedLut := rfl

/-! ### `reply` -/

@[simp] theorem State.reply_cfg (s : State) (r : Result) : (s.reply r).cfg = s.cfg := rfl
@[simp] theorem State.reply_fb (s : State) (r : Result) : (s.reply r).fb = s.fb := rfl
@[simp] theorem State.reply_pstate (s : State) (r : Result) : (s.reply r).pstate = s.pstate := rfl
@[simp] theorem State.reply_fault (s : State) (r : Result) : (s.reply r).fault = s.fault := rfl
@[simp] theorem State.reply_trace (s : State) (r : Result) : (s.reply r).trace = s.trace := rfl
@[simp] theorem State.reply_program (s : State) (r : Result) : (s.reply r).program = s.program := rfl
@[simp] theorem State.reply_pending (s : State) (r : Result) : (s.reply r).pending = s.pending := rfl
@[simp] theorem State.reply_panel (s : State) (r : Result) : (s.reply r).panel = s.panel := rfl
@[simp] theorem State.reply_polls (s : State) (r : Result) : (s.reply r).polls = s.polls := rfl
@[simp] theorem State.reply_results (s : State) (r : Result) : (s.reply r).results = s.results ++ [r] := rfl
@[simp] theorem State.reply_selectedLut (s : State) (r : Result) : (s.reply r).selectedLut = s.selectedLut := rfl

/-! ### `setPState` -/

@[simp] theorem State.setPState_cfg (s : State) (p : PState) : (s.setPState p).cfg = s.cfg := rfl
@[simp] theorem State.setPState_fb (s : State) (p : PState) : (s.setPState p).fb = s.fb := rfl
@[simp] theorem State.setPState_pstate (s : State) (p : PState) : (s.setPState p).pstate = p := rfl
@[simp] theorem State.setPState_fault (s : State) (p : PState) : (s.setPState p).fault = s.fault := rfl
@[simp] theorem State.setPState_trace (s : State) (p : PState) : (s.setPState p).trace = s.trace := rfl
@[simp] theorem State.setPState_program (s : State) (p : PState) : (s.setPState p).program = s.program := rfl
@[simp] theorem State.setPState_pending (s : State) (p : PState) : (s.setPState p).pending = s.pending := rfl
@[simp] theorem State.setPState_panel (s : State) (p : PState) : (s.setPState p).panel = s.panel := rfl
@[simp] theorem State.setPState_polls (s : State) (p : PState) : (s.setPState p).polls = s.polls := rfl
@[simp] theorem State.setPState_results (s : State) (p : PState) : (s.setPState p).results = s.results := rfl
@[simp] theorem State.setPState_selectedLut (s : State) (p : PState) : (s.setPState p).selectedLut = s.selectedLut := rfl

/-! ### `suspend` -/

@[simp] theorem State.suspend_cfg (s : State) (rest : List Stmt) : (s.suspend rest).cfg = s.cfg := rfl
@[simp] theorem State.suspend_fb (s : State) (rest : List Stmt) : (s.suspend rest).fb = s.fb := rfl
@[simp] theorem State.suspend_pstate (s : State) (rest : List Stmt) : (s.suspend rest).pstate = s.pstate := rfl
@[simp] theorem State.suspend_fault (s : State) (rest : List Stmt) : (s.suspend rest).fault = s.fault := rfl
@[simp] theorem State.suspend_trace (s : State) (rest : List Stmt) : (s.suspend rest).trace = s.trace := rfl
@[simp] theorem State.suspend_program (s : State) (rest : List Stmt) : (s.suspend rest).program = s.program := rfl
@[simp] theorem State.suspend_pending (s : State) (rest : List Stmt) : (s.suspend rest).pending = rest := rfl
@[simp] theorem State.suspend_panel (s : State) (rest : List Stmt) : (s.suspend rest).panel = s.panel := rfl
@[simp] theorem State.suspend_polls (s : State) (rest : List Stmt) : (s.suspend rest).polls = s.polls := rfl
@[simp] theorem State.suspend_results (s : State) (rest : List Stmt) : (s.suspend rest).results = s.results := rfl
@[simp] theorem State.suspend_selectedLut (s : State) (rest : List Stmt) : (s.suspend rest).selectedLut = s.selectedLut := rfl

/-! ### `raise` -/

@[simp] theorem State.raise_cfg (s : State) (f : Fault) : (s.raise f).cfg = s.cfg := rfl
@[simp] theorem State.raise_fb (s : State) (f : Fault) : (s.raise f).fb = s.fb := rfl
@[simp] theorem State.raise_pstate (s : State) (f : Fault) : (s.raise f).pstate = s.pstate := rfl
@[simp] theorem State.raise_fault (s : State) (f : Fault) : (s.raise f).fault = some f := rfl
@[simp] theorem State.raise_trace (s : State) (f : Fault) : (s.raise f).trace = s.trace := rfl
@[simp] theorem State.raise_program (s : State) (f : Fault) : (s.raise f).program = s.program := rfl
@[simp] theorem State.raise_pending (s : State) (f : Fault) : (s.raise f).pending = [] := rfl
@[simp] theorem State.raise_panel (s : State) (f : Fault) : (s.raise f).panel = s.panel := rfl
@[simp] theorem State.raise_polls (s : State) (f : Fault) : (s.raise f).polls = s.polls := rfl
@[simp] theorem State.raise_results (s : State) (f : Fault) : (s.raise f).results = s.results ++ [.fault f] := rfl
@[simp] theorem State.raise_selectedLut (s : State) (f : Fault) : (s.raise f).selectedLut = s.selectedLut := rfl

/-! ### `construct` -/

@[simp] theorem State.construct_cfg (cfg : Cfg) : (State.construct cfg).cfg = cfg := rfl
@[simp] theorem State.construct_fb (cfg : Cfg) : (State.construct cfg).fb = [] := rfl
@[simp] theorem State.construct_pstate (cfg : Cfg) : (State.construct cfg).pstate = .uninitialized := rfl
@[simp] theorem State.construct_fault (cfg : Cfg) : (State.construct cfg).fault = none := rfl
@[simp] theorem State.construct_trace (cfg : Cfg) : (State.construct cfg).trace = [] := rfl
@[simp] theorem State.construct_program (cfg : Cfg) : (State.construct cfg).program = [] := rfl
@[simp] theorem State.construct_pending (cfg : Cfg) : (State.construct cfg).pending = [] := rfl
@[simp] theorem State.construct_panel (cfg : Cfg) : (State.construct cfg).panel = [] := rfl
@[simp] theorem State.construct_polls (cfg : Cfg) : (State.construct cfg).polls = 0 := rfl
@[simp] theorem State.construct_results (cfg : Cfg) : (State.construct cfg).results = [] := rfl
@[simp] theorem State.construct_selectedLut (cfg : Cfg) : (State.construct cfg).selectedLut = lutTable cfg := rfl

/-! ### `setPixel` and `plot`: only the framebuffer changes -/

/-- `setPixel` is a change of the framebuffer alone. -/
theorem State.setPixel_eq (s : State) (x y c : Int) : s.setPixel x y c = { s with fb := (s.setPixel x y c).fb } := by
  unfold State.setPixel
  split <;> rfl

/-- `plot` is a change of the framebuffer alone. -/
theorem State.plot_eq (s : State) (ps : List (Int × Int)) (c : Int) :
    s.plot ps c = { s with fb := (s.plot ps c).fb } := by
  induction ps generalizing s with
  | nil => rfl
  | cons p ps ih =>
    have h : s.plot (p :: ps) c = (s.setPixel p.1 p.2 c).plot ps c := rfl
    rw [h, ih, State.setPixel_eq s p.1 p.2 c]

@[simp] theorem State.setPixel_cfg (s : State) (x y c : Int) : (s.setPixel x y c).cfg = s.cfg := by
  rw [State.setPixel_eq]
@[simp] theorem State.setPixel_pstate (s : State) (x y c : Int) : (s.setPixel x y c).pstate = s.pstate := by
  rw [State.setPixel_eq]
@[simp] theorem State.setPixel_fault (s : State) (x y c : Int) : (s.setPixel x y c).fault = s.fault := by
  rw [State.setPixel_eq]
@[simp] theorem State.setPixel_trace (s : State) (x y c : Int) : (s.setPixel x y c).trace = s.trace := by
  rw [State.setPixel_eq]
@[simp] theorem State.setPixel_program (s : State) (x y c : Int) : (s.setPixel x y c).program = s.program := by
  rw [State.setPixel_eq]
@[simp] theorem State.setPixel_pending (s : State) (x y c : Int) : (s.setPixel x y c).pending = s.pending := by
  rw [State.setPixel_eq]
@[simp] theorem State.setPixel_panel (s : State) (x y c : Int) : (s.setPixel x y c).panel = s.panel := by
  rw [State.setPixel_eq]
@[simp] theorem State.setPixel_polls (s : State) (x y c : Int) : (s.setPixel x y c).polls = s.polls := by
  rw [State.setPixel_eq]
@[simp] theorem State.setPixel_results (s : State) (x y c : Int) : (s.setPixel x y c).results = s.results := by
  rw [State.setPixel_eq]
@[simp] theorem State.setPixel_selectedLut (s : State) (x y c : Int) : (s.setPixel x y c).selectedLut = s.selectedLut := by
  rw [State.setPixel_eq]

@[simp] theorem State.plot_cfg (s : State) (ps : List (Int × Int)) (c : Int) : (s.plot ps c).cfg = s.cfg := by
  rw [State.plot_eq]
@[simp] theorem State.plot_pstate (s : State) (ps : List (Int × Int)) (c : Int) : (s.plot ps c).pstate = s.pstate := by
  rw [State.plot_eq]
@[simp] theorem State.plot_fault (s : State) (ps : List (Int × Int)) (c : Int) : (s.plot ps c).fault = s.fault := by
  rw [State.plot_eq]
@[simp] theorem State.plot_trace (s : State) (ps : List (Int × Int)) (c : Int) : (s.plot ps c).trace = s.trace := by
  rw [State.plot_eq]
@[simp] theorem State.plot_program (s : State) (ps : List (Int × Int)) (c : Int) : (s.plot ps c).program = s.program := by
  rw [State.plot_eq]
@[simp] theorem State.plot_pending (s : State) (ps : List (Int × Int)) (c : Int) : (s.plot ps c).pending = s.pending := by
  rw [State.plot_eq]
@[simp] theorem State.plot_panel (s : State) (ps : List (Int × Int)) (c : Int) : (s.plot ps c).panel = s.panel := by
  rw [State.plot_eq]
@[simp] theorem State.plot_polls (s : State) (ps : List (Int × Int)) (c : Int) : (s.plot ps c).polls = s.polls := by
  rw [State.plot_eq]
@[simp] theorem State.plot_results (s : State) (ps : List (Int × Int)) (c : Int) : (s.plot ps c).results = s.results := by
  rw [State.plot_eq]
@[simp] theorem State.plot_selectedLut (s : State) (ps : List (Int × Int)) (c : Int) : (s.plot ps c).selectedLut = s.selectedLut := by
  rw [State.plot_eq]

end Sys2Proof.Machine
end

