-- ==== Sys2Proof/Laws/Memory.lean ====
section
/-! SUPPORT. The framebuffer as a list of cells: a read after a write, and that every operation keeps the canonical
form (log 5). -/

namespace Sys2Proof.Machine

theorem Memory.lookup_cons (c : Host.Cell) (m : List Host.Cell) (b : Nat) :
    (c :: m).lookup b = if b = c.1 then some c.2 else m.lookup b := by
  obtain ⟨k, v⟩ := c
  by_cases h : b = k
  · simp [h]
  · simp [List.lookup, beq_eq_false_iff_ne.mpr h, h]

theorem Memory.lookup_insert_same (a : Nat) (v : Byte) (m : List Host.Cell) (h : ∀ c ∈ m, c.1 ≠ a) :
    (Memory.insert a v m).lookup a = some v := by
  induction m with
  | nil => simp [Memory.insert]
  | cons c cs ih =>
    unfold Memory.insert
    split
    · simp
    · rw [Memory.lookup_cons, if_neg (Ne.symm (h c (by simp)))]
      exact ih fun d hd => h d (by simp [hd])

theorem Memory.lookup_insert_other (a b : Nat) (v : Byte) (m : List Host.Cell) (h : b ≠ a) :
    (Memory.insert a v m).lookup b = m.lookup b := by
  induction m with
  | nil => simp [Memory.insert, Memory.lookup_cons, h]
  | cons c cs ih =>
    unfold Memory.insert
    split
    · rw [Memory.lookup_cons, if_neg h]
    · rw [Memory.lookup_cons, Memory.lookup_cons, ih]

theorem Memory.lookup_others_same (a : Nat) (m : List Host.Cell) :
    (m.filter fun c => c.1 != a).lookup a = none := by
  induction m with
  | nil => rfl
  | cons c cs ih =>
    by_cases h : c.1 = a
    · simpa [List.filter_cons, h] using ih
    · rw [List.filter_cons_of_pos (by simpa using h), Memory.lookup_cons, if_neg (Ne.symm h), ih]

theorem Memory.lookup_others_other (a b : Nat) (m : List Host.Cell) (h : b ≠ a) :
    (m.filter fun c => c.1 != a).lookup b = m.lookup b := by
  induction m with
  | nil => rfl
  | cons c cs ih =>
    by_cases hc : c.1 = a
    · rw [List.filter_cons_of_neg (by simp [hc]), ih, Memory.lookup_cons, if_neg (by rw [hc]; exact h)]
    · rw [List.filter_cons_of_pos (by simpa using hc), Memory.lookup_cons, Memory.lookup_cons, ih]

/-- A read after a write to the same address gives the value written. -/
@[simp] theorem Memory.read_write_same (bg : Byte) (m : List Host.Cell) (a : Nat) (v : Byte) :
    Memory.read bg (Memory.write bg m a v) a = v := by
  unfold Memory.read Memory.write
  split
  · rename_i h
    rw [Memory.lookup_others_same, h]; rfl
  · rw [Memory.lookup_insert_same]
    · rfl
    · intro c hc
      simpa using (List.mem_filter.mp hc).2

/-- A write leaves every other address alone. -/
theorem Memory.read_write_other (bg : Byte) (m : List Host.Cell) (a b : Nat) (v : Byte) (h : b ≠ a) :
    Memory.read bg (Memory.write bg m a v) b = Memory.read bg m b := by
  unfold Memory.read Memory.write
  split
  · rw [Memory.lookup_others_other a b m h]
  · rw [Memory.lookup_insert_other a b v _ h, Memory.lookup_others_other a b m h]

theorem Memory.read_write (bg : Byte) (m : List Host.Cell) (a b : Nat) (v : Byte) :
    Memory.read bg (Memory.write bg m a v) b = if b = a then v else Memory.read bg m b := by
  split
  · rename_i h; rw [h, Memory.read_write_same]
  · rename_i h; rw [Memory.read_write_other bg m a b v h]

theorem Memory.others_insert (a : Nat) (v : Byte) (m : List Host.Cell) (h : ∀ c ∈ m, c.1 ≠ a) :
    ((Memory.insert a v m).filter fun c => c.1 != a) = m := by
  induction m with
  | nil => simp [Memory.insert]
  | cons c cs ih =>
    have hc : c.1 ≠ a := h c (by simp)
    have hcs : (cs.filter fun d => d.1 != a) = cs := by
      apply List.filter_eq_self.mpr
      intro d hd
      simpa using h d (by simp [hd])
    unfold Memory.insert
    split
    · rw [List.filter_cons_of_neg (by simp), List.filter_cons_of_pos (by simpa using hc), hcs]
    · rw [List.filter_cons_of_pos (by simpa using hc), ih fun d hd => h d (by simp [hd])]

/-- Writing a byte twice leaves what writing it once leaves. -/
theorem Memory.write_write (bg : Byte) (m : List Host.Cell) (a : Nat) (v w : Byte) :
    Memory.write bg (Memory.write bg m a v) a w = Memory.write bg m a w := by
  have key : (Memory.write bg m a v).filter (fun c => c.1 != a) = m.filter fun c => c.1 != a := by
    unfold Memory.write
    split
    · rw [List.filter_filter]; simp
    · apply Memory.others_insert
      intro c hc
      simpa using (List.mem_filter.mp hc).2
  unfold Memory.write at *
  simp only [key]

/-! ### The canonical form -/

theorem Memory.rising_iff (m : List Host.Cell) :
    Memory.rising m = true ↔ m.Pairwise fun a b => a.1 < b.1 := by
  induction m with
  | nil => simp [Memory.rising]
  | cons a m ih =>
    cases m with
    | nil => simp [Memory.rising]
    | cons b rest =>
      rw [Memory.rising, Bool.and_eq_true, ih]
      constructor
      · rintro ⟨h1, h2⟩
        have h1 : a.1 < b.1 := by simpa using h1
        refine List.pairwise_cons.mpr ⟨?_, h2⟩
        intro c hc
        rcases List.mem_cons.mp hc with rfl | hc
        · exact h1
        · exact lt_trans h1 ((List.pairwise_cons.mp h2).1 c hc)
      · intro h
        exact ⟨by simpa using (List.pairwise_cons.mp h).1 b (by simp), (List.pairwise_cons.mp h).2⟩

theorem Memory.wf_iff (bg : Byte) (m : List Host.Cell) :
    Memory.wf bg m = true ↔ (m.Pairwise fun a b => a.1 < b.1) ∧ ∀ c ∈ m, c.1 < bufLen ∧ c.2 ≠ bg := by
  unfold Memory.wf
  rw [Bool.and_eq_true, Memory.rising_iff, List.all_eq_true]
  simp [Bool.and_eq_true]

theorem Memory.mem_insert {a : Nat} {v : Byte} {m : List Host.Cell} {c : Host.Cell}
    (h : c ∈ Memory.insert a v m) : c = (a, v) ∨ c ∈ m := by
  induction m with
  | nil => left; simpa [Memory.insert] using h
  | cons d ds ih =>
    unfold Memory.insert at h
    split at h
    · simpa using h
    · rcases List.mem_cons.mp h with h | h
      · right; simp [h]
      · rcases ih h with h | h
        · left; exact h
        · right; simp [h]

theorem Memory.insert_rising {a : Nat} {v : Byte} {m : List Host.Cell} (hm : m.Pairwise fun a b => a.1 < b.1)
    (h : ∀ c ∈ m, c.1 ≠ a) : (Memory.insert a v m).Pairwise fun a b => a.1 < b.1 := by
  induction m with
  | nil => simp [Memory.insert]
  | cons d ds ih =>
    obtain ⟨hd, hds⟩ := List.pairwise_cons.mp hm
    unfold Memory.insert
    split
    · rename_i hlt
      refine List.pairwise_cons.mpr ⟨?_, hm⟩
      intro c hc
      rcases List.mem_cons.mp hc with rfl | hc
      · exact hlt
      · exact lt_trans hlt (hd c hc)
    · rename_i hge
      refine List.pairwise_cons.mpr ⟨?_, ih hds fun c hc => h c (by simp [hc])⟩
      intro c hc
      rcases Memory.mem_insert hc with rfl | hc
      · exact lt_of_le_of_ne (not_lt.mp hge) (h d (by simp))
      · exact hd c hc

/-- A write inside the buffer keeps the canonical form. -/
theorem Memory.write_wf {bg : Byte} {m : List Host.Cell} {a : Nat} (v : Byte) (hm : Memory.wf bg m = true)
    (ha : a < bufLen) : Memory.wf bg (Memory.write bg m a v) = true := by
  rw [Memory.wf_iff] at *
  obtain ⟨h1, h2⟩ := hm
  have hf : (m.filter fun c => c.1 != a).Pairwise fun a b => a.1 < b.1 := h1.filter _
  unfold Memory.write
  split
  · exact ⟨hf, fun c hc => h2 c (List.mem_filter.mp hc).1⟩
  · rename_i hv
    refine ⟨Memory.insert_rising hf fun c hc => by simpa using (List.mem_filter.mp hc).2, ?_⟩
    intro c hc
    rcases Memory.mem_insert hc with rfl | hc
    · exact ⟨ha, hv⟩
    · exact h2 c (List.mem_filter.mp hc).1

/-! ### `fill` -/

theorem Memory.lookup_range (v : Byte) (n a : Nat) :
    ((List.range n).map fun b => (b, v)).lookup a = if a < n then some v else none := by
  induction n with
  | zero => rfl
  | succ n ih =>
    rw [List.range_succ, List.map_append, List.lookup_append, ih]
    by_cases h : a < n
    · simp [h, Nat.lt_succ_of_lt h]
    · by_cases h' : a = n
      · subst h'; simp
      · have : ¬ a < n + 1 := by omega
        simp [h, this, Memory.lookup_cons, h']

/-- After `fill`, every byte of the buffer reads as the value. -/
theorem Memory.read_fill (bg v : Byte) {a : Nat} (ha : a < bufLen) : Memory.read bg (Memory.fill bg v) a = v := by
  unfold Memory.read Memory.fill
  split
  · rename_i h; simp [h]
  · rw [Memory.lookup_range, if_pos ha]; rfl

/-- `fill` gives the canonical form. -/
theorem Memory.fill_wf (bg v : Byte) : Memory.wf bg (Memory.fill bg v) = true := by
  rw [Memory.wf_iff]
  unfold Memory.fill
  split
  · simp
  · rename_i hv
    refine ⟨?_, ?_⟩
    · rw [List.pairwise_map]
      exact List.pairwise_lt_range
    · intro c hc
      obtain ⟨a, ha, rfl⟩ := List.mem_map.mp hc
      exact ⟨List.mem_range.mp ha, hv⟩

/-! ### The framebuffer of a state -/

theorem State.byteAt_writeByte (s : State) (a b : Nat) (v : Byte) :
    (s.writeByte a v).byteAt b = if b = a then v else s.byteAt b :=
  Memory.read_write _ _ _ _ _

theorem State.byteAt_fillFB (s : State) (c : Int) {a : Nat} (ha : a < bufLen) : (s.fillFB c).byteAt a = fillByte c :=
  Memory.read_fill _ _ ha

theorem State.image_length (s : State) : s.image.length = bufLen := by simp [State.image]

end Sys2Proof.Machine
end

