-- ==== Sys2Proof/Laws/Pixels.lean ====
section
/-! SUPPORT. Pixels: the address of a pixel is inside the buffer and no two in-range pixels share a bit (20_memory.md
R41 to R44), and what `setPixel` and `plot` do to every pixel and every byte (R43). -/

namespace Sys2Proof.Machine

/-! ### Bits of a byte -/

theorem bitOf_eq (b : Byte) (k : Nat) : bitOf b k = BitVec.ofBool (b.getLsbD k) := by
  apply BitVec.eq_of_getLsbD_eq
  intro i hi
  obtain rfl : i = 0 := by omega
  simp [bitOf]

theorem getLsbD_setBit (b : Byte) (k j : Nat) (v : Bit) (hk : k < 8) :
    (setBit b k v).getLsbD j = if j = k then v.getLsbD 0 else b.getLsbD j := by
  unfold setBit
  by_cases hj : j < 8
  · by_cases h : j = k
    · subst h
      simp [hj]
    · rcases Nat.lt_or_gt_of_ne h with h' | h'
      · simp [hj, h, h']
      · have h1 : j - k ≠ 0 := by omega
        have h2 : ¬ j < k := by omega
        simp [hj, h, h2, h1]
        intro hv
        rw [BitVec.getLsbD_of_ge v (j - k) (by omega)] at hv
        cases hv
  · have : j ≠ k := by omega
    simp [this, BitVec.getLsbD_of_ge _ j (by omega : 8 ≤ j)]

/-- Setting a bit sets that bit and leaves the other seven (20_memory.md R43). -/
theorem bitOf_setBit (b : Byte) (k j : Nat) (v : Bit) (hk : k < 8) :
    bitOf (setBit b k v) j = if j = k then v else bitOf b j := by
  rw [bitOf_eq, getLsbD_setBit b k j v hk]
  split
  · apply BitVec.eq_of_getLsbD_eq
    intro i hi
    obtain rfl : i = 0 := by omega
    simp
  · rw [bitOf_eq]

theorem setBit_setBit (b : Byte) (k : Nat) (v : Bit) (hk : k < 8) : setBit (setBit b k v) k v = setBit b k v := by
  apply BitVec.eq_of_getLsbD_eq
  intro i _
  rw [getLsbD_setBit _ k i v hk, getLsbD_setBit _ k i v hk]
  split <;> rfl

/-! ### Addresses -/

theorem pixelBit_lt (o : Orient) (x y : Nat) : pixelBit o x y < 8 := by
  cases o <;> simp only [pixelBit] <;> omega

theorem pixelIndex_lt {o : Orient} {x y : Int} (h : InRange o x y) : pixelIndex o x.toNat y.toNat < bufLen := by
  cases o <;> simp only [InRange, width, height, pixelIndex, bufLen] at * <;> omega

/-- Two in-range pixels with one address are the same pixel (20_memory.md R44). -/
theorem pixelAddress_injective {o : Orient} {x y x' y' : Int} (h : InRange o x y) (h' : InRange o x' y')
    (hi : pixelIndex o x.toNat y.toNat = pixelIndex o x'.toNat y'.toNat)
    (hb : pixelBit o x.toNat y.toNat = pixelBit o x'.toNat y'.toNat) : x = x' ∧ y = y' := by
  cases o <;> simp only [InRange, width, height, pixelIndex, pixelBit] at * <;> omega

/-! ### `setPixel` -/

theorem State.byteAt_setPixel (s : State) (x y c : Int) (a : Nat) :
    (s.setPixel x y c).byteAt a =
      if InRange s.cfg.orient x y ∧ a = pixelIndex s.cfg.orient x.toNat y.toNat then
        setBit (s.byteAt a) (pixelBit s.cfg.orient x.toNat y.toNat) (colourBit c)
      else s.byteAt a := by
  unfold State.setPixel
  by_cases h : InRange s.cfg.orient x y
  · rw [if_pos h, State.byteAt_writeByte]
    by_cases ha : a = pixelIndex s.cfg.orient x.toNat y.toNat
    · rw [if_pos ha, if_pos ⟨h, ha⟩, ← ha]
    · rw [if_neg ha, if_neg (fun hc => ha hc.2)]
  · rw [if_neg h, if_neg (fun hc => h hc.1)]

/-- After `setPixel`, the pixel has the colour and every other pixel is as it was. -/
theorem State.pixelAt_setPixel (s : State) (x y c x' y' : Int) :
    (s.setPixel x y c).pixelAt x' y' =
      if InRange s.cfg.orient x y ∧ x' = x ∧ y' = y then some (colourBit c) else s.pixelAt x' y' := by
  unfold State.pixelAt
  rw [State.setPixel_cfg]
  by_cases h' : InRange s.cfg.orient x' y'
  · rw [if_pos h', if_pos h', State.byteAt_setPixel]
    by_cases h : InRange s.cfg.orient x y
    · by_cases hi : pixelIndex s.cfg.orient x'.toNat y'.toNat = pixelIndex s.cfg.orient x.toNat y.toNat
      · rw [if_pos ⟨h, hi⟩, bitOf_setBit _ _ _ _ (pixelBit_lt _ _ _)]
        by_cases hb : pixelBit s.cfg.orient x'.toNat y'.toNat = pixelBit s.cfg.orient x.toNat y.toNat
        · rw [if_pos hb, if_pos ⟨h, pixelAddress_injective h' h hi hb⟩]
        · rw [if_neg hb, if_neg]
          rintro ⟨-, rfl, rfl⟩
          exact hb rfl
      · rw [if_neg (fun hc => hi hc.2), if_neg]
        rintro ⟨-, rfl, rfl⟩
        exact hi rfl
    · rw [if_neg (fun hc => h hc.1), if_neg (fun hc => h hc.1)]
  · rw [if_neg h', if_neg h', if_neg]
    rintro ⟨h, rfl, rfl⟩
    exact h' h

theorem State.setPixel_wf {s : State} (x y c : Int) (h : Memory.wf s.cfg.fbResetFill s.fb = true) :
    Memory.wf s.cfg.fbResetFill (s.setPixel x y c).fb = true := by
  unfold State.setPixel
  split
  · exact Memory.write_wf _ h (pixelIndex_lt ‹_›)
  · exact h

theorem State.setPixel_setPixel (s : State) (x y c : Int) : (s.setPixel x y c).setPixel x y c = s.setPixel x y c := by
  by_cases h : InRange s.cfg.orient x y
  · have hb := State.byteAt_setPixel s x y c (pixelIndex s.cfg.orient x.toNat y.toNat)
    rw [if_pos ⟨h, rfl⟩] at hb
    have e : (s.setPixel x y c).fb = Memory.write s.cfg.fbResetFill s.fb (pixelIndex s.cfg.orient x.toNat y.toNat)
        (setBit (s.byteAt (pixelIndex s.cfg.orient x.toNat y.toNat)) (pixelBit s.cfg.orient x.toNat y.toNat)
          (colourBit c)) := by
      unfold State.setPixel; rw [if_pos h]; rfl
    have e2 : (s.setPixel x y c).setPixel x y c =
        (s.setPixel x y c).writeByte (pixelIndex s.cfg.orient x.toNat y.toNat)
          (setBit ((s.setPixel x y c).byteAt (pixelIndex s.cfg.orient x.toNat y.toNat))
            (pixelBit s.cfg.orient x.toNat y.toNat) (colourBit c)) := by
      rw [State.setPixel, State.setPixel_cfg, if_pos h]
    rw [e2, hb, setBit_setBit _ _ _ (pixelBit_lt _ _ _)]
    rw [State.setPixel_eq s x y c]
    unfold State.writeByte
    simp only [e, Memory.write_write]
  · have e : s.setPixel x y c = s := by unfold State.setPixel; rw [if_neg h]
    rw [e, e]

/-! ### `plot` -/

@[simp] theorem State.plot_nil (s : State) (c : Int) : s.plot [] c = s := rfl

theorem State.plot_cons (s : State) (p : Int × Int) (ps : List (Int × Int)) (c : Int) :
    s.plot (p :: ps) c = (s.setPixel p.1 p.2 c).plot ps c := rfl

theorem State.plot_append (s : State) (ps qs : List (Int × Int)) (c : Int) :
    s.plot (ps ++ qs) c = (s.plot ps c).plot qs c := List.foldl_append

/-- After `plot`, the listed pixels in range have the colour and every other pixel is as it was. -/
theorem State.pixelAt_plot (s : State) (ps : List (Int × Int)) (c x y : Int) :
    (s.plot ps c).pixelAt x y =
      if InRange s.cfg.orient x y ∧ (x, y) ∈ ps then some (colourBit c) else s.pixelAt x y := by
  induction ps generalizing s with
  | nil => simp
  | cons p ps ih =>
    obtain ⟨px, py⟩ := p
    rw [State.plot_cons, ih, State.setPixel_cfg, State.pixelAt_setPixel]
    by_cases h : InRange s.cfg.orient x y
    · by_cases hm : (x, y) ∈ ps
      · rw [if_pos ⟨h, hm⟩, if_pos ⟨h, List.mem_cons_of_mem _ hm⟩]
      · rw [if_neg (fun hc => hm hc.2)]
        by_cases he : x = px ∧ y = py
        · obtain ⟨rfl, rfl⟩ := he
          rw [if_pos ⟨h, rfl, rfl⟩, if_pos ⟨h, by simp⟩]
        · rw [if_neg (fun hc => he hc.2), if_neg]
          rintro ⟨-, hc⟩
          rcases List.mem_cons.mp hc with hc | hc
          · exact he (Prod.mk.injEq .. ▸ hc)
          · exact hm hc
    · have hn : ¬ (InRange s.cfg.orient px py ∧ x = px ∧ y = py) := by
        rintro ⟨h1, rfl, rfl⟩
        exact h h1
      rw [if_neg (fun hc => h hc.1), if_neg hn, if_neg (fun hc => h hc.1)]

/-- `plot` leaves every byte that holds none of the listed pixels. -/
theorem State.byteAt_plot_other (s : State) (ps : List (Int × Int)) (c : Int) (a : Nat)
    (h : ∀ p ∈ ps, InRange s.cfg.orient p.1 p.2 → pixelIndex s.cfg.orient p.1.toNat p.2.toNat ≠ a) :
    (s.plot ps c).byteAt a = s.byteAt a := by
  induction ps generalizing s with
  | nil => rfl
  | cons p ps ih =>
    rw [State.plot_cons, ih, State.byteAt_setPixel, if_neg]
    · rintro ⟨h1, h2⟩
      exact h p (by simp) h1 h2.symm
    · intro q hq hr
      rw [State.setPixel_cfg] at *
      exact h q (by simp [hq]) hr

theorem State.plot_wf {s : State} (ps : List (Int × Int)) (c : Int) (h : Memory.wf s.cfg.fbResetFill s.fb = true) :
    Memory.wf s.cfg.fbResetFill (s.plot ps c).fb = true := by
  induction ps generalizing s with
  | nil => exact h
  | cons p ps ih =>
    rw [State.plot_cons]
    have := ih (s := s.setPixel p.1 p.2 c) (by rw [State.setPixel_cfg]; exact State.setPixel_wf _ _ _ h)
    rwa [State.setPixel_cfg] at this

end Sys2Proof.Machine
end

