-- ==== Sys2Proof/Laws/Stmts.lean ====
section
/-! SUPPORT. What running statements can do: the one induction over `runStmts`, and its value where the panel answers
idle. What `accept`, `perform`, `draw` and `step` can answer. -/

namespace Sys2Proof.Machine

/-! ### The panel's answers -/

theorem State.answer_poll (s : State) (j : Nat) : s.poll.answer j = s.answer (j + 1) := by
  simp only [State.answer, State.poll_panel, State.poll_polls, List.getElem?_drop]
  rw [Nat.add_comm 1 j, Nat.add_assoc, Nat.add_comm 1 j]

@[simp] theorem Act.run_cfg (a : Act) (s : State) : (a.run s).cfg = s.cfg := by cases a <;> rfl
@[simp] theorem Act.run_fault (a : Act) (s : State) : (a.run s).fault = s.fault := by cases a <;> rfl
@[simp] theorem Act.run_program (a : Act) (s : State) : (a.run s).program = s.program := by cases a <;> rfl
@[simp] theorem Act.run_pending (a : Act) (s : State) : (a.run s).pending = s.pending := by cases a <;> rfl
@[simp] theorem Act.run_panel (a : Act) (s : State) : (a.run s).panel = s.panel := by cases a <;> rfl
@[simp] theorem Act.run_polls (a : Act) (s : State) : (a.run s).polls = s.polls := by cases a <;> rfl
@[simp] theorem Act.run_answer (a : Act) (s : State) (j : Nat) : (a.run s).answer j = s.answer j := by
  simp only [State.answer, Act.run_panel, Act.run_polls]

theorem State.allIdle_mono {s : State} {k n : Nat} (h : s.AllIdle n) (hk : k ≤ n) : s.AllIdle k :=
  fun j hj => h j (lt_of_lt_of_le hj hk)

theorem State.allIdle_poll {s : State} {k : Nat} (h : s.AllIdle (k + 1)) : s.poll.AllIdle k := fun j hj => by
  rw [State.answer_poll]
  exact h (j + 1) (by omega)

/-! ### The one induction over `runStmts` -/

/-- `I` holds of a state and the statements still to run; `Q` of the state where the run ends: at the end of the
statements, at a busy answer, or at the fault of a bounded wait. -/
theorem runStmts_induction {I : State → List Stmt → Prop} {Q : State → Prop}
    (hend : ∀ s, I s [] → Q s)
    (hact : ∀ s a rest, I s (.act a :: rest) → I (a.run s) rest)
    (hidle : ∀ s n rest, I s (.wait n :: rest) → s.answer 0 = false → I s.poll rest)
    (hbusy : ∀ s n rest, I s (.wait n :: rest) → s.answer 0 = true → s.pollLimitReached (n + 1) = false →
      Q ((s.poll.emit (.sleep pollMs)).suspend (.wait (n + 1) :: rest)))
    (hfault : ∀ s n rest, I s (.wait n :: rest) → s.answer 0 = true → s.pollLimitReached (n + 1) = true →
      Q (s.poll.raise (.deviceUnresponsive (n + 1)))) :
    ∀ l s, I s l → Q (runStmts l s) := by
  intro l
  induction l with
  | nil => exact hend
  | cons st rest ih =>
    intro s h
    cases st with
    | act a => exact ih _ (hact s a rest h)
    | wait n =>
      rw [runStmts]
      split
      · rename_i hb
        split
        · rename_i hl
          exact hfault s n rest h hb hl
        · rename_i hl
          exact hbusy s n rest h hb (by simpa using hl)
      · rename_i hb
        exact ih _ (hidle s n rest h (by simpa using hb))

/-! ### The run on an idle panel -/

/-- One idle poll. -/
def State.pollIdle (s : State) : State :=
  { s with trace := s.trace ++ [.poll false], panel := s.panel.drop 1, polls := s.polls + 1 }

theorem State.poll_eq_pollIdle {s : State} (h : s.answer 0 = false) : s.poll = s.pollIdle := by
  unfold State.poll State.pollIdle
  rw [h]

/-- The run of statements where every poll is answered idle. -/
def runIdle : List Stmt → State → State
  | [], s => s
  | .act a :: rest, s => runIdle rest (a.run s)
  | .wait _ :: rest, s => runIdle rest s.pollIdle

theorem runIdle_append (l l' : List Stmt) (s : State) : runIdle (l ++ l') s = runIdle l' (runIdle l s) := by
  induction l generalizing s with
  | nil => rfl
  | cons st rest ih => cases st <;> exact ih _

theorem waits_append (l l' : List Stmt) : waits (l ++ l') = waits l + waits l' := by
  induction l with
  | nil => simp [waits]
  | cons st rest ih =>
    cases st with
    | act a => simpa only [List.cons_append, waits] using ih
    | wait n =>
      simp only [List.cons_append, waits, ih]
      omega

/-- On a panel that answers idle, running statements is their idle run. -/
theorem runStmts_idle (l : List Stmt) (s : State) (h : s.AllIdle (waits l)) : runStmts l s = runIdle l s := by
  induction l generalizing s with
  | nil => rfl
  | cons st rest ih =>
    cases st with
    | act a =>
      refine ih _ fun j hj => ?_
      rw [Act.run_answer]
      exact h j hj
    | wait n =>
      have h0 : s.answer 0 = false := h 0 (by simp [waits])
      rw [runStmts, if_neg (by simp [h0]), runIdle, ← State.poll_eq_pollIdle h0]
      exact ih _ (State.allIdle_poll h)

/-! ### Frames -/

theorem State.afterFrames_nil (s : State) : s.afterFrames [] = s := by
  simp [State.afterFrames, idleFrames]

theorem idleFrames_append (fs gs : List (Bool × List Byte)) :
    idleFrames (fs ++ gs) = idleFrames fs ++ idleFrames gs := by simp [idleFrames]

theorem State.afterFrames_append (s : State) (fs gs : List (Bool × List Byte)) :
    s.afterFrames (fs ++ gs) = (s.afterFrames fs).afterFrames gs := by
  unfold State.afterFrames
  simp [idleFrames_append, List.drop_drop, Nat.add_assoc]

theorem runIdle_command (bs : List Byte) (s : State) : runIdle (commandStmts bs) s = s.afterFrames [(false, bs)] := by
  simp [commandStmts, waitStmts, emitStmt, runIdle, Act.run, State.emit, State.pollIdle, State.afterFrames, idleFrames,
    frameEvents]

theorem runIdle_data (bs : List Byte) (s : State) : runIdle (dataStmts bs) s = s.afterFrames [(true, bs)] := by
  simp [dataStmts, waitStmts, emitStmt, runIdle, Act.run, State.emit, State.pollIdle, State.afterFrames, idleFrames,
    frameEvents]

theorem runIdle_image (s : State) : runIdle imageStmts s = s.afterFrames [(true, s.image)] := by
  have e : (((s.pollIdle.emit .csLow).emit .dcData)).image = s.image := rfl
  simp only [imageStmts, waitStmts, emitStmt, runIdle, Act.run, List.cons_append, List.nil_append, e]
  simp [State.emit, State.pollIdle, State.afterFrames, idleFrames, frameEvents]

theorem runIdle_pair (code : Byte) (payload : List Byte) (s : State) :
    runIdle (pairStmts code payload) s = s.afterFrames (pairFrames code payload) := by
  unfold pairStmts pairFrames
  rw [runIdle_append, runIdle_command]
  split
  · rfl
  · rw [runIdle_data, ← State.afterFrames_append]
    rfl

theorem waits_command (bs : List Byte) : waits (commandStmts bs) = 1 := rfl
theorem waits_data (bs : List Byte) : waits (dataStmts bs) = 1 := rfl
theorem waits_image : waits imageStmts = 1 := rfl
theorem waits_pair (code : Byte) (payload : List Byte) :
    waits (pairStmts code payload) = (pairFrames code payload).length := by
  unfold pairStmts pairFrames
  rw [waits_append, waits_command]
  split <;> simp [waits, waits_data]

@[simp] theorem State.afterFrames_cfg (s : State) (fs : List (Bool × List Byte)) : (s.afterFrames fs).cfg = s.cfg := rfl
@[simp] theorem State.afterFrames_fb (s : State) (fs : List (Bool × List Byte)) : (s.afterFrames fs).fb = s.fb := rfl
@[simp] theorem State.afterFrames_pstate (s : State) (fs : List (Bool × List Byte)) :
    (s.afterFrames fs).pstate = s.pstate := rfl
@[simp] theorem State.afterFrames_image (s : State) (fs : List (Bool × List Byte)) :
    (s.afterFrames fs).image = s.image := rfl

/-! ### Accepting an operation -/

/-- An operation answers a next state exactly on a ready core, and then it is the operation's own effect. -/
theorem State.accept_next_iff {s t : State} {op : State → State} :
    s.accept op = .next t ↔ s.Ready ∧ t = op s := by
  unfold State.accept State.Ready
  cases hf : s.fault with
  | some f => simp
  | none =>
    cases hp : s.pending with
    | nil => simp [eq_comm]
    | cons st rest => simp

theorem State.accept_ready {s : State} (h : s.Ready) (op : State → State) : s.accept op = .next (op s) :=
  State.accept_next_iff.mpr ⟨h, rfl⟩

theorem State.accept_faulted {s : State} {f : Fault} (h : s.fault = some f) (op : State → State) :
    s.accept op = .fault f := by
  unfold State.accept
  rw [h]

theorem State.accept_congr {s : State} {op op' : State → State} (h : op s = op' s) : s.accept op = s.accept op' := by
  unfold State.accept
  rw [h]

/-- A transfer operation on a ready core and an idle panel completes. -/
theorem State.perform_idle {s : State} (h : s.Ready) {stmts : List Stmt} (hi : s.AllIdle (waits stmts)) :
    s.perform stmts = .next ((runIdle stmts s).reply .done) := by
  unfold State.perform
  rw [State.accept_ready h, runStmts_idle, runIdle_append]
  · rfl
  · rw [waits_append]
    exact hi

/-! ### One step -/

/-- Everything a step that answers a next state can have done: waited for the host, gone on with a suspended
operation, or executed the host's next issue. -/
theorem step_next_cases {s t : State} (h : step s = .next t) :
    s.fault = none ∧
    ((s.pending = [] ∧ s.program = [] ∧ t = s) ∨
     (s.pending ≠ [] ∧ t = runStmts s.pending (s.suspend [])) ∨
     (s.pending = [] ∧ ∃ issue rest i, s.program = issue :: rest ∧ decode issue = .ok i ∧
        exec i { s with program := rest } = .next t)) := by
  unfold step at h
  cases hf : s.fault with
  | some f => rw [hf] at h; cases h
  | none =>
    rw [hf] at h
    refine ⟨rfl, ?_⟩
    cases hp : s.pending with
    | cons st rest =>
      rw [hp] at h
      right; left
      exact ⟨by simp, by cases h; rfl⟩
    | nil =>
      rw [hp] at h
      unfold State.nextIssue at h
      cases hg : s.program with
      | nil =>
        rw [hg] at h
        left
        exact ⟨rfl, rfl, by cases h; rfl⟩
      | cons issue rest =>
        rw [hg] at h
        right; right
        refine ⟨rfl, issue, rest, ?_⟩
        simp only at h
        cases hd : decode issue with
        | error e => rw [hd] at h; cases h
        | ok i =>
        rw [hd, hf, hp] at h
        exact ⟨i, rfl, rfl, h⟩

/-! ### Every instruction as an operation on an accepting core -/

/-- The effect of each instruction on a core that accepts it. -/
def effect (i : Instr) (s : State) : State :=
  let performs (stmts : List Stmt) : State := runStmts (stmts ++ [.act (.reply .done)]) s
  let draws (ps : List (Int × Int)) (c : Int) : State := (s.plot ps c).reply .done
  match i with
  | .driverOutputControl => performs (driverOutputControlStmts s.cfg)
  | .boosterSoftStart => performs (boosterSoftStartStmts s.cfg)
  | .dataEntryMode => performs (dataEntryModeStmts s.cfg)
  | .activateUpdate => performs activateUpdateStmts
  | .displayUpdateControl => performs displayUpdateControlStmts
  | .writeRam => performs writeRamStmts
  | .writeVcom => performs (writeVcomStmts s.cfg)
  | .writeLut => performs (writeLutStmts s.selectedLut)
  | .dummyLinePeriod => performs (dummyLinePeriodStmts s.cfg)
  | .gateTime => performs (gateTimeStmts s.cfg)
  | .ramXStartEnd => performs (ramXStartEndStmts s.cfg)
  | .ramYStartEnd => performs (ramYStartEndStmts s.cfg)
  | .ramXCounter => performs (ramXCounterStmts s.cfg)
  | .ramYCounter => performs (ramYCounterStmts s.cfg)
  | .terminateFrame => performs terminateFrameStmts
  | .setPixel x y c => (s.setPixel x y c).reply .done
  | .getPixel x y => s.reply (.pixel (s.pixelAt x y))
  | .fill c => (s.fillFB c).reply .done
  | .hline x y l c => draws (hlinePoints x y l) c
  | .vline x y l c => draws (vlinePoints x y l) c
  | .line x0 y0 x1 y1 c => draws (linePoints s.cfg.lineY x0 y0 x1 y1) c
  | .rect x0 y0 x1 y1 c f => draws (rectPoints x0 y0 x1 y1 f) c
  | .circle cx cy r c f => draws (circlePoints s.cfg.circleRoot cx cy r f) c
  | .text str x y c => s.drawText str x y c
  | .reset => performs resetStmts
  | .waitUntilIdle => performs waitStmts
  | .writeCommand bs => performs (commandStmts bs)
  | .writeData bs => performs (dataStmts bs)
  | .init => performs (initStmts s.cfg)
  | .setMemoryArea => performs (setMemoryAreaStmts s.cfg)
  | .setMemoryPointer => performs (setMemoryPointerStmts s.cfg)
  | .writeImage => performs (writeImageStmts s.cfg)
  | .update => performs updateStmts
  | .fullRefresh => performs (fullRefreshStmts s.cfg)

/-- Every meaning guards its effect by acceptance. -/
theorem exec_eq_accept (i : Instr) (s : State) : exec i s = s.accept (effect i) := by
  have performs (stmts : Cfg → List Stmt) : s.perform (stmts s.cfg) =
      s.accept fun u => runStmts (stmts u.cfg ++ [.act (.reply .done)]) u := State.accept_congr rfl
  have draws (ps : Cfg → List (Int × Int)) (c : Int) : s.draw (ps s.cfg) c =
      s.accept fun u => (u.plot (ps u.cfg) c).reply .done := State.accept_congr rfl
  cases i with
  | line x0 y0 x1 y1 c => exact draws (fun cfg => linePoints cfg.lineY x0 y0 x1 y1) c
  | circle cx cy r c f => exact draws (fun cfg => circlePoints cfg.circleRoot cx cy r f) c
  | driverOutputControl => exact performs driverOutputControlStmts
  | boosterSoftStart => exact performs boosterSoftStartStmts
  | dataEntryMode => exact performs dataEntryModeStmts
  | writeVcom => exact performs writeVcomStmts
  | writeLut => exact State.accept_congr rfl
  | dummyLinePeriod => exact performs dummyLinePeriodStmts
  | gateTime => exact performs gateTimeStmts
  | ramXStartEnd => exact performs ramXStartEndStmts
  | ramYStartEnd => exact performs ramYStartEndStmts
  | ramXCounter => exact performs ramXCounterStmts
  | ramYCounter => exact performs ramYCounterStmts
  | init => exact performs initStmts
  | setMemoryArea => exact performs setMemoryAreaStmts
  | setMemoryPointer => exact performs setMemoryPointerStmts
  | writeImage => exact performs writeImageStmts
  | fullRefresh => exact performs fullRefreshStmts
  | _ => rfl

/-- `exec` answers a next state exactly on a ready core, and then it is the instruction's effect. -/
theorem exec_next_iff {i : Instr} {s t : State} : exec i s = .next t ↔ s.Ready ∧ t = effect i s := by
  rw [exec_eq_accept, State.accept_next_iff]

/-- On a ready core every instruction answers its effect. -/
theorem exec_ready {s : State} (h : s.Ready) (i : Instr) : exec i s = .next (effect i s) := exec_next_iff.mpr ⟨h, rfl⟩

/-! ### Drawing a list of pixels -/

/-- Plotting a list and completing draws exactly the pixels of the list. -/
theorem plot_drawsExactly (s : State) {ps : List (Int × Int)} (c : Int) {P : Int → Int → Prop}
    (h : ∀ x y, (x, y) ∈ ps ↔ P x y) : DrawsExactly s ((s.plot ps c).reply .done) c P := by
  refine ⟨?_, fun x y hp hr => ?_, fun x y hp => ?_, fun a ha => ?_⟩
  · rw [State.plot_eq]; rfl
  · show (s.plot ps c).pixelAt x y = _
    rw [State.pixelAt_plot, if_pos ⟨hr, (h x y).mpr hp⟩]
  · show (s.plot ps c).pixelAt x y = _
    rw [State.pixelAt_plot, if_neg fun hc => hp ((h x y).mp hc.2)]
  · show (s.plot ps c).byteAt a = _
    refine State.byteAt_plot_other s ps c a ?_
    rintro ⟨x, y⟩ hp hr
    exact ha x y ((h x y).mp hp) hr

end Sys2Proof.Machine
end

