-- ==== Sys2Proof/Laws/Controller.lean ====
section
/-! SUPPORT. What each controller sequence makes of an idle panel (43_controller.md): its frames as one list, the busy
waits it holds, and the protocol state it ends in. -/

namespace Sys2Proof.Machine

/-- A meaning given by statements, on a ready core and a panel that answers each of their waits with idle. -/
theorem exec_idle {i : Instr} {s : State} {l : List Stmt} (h : s.Ready) (hi : s.AllIdle (waits l))
    (he : exec i s = s.perform l) : exec i s = .next ((runIdle l s).reply .done) := by
  rw [he, State.perform_idle h hi]

/-! ### The window and the pointer -/

theorem runIdle_area (cfg : Cfg) (s : State) : runIdle (setMemoryAreaStmts cfg) s = s.afterFrames (areaFrames cfg) := by
  unfold setMemoryAreaStmts areaFrames ramXStartEndStmts ramYStartEndStmts
  rw [runIdle_append, runIdle_pair, runIdle_pair, State.afterFrames_append]

theorem runIdle_pointer (cfg : Cfg) (s : State) :
    runIdle (setMemoryPointerStmts cfg) s = s.afterFrames (pointerFrames cfg) := by
  unfold setMemoryPointerStmts pointerFrames ramXCounterStmts ramYCounterStmts
  rw [runIdle_append, runIdle_pair, runIdle_pair, State.afterFrames_append]

theorem waits_area (cfg : Cfg) : waits (setMemoryAreaStmts cfg) = (areaFrames cfg).length := by
  unfold setMemoryAreaStmts areaFrames ramXStartEndStmts ramYStartEndStmts
  rw [waits_append, waits_pair, waits_pair, List.length_append]

theorem waits_pointer (cfg : Cfg) : waits (setMemoryPointerStmts cfg) = (pointerFrames cfg).length := by
  unfold setMemoryPointerStmts pointerFrames ramXCounterStmts ramYCounterStmts
  rw [waits_append, waits_pair, waits_pair, List.length_append]

theorem length_pairFrames_le (code : Byte) (payload : List Byte) : (pairFrames code payload).length ≤ 2 := by
  unfold pairFrames
  split <;> simp

theorem length_areaFrames_le (cfg : Cfg) : (areaFrames cfg).length ≤ 4 := by
  have h1 := length_pairFrames_le 0x44 (window cfg).ramX
  have h2 := length_pairFrames_le 0x45 (window cfg).ramY
  unfold areaFrames
  rw [List.length_append]
  omega

theorem length_pointerFrames_le (cfg : Cfg) : (pointerFrames cfg).length ≤ 4 := by
  have h1 := length_pairFrames_le 0x4E (window cfg).ctrX
  have h2 := length_pairFrames_le 0x4F (window cfg).ctrY
  unfold pointerFrames
  rw [List.length_append]
  omega

/-! ### `reset` and `init` -/

theorem runIdle_reset (s : State) : runIdle resetStmts s =
    { s with pstate := .resetting, trace := s.trace ++ [.rstLow, .sleep 10, .rstHigh, .sleep 10] } := by
  simp [resetStmts, runIdle, Act.run, emitStmt, State.emit, State.setPState, resetLowMs, resetHighMs]

theorem runIdle_init (cfg : Cfg) (s : State) : runIdle (initStmts cfg) s =
    { (runIdle resetStmts s).afterFrames (initFrames cfg) with pstate := .initialized } := by
  unfold initStmts initFrames
  simp only [runIdle_append, State.afterFrames_append, driverOutputControlStmts, boosterSoftStartStmts,
    writeVcomStmts, dummyLinePeriodStmts, gateTimeStmts, dataEntryModeStmts, writeLutStmts, runIdle_pair,
    runIdle_area, runIdle_pointer]
  rfl

theorem waits_init (cfg : Cfg) : waits (initStmts cfg) = (initFrames cfg).length := by
  unfold initStmts initFrames
  simp only [waits_append, driverOutputControlStmts, boosterSoftStartStmts, writeVcomStmts, dummyLinePeriodStmts,
    gateTimeStmts, dataEntryModeStmts, writeLutStmts, waits_pair, waits_area, waits_pointer, List.length_append]
  simp [waits, resetStmts, emitStmt, lut]

theorem length_initFrames_le (cfg : Cfg) : (initFrames cfg).length ≤ 22 := by
  have h1 := length_pairFrames_le 0x01 cfg.init.drv
  have h2 := length_pairFrames_le 0x0C cfg.init.boost
  have h3 := length_pairFrames_le 0x2C cfg.init.vcom
  have h4 := length_pairFrames_le 0x3A cfg.init.dummy
  have h5 := length_pairFrames_le 0x3B cfg.init.gate
  have h6 := length_pairFrames_le 0x11 [dem cfg.orient]
  have h7 := length_pairFrames_le 0x32 (lut cfg)
  have h8 := length_areaFrames_le cfg
  have h9 := length_pointerFrames_le cfg
  unfold initFrames
  simp only [List.length_append]
  omega

/-! ### `writeImage`, `update` and `fullRefresh` -/

/-- The first step of T4 and T5 by the states it is about (10_state.md R30), as `waitsIn` says it. -/
theorem enter_eq (p now : PState) : p.enter now = if now = .uninitialized ∨ now = .resetting then now else p := by
  cases now <;> rfl

/-- Entering and leaving a transfer, with nothing between that writes the protocol state. -/
theorem leave_enter (now : PState) {p : PState} (hp : p = .writingImage ∨ p = .updating) :
    p.leave (p.enter now) = now.afterTransfer := by
  rcases hp with rfl | rfl <;> cases now <;> rfl

theorem runIdle_writeImage (cfg : Cfg) (s : State) : runIdle (writeImageStmts cfg) s =
    { s.afterFrames (imageFrames cfg s.image) with pstate := s.pstate.afterTransfer } := by
  have e : imageFrames cfg s.image =
      areaFrames cfg ++ pointerFrames cfg ++ [(false, [0x24])] ++ [(true, s.image)] := by simp [imageFrames]
  unfold writeImageStmts writeRamStmts
  rw [runIdle_append, runIdle_append, runIdle_append, runIdle_append, runIdle_append, runIdle_area, runIdle_pointer,
    runIdle_command, runIdle_image]
  simp only [State.afterFrames_image, ← State.afterFrames_append]
  rw [← leave_enter s.pstate (.inl rfl), e]
  rfl

theorem waits_writeImage (cfg : Cfg) : waits (writeImageStmts cfg) =
    (areaFrames cfg).length + (pointerFrames cfg).length + 2 := by
  unfold writeImageStmts writeRamStmts
  simp only [waits_append, waits_area, waits_pointer, waits_command, waits_image]
  simp only [waits]
  omega

theorem runIdle_update (s : State) : runIdle updateStmts s =
    { s.afterFrames updateFrames with pstate := s.pstate.afterTransfer } := by
  unfold updateStmts displayUpdateControlStmts activateUpdateStmts terminateFrameStmts
  rw [runIdle_append, runIdle_append, runIdle_append, runIdle_append, runIdle_pair, runIdle_command, runIdle_command]
  simp only [← State.afterFrames_append]
  rw [← leave_enter s.pstate (.inr rfl)]
  rfl

theorem waits_update : waits updateStmts = 4 := rfl

theorem afterTransfer_afterTransfer (p : PState) : p.afterTransfer.afterTransfer = p.afterTransfer := by
  cases p <;> rfl

/-- The whole framebuffer after `fill` is one byte repeated (40_framebuffer.md R102). -/
theorem image_fillFB (s : State) (c : Int) : (s.fillFB c).image = List.replicate bufLen (fillByte c) := by
  unfold State.image
  rw [List.eq_replicate_iff]
  refine ⟨by simp, ?_⟩
  simp only [List.mem_map, List.mem_range, forall_exists_index, and_imp]
  rintro _ a ha rfl
  exact State.byteAt_fillFB s c ha

theorem runIdle_fullRefresh (cfg : Cfg) (s : State) : runIdle (fullRefreshStmts cfg) s =
    { s with
      fb := Memory.fill s.cfg.fbResetFill (fillByte 1)
      pstate := s.pstate.afterTransfer
      trace := s.trace ++ idleFrames (imageFrames cfg (List.replicate bufLen (fillByte 0)) ++ updateFrames) ++
        [.sleep settleMs] ++ idleFrames (imageFrames cfg (List.replicate bufLen (fillByte 1)) ++ updateFrames)
      panel := s.panel.drop (2 * ((areaFrames cfg).length + (pointerFrames cfg).length + 6))
      polls := s.polls + 2 * ((areaFrames cfg).length + (pointerFrames cfg).length + 6) } := by
  unfold fullRefreshStmts
  simp only [runIdle_append, runIdle_writeImage, runIdle_update]
  have l : ∀ im, (imageFrames cfg im).length = (areaFrames cfg).length + (pointerFrames cfg).length + 2 := by
    intro im
    simp [imageFrames]
    omega
  have lu : updateFrames.length = 4 := rfl
  have e0 := image_fillFB s 0
  have e1 : ∀ u : State, (u.fillFB 1).image = List.replicate bufLen (fillByte 1) := fun u => image_fillFB u 1
  simp only [runIdle, Act.run, emitStmt, e0, e1]
  generalize List.replicate bufLen (fillByte 0) = black
  generalize List.replicate bufLen (fillByte 1) = white
  simp only [State.afterFrames, State.emit, State.fillFB, afterTransfer_afterTransfer, l, lu, List.drop_drop,
    idleFrames_append, List.append_assoc]
  rw [State.mk.injEq]
  refine ⟨rfl, rfl, rfl, rfl, rfl, rfl, rfl, ?_, ?_, rfl, rfl⟩
  · rw [show (areaFrames cfg).length + (pointerFrames cfg).length + 2 + 4 +
      ((areaFrames cfg).length + (pointerFrames cfg).length + 2) + 4 =
      2 * ((areaFrames cfg).length + (pointerFrames cfg).length + 6) by omega]
  · omega

theorem waits_fullRefresh (cfg : Cfg) : waits (fullRefreshStmts cfg) =
    2 * ((areaFrames cfg).length + (pointerFrames cfg).length + 6) := by
  unfold fullRefreshStmts
  simp only [waits_append, waits_writeImage, waits_update, waits, emitStmt]
  omega

end Sys2Proof.Machine
end

