-- ==== Sys2Proof/Laws/PerInstr.lean ====
section
/-! SUPPORT. The family `EncodingForm`: in which form each instruction is encoded, one lemma per instruction. -/

namespace Sys2Proof.Laws.EncodingForm

/-- A frame is the one byte that the opcode map gives the instruction (30_encoding.md R62, R67); a line starts with an
operation's mnemonic (R85, R87); a term is the instruction itself (R60). -/
def Statement (i : Instr) : Prop :=
  match encode i with
  | .frame bs  => ∃ code, bs = [code] ∧ codeTable.lookup code = some i
  | .line text => (text.takeWhile isLetter) ∈ signatures.map Prod.fst
  | .term j    => j = i

theorem takeWhile_printLine {name : List Char} (h : name.all isLetter = true) (ops : List (List Char)) :
    (printLine name ops).takeWhile isLetter = name := by
  rw [List.all_eq_true] at h
  cases ops with
  | nil =>
    have := List.takeWhile_append_of_pos h (l₂ := [])
    simpa [printLine] using this
  | cons op ops =>
    have := List.takeWhile_append_of_pos h (l₂ := ' ' :: joinComma (op :: ops))
    rw [printLine, this, List.takeWhile_cons_of_neg (by decide), List.append_nil]

theorem driverOutputControl : Statement .driverOutputControl := ⟨0x01, rfl, rfl⟩
theorem boosterSoftStart : Statement .boosterSoftStart := ⟨0x0C, rfl, rfl⟩
theorem dataEntryMode : Statement .dataEntryMode := ⟨0x11, rfl, rfl⟩
theorem activateUpdate : Statement .activateUpdate := ⟨0x20, rfl, rfl⟩
theorem displayUpdateControl : Statement .displayUpdateControl := ⟨0x22, rfl, rfl⟩
theorem writeRam : Statement .writeRam := ⟨0x24, rfl, rfl⟩
theorem writeVcom : Statement .writeVcom := ⟨0x2C, rfl, rfl⟩
theorem writeLut : Statement .writeLut := ⟨0x32, rfl, rfl⟩
theorem dummyLinePeriod : Statement .dummyLinePeriod := ⟨0x3A, rfl, rfl⟩
theorem gateTime : Statement .gateTime := ⟨0x3B, rfl, rfl⟩
theorem ramXStartEnd : Statement .ramXStartEnd := ⟨0x44, rfl, rfl⟩
theorem ramYStartEnd : Statement .ramYStartEnd := ⟨0x45, rfl, rfl⟩
theorem ramXCounter : Statement .ramXCounter := ⟨0x4E, rfl, rfl⟩
theorem ramYCounter : Statement .ramYCounter := ⟨0x4F, rfl, rfl⟩
theorem terminateFrame : Statement .terminateFrame := ⟨0xFF, rfl, rfl⟩

theorem setPixel (x y c : Int) : Statement (.setPixel x y c) := by
  show (printLine "setPixel".toList _).takeWhile isLetter ∈ _
  rw [takeWhile_printLine (by decide)]
  decide

theorem getPixel (x y : Int) : Statement (.getPixel x y) := by
  show (printLine "getPixel".toList _).takeWhile isLetter ∈ _
  rw [takeWhile_printLine (by decide)]
  decide

theorem fill (c : Int) : Statement (.fill c) := by
  show (printLine "fill".toList _).takeWhile isLetter ∈ _
  rw [takeWhile_printLine (by decide)]
  decide

theorem hline (x y length c : Int) : Statement (.hline x y length c) := by
  show (printLine "hline".toList _).takeWhile isLetter ∈ _
  rw [takeWhile_printLine (by decide)]
  decide

theorem vline (x y length c : Int) : Statement (.vline x y length c) := by
  show (printLine "vline".toList _).takeWhile isLetter ∈ _
  rw [takeWhile_printLine (by decide)]
  decide

theorem line (x0 y0 x1 y1 c : Int) : Statement (.line x0 y0 x1 y1 c) := by
  show (printLine "line".toList _).takeWhile isLetter ∈ _
  rw [takeWhile_printLine (by decide)]
  decide

theorem rect (x0 y0 x1 y1 c : Int) (f : Bool) : Statement (.rect x0 y0 x1 y1 c f) := by
  show (printLine "rect".toList _).takeWhile isLetter ∈ _
  rw [takeWhile_printLine (by decide)]
  decide

theorem circle (cx cy radius c : Int) (f : Bool) : Statement (.circle cx cy radius c f) := by
  show (printLine "circle".toList _).takeWhile isLetter ∈ _
  rw [takeWhile_printLine (by decide)]
  decide

theorem text (s : List Char) (x y c : Int) : Statement (.text s x y c) := by
  unfold Statement encode
  by_cases h : writableString s = true
  · simp only [if_pos h]
    rw [takeWhile_printLine (by decide)]
    decide
  · simp only [if_neg h]

theorem reset : Statement .reset := by
  show (printLine "reset".toList _).takeWhile isLetter ∈ _
  rw [takeWhile_printLine (by decide)]
  decide

theorem waitUntilIdle : Statement .waitUntilIdle := by
  show (printLine "waitUntilIdle".toList _).takeWhile isLetter ∈ _
  rw [takeWhile_printLine (by decide)]
  decide

theorem writeCommand (bs : List Byte) : Statement (.writeCommand bs) := by
  show (printLine "writeCommand".toList _).takeWhile isLetter ∈ _
  rw [takeWhile_printLine (by decide)]
  decide

theorem writeData (bs : List Byte) : Statement (.writeData bs) := by
  show (printLine "writeData".toList _).takeWhile isLetter ∈ _
  rw [takeWhile_printLine (by decide)]
  decide

theorem init : Statement .init := by
  show (printLine "init".toList _).takeWhile isLetter ∈ _
  rw [takeWhile_printLine (by decide)]
  decide

theorem setMemoryArea : Statement .setMemoryArea := by
  show (printLine "setMemoryArea".toList _).takeWhile isLetter ∈ _
  rw [takeWhile_printLine (by decide)]
  decide

theorem setMemoryPointer : Statement .setMemoryPointer := by
  show (printLine "setMemoryPointer".toList _).takeWhile isLetter ∈ _
  rw [takeWhile_printLine (by decide)]
  decide

theorem writeImage : Statement .writeImage := by
  show (printLine "writeImage".toList _).takeWhile isLetter ∈ _
  rw [takeWhile_printLine (by decide)]
  decide

theorem update : Statement .update := by
  show (printLine "update".toList _).takeWhile isLetter ∈ _
  rw [takeWhile_printLine (by decide)]
  decide

theorem fullRefresh : Statement .fullRefresh := by
  show (printLine "fullRefresh".toList _).takeWhile isLetter ∈ _
  rw [takeWhile_printLine (by decide)]
  decide

end Sys2Proof.Laws.EncodingForm
end

