-- ==== Sys2Proof/Laws/Raster.lean ====
section
/-! SUPPORT. Which pixels each rasterizer operation sets (41_raster.md), as membership in its list of pixels, and the
recursion of R125. -/

namespace Sys2Proof.Machine

theorem mem_hlinePoints {x y l px py : Int} : (px, py) ∈ hlinePoints x y l ↔ x ≤ px ∧ px < x + l ∧ py = y := by
  simp only [hlinePoints, List.mem_map, mem_rangeFrom, Prod.mk.injEq]
  constructor
  · rintro ⟨a, ⟨h1, h2⟩, rfl, rfl⟩
    exact ⟨h1, h2, rfl⟩
  · rintro ⟨h1, h2, rfl⟩
    exact ⟨px, ⟨h1, h2⟩, rfl, rfl⟩

theorem mem_vlinePoints {x y l px py : Int} : (px, py) ∈ vlinePoints x y l ↔ px = x ∧ y ≤ py ∧ py < y + l := by
  simp only [vlinePoints, List.mem_map, mem_rangeFrom, Prod.mk.injEq]
  constructor
  · rintro ⟨a, ⟨h1, h2⟩, rfl, rfl⟩
    exact ⟨rfl, h1, h2⟩
  · rintro ⟨rfl, h1, h2⟩
    exact ⟨py, ⟨h1, h2⟩, rfl, rfl⟩

theorem mem_lineWalkPoints {arith : LineArith} {x0 y0 x1 y1 px py : Int} :
    (px, py) ∈ lineWalkPoints arith x0 y0 x1 y1 ↔ x0 ≤ px ∧ px ≤ x1 ∧ py = lineY arith x0 y0 x1 y1 px := by
  simp only [lineWalkPoints, List.mem_map, mem_interval, Prod.mk.injEq]
  constructor
  · rintro ⟨a, ⟨h1, h2⟩, rfl, rfl⟩
    exact ⟨h1, h2, rfl⟩
  · rintro ⟨h1, h2, rfl⟩
    exact ⟨px, ⟨h1, h2⟩, rfl, rfl⟩

theorem mem_rectFillPoints {x0 y0 x1 y1 px py : Int} :
    (px, py) ∈ rectFillPoints x0 y0 x1 y1 ↔ (x0 ≤ px ∧ px ≤ x1) ∧ y0 ≤ py ∧ py ≤ y1 := by
  simp only [rectFillPoints, List.mem_flatMap, List.mem_map, mem_interval, Prod.mk.injEq]
  constructor
  · rintro ⟨a, h1, b, h2, rfl, rfl⟩
    exact ⟨h1, h2⟩
  · rintro ⟨h1, h2⟩
    exact ⟨px, h1, py, h2, rfl, rfl⟩

theorem mem_ringPoints {arith : RootArith} {cx cy r px py : Int} :
    (px, py) ∈ ringPoints arith cx cy r ↔
      ((cx - r ≤ px ∧ px ≤ cx + r) ∧
        (py = rootPlus arith cy (r * r - (px - cx) * (px - cx)).toNat ∨
          py = rootMinus arith cy (r * r - (px - cx) * (px - cx)).toNat)) ∨
      ((cy - r ≤ py ∧ py ≤ cy + r) ∧
        (px = rootPlus arith cx (r * r - (py - cy) * (py - cy)).toNat ∨
          px = rootMinus arith cx (r * r - (py - cy) * (py - cy)).toNat)) := by
  simp only [ringPoints, List.mem_append, List.mem_flatMap, mem_interval, List.mem_cons, Prod.mk.injEq,
    List.not_mem_nil, or_false]
  constructor
  · rintro (⟨a, h, (⟨rfl, rfl⟩ | ⟨rfl, rfl⟩)⟩ | ⟨a, h, (⟨rfl, rfl⟩ | ⟨rfl, rfl⟩)⟩)
    · exact .inl ⟨h, .inl rfl⟩
    · exact .inl ⟨h, .inr rfl⟩
    · exact .inr ⟨h, .inl rfl⟩
    · exact .inr ⟨h, .inr rfl⟩
  · rintro (⟨h, (rfl | rfl)⟩ | ⟨h, (rfl | rfl)⟩)
    · exact .inl ⟨px, h, .inl ⟨rfl, rfl⟩⟩
    · exact .inl ⟨px, h, .inr ⟨rfl, rfl⟩⟩
    · exact .inr ⟨py, h, .inl ⟨rfl, rfl⟩⟩
    · exact .inr ⟨py, h, .inr ⟨rfl, rfl⟩⟩

theorem mem_ringsDown {arith : RootArith} {cx cy : Int} {n : Nat} {p : Int × Int} :
    p ∈ ringsDown arith cx cy n ↔ ∃ k : Int, 1 ≤ k ∧ k ≤ n ∧ p ∈ ringPoints arith cx cy k := by
  induction n with
  | zero =>
    simp only [ringsDown, List.not_mem_nil, false_iff, not_exists]
    rintro k ⟨h1, h2, -⟩
    omega
  | succ n ih =>
    rw [ringsDown, List.mem_append, ih]
    constructor
    · rintro (h | ⟨k, h1, h2, h3⟩)
      · exact ⟨(n : Int) + 1, by omega, by push_cast; omega, h⟩
      · exact ⟨k, h1, by push_cast; omega, h3⟩
    · rintro ⟨k, h1, h2, h3⟩
      by_cases hk : k = (n : Int) + 1
      · left; rwa [← hk]
      · right; exact ⟨k, h1, by push_cast at h2; omega, h3⟩

/-- A circle sets its own ring, and a filled one the rings below it down to 1 (R125). -/
theorem mem_circlePoints {arith : RootArith} {cx cy r : Int} {fill : Bool} {p : Int × Int} :
    p ∈ circlePoints arith cx cy r fill ↔
      p ∈ ringPoints arith cx cy r ∨ (fill = true ∧ ∃ k, 1 ≤ k ∧ k < r ∧ p ∈ ringPoints arith cx cy k) := by
  unfold circlePoints
  rw [List.mem_append]
  refine or_congr_right ?_
  by_cases hf : fill = true
  · by_cases hr : 1 < r
    · simp only [hf, hr, decide_true, Bool.and_self, if_true, true_and, mem_ringsDown]
      refine exists_congr fun k => and_congr_right fun _ => and_congr_left fun _ => ?_
      omega
    · simp only [hf, hr, decide_false, Bool.and_false, Bool.false_eq_true, if_false, List.not_mem_nil, true_and,
        false_iff, not_exists]
      rintro k ⟨h1, h2, -⟩
      omega
  · simp [hf]

/-- The recursion of R125: `ring(r)`, and where filled and `r > 1` the filled circle of radius `r - 1`. -/
theorem circlePoints_rec (arith : RootArith) (cx cy r : Int) (fill : Bool) :
    circlePoints arith cx cy r fill =
      ringPoints arith cx cy r ++ (if fill = true ∧ 1 < r then circlePoints arith cx cy (r - 1) true else []) := by
  unfold circlePoints
  by_cases hf : fill = true
  · by_cases hr : 1 < r
    · simp only [hf, hr, decide_true, Bool.and_self, if_true, and_self]
      obtain ⟨n, hn⟩ : ∃ n : Nat, (r - 1).toNat = n + 1 := ⟨(r - 1).toNat - 1, by omega⟩
      have e : (n : Int) + 1 = r - 1 := by omega
      rw [hn, ringsDown, e]
      by_cases h2 : 1 < r - 1
      · have : (r - 1 - 1).toNat = n := by omega
        simp [h2, this]
      · have : n = 0 := by omega
        simp [h2, this, ringsDown]
    · simp [hf, hr]
  · simp [hf]

/-! ### Text -/

theorem mem_columnPoints {cfg : Cfg} {b : Byte} {x y px py : Int} :
    (px, py) ∈ columnPoints cfg b x y ↔ px = x ∧ ∃ k : Nat, k < 8 ∧ glyphBit cfg b k = 1#1 ∧ py = y + k := by
  simp only [columnPoints, List.mem_map, List.mem_filter, List.mem_range, Prod.mk.injEq, decide_eq_true_eq]
  constructor
  · rintro ⟨k, ⟨h1, h2⟩, rfl, rfl⟩
    exact ⟨rfl, k, h1, h2, rfl⟩
  · rintro ⟨rfl, k, h1, h2, rfl⟩
    exact ⟨k, ⟨h1, h2⟩, rfl, rfl⟩

theorem mem_glyphPoints {cfg : Cfg} {g : Glyph} {x y px py : Int} :
    (px, py) ∈ glyphPoints cfg g x y ↔
      ∃ j k : Nat, j < 8 ∧ k < 8 ∧ glyphBit cfg (g.toList.getD j 0#8) k = 1#1 ∧ px = x + j ∧ py = y + k := by
  simp only [glyphPoints, List.mem_flatMap, List.mem_range, mem_columnPoints]
  constructor
  · rintro ⟨j, hj, rfl, k, hk, hb, rfl⟩
    exact ⟨j, k, hj, hk, hb, rfl, rfl⟩
  · rintro ⟨j, k, hj, hk, hb, rfl, rfl⟩
    exact ⟨j, hj, rfl, k, hk, hb, rfl⟩

/-- Where every character has a glyph, `text` sets the pixels of each and reports none. -/
theorem mem_textRun {cfg : Cfg} {x y : Int} {str : List Char} {px py : Int} :
    (px, py) ∈ (textRun cfg x y str).1 ↔
      ∃ (n : Nat) (c : Char) (g : Glyph), str[n]? = some c ∧ (∀ d ∈ str.take n, (glyphOf cfg d).isSome) ∧
        glyphOf cfg c = some g ∧ (px, py) ∈ glyphPoints cfg g (x + 8 * n) y := by
  induction str generalizing x with
  | nil => simp [textRun]
  | cons c cs ih =>
    unfold textRun
    cases hg : glyphOf cfg c with
    | none =>
      simp only [List.not_mem_nil, false_iff, not_exists]
      rintro n d g ⟨h1, h2, h3, -⟩
      cases n with
      | zero => simp at h1; subst h1; rw [hg] at h3; cases h3
      | succ n => have := h2 c (by simp); rw [hg] at this; cases this
    | some g =>
      simp only [List.mem_append, ih]
      constructor
      · rintro (h | ⟨n, d, g', h1, h2, h3, h4⟩)
        · exact ⟨0, c, g, rfl, by simp, hg, by simpa using h⟩
        · refine ⟨n + 1, d, g', by simpa using h1, ?_, h3, ?_⟩
          · intro e he
            rcases List.mem_cons.mp (by simpa using he) with rfl | he
            · simp [hg]
            · exact h2 e he
          · have e : x + 8 + 8 * (n : Int) = x + 8 * ((n + 1 : Nat) : Int) := by push_cast; ring
            rwa [← e]
      · rintro ⟨n, d, g', h1, h2, h3, h4⟩
        cases n with
        | zero =>
          simp at h1; subst h1
          rw [hg] at h3; cases h3
          left; simpa using h4
        | succ n =>
          right
          refine ⟨n, d, g', by simpa using h1, fun e he => h2 e (by simp [he]), h3, ?_⟩
          have e : x + 8 + 8 * (n : Int) = x + 8 * ((n + 1 : Nat) : Int) := by push_cast; ring
          rwa [e]

/-- `text` reports an unknown character exactly when one of the string has no glyph, and then the first. -/
theorem textRun_snd (cfg : Cfg) (x y : Int) (str : List Char) :
    (textRun cfg x y str).2 = str.find? fun c => (glyphOf cfg c).isNone := by
  induction str generalizing x with
  | nil => rfl
  | cons c cs ih =>
    unfold textRun
    cases hg : glyphOf cfg c with
    | none => simp [hg]
    | some g => simp [hg, ih]

end Sys2Proof.Machine
end

