-- ==== Sys2Proof/Laws/Safety.lean ====
section
/-! SUPPORT. The definitions of Sys2Proof/Safety.lean on lists joined together, frames read back, and one busy answer. -/

namespace Sys2Proof.Machine

/-! ### Joined lists -/

theorem busRun_append (b : BusState) (l l' : List Event) :
    busRun b (l ++ l') = (busRun b l).bind fun b' => busRun b' l' := by
  induction l generalizing b with
  | nil => rfl
  | cons e l ih => simp only [List.cons_append, busRun, ih, Option.bind_assoc]

theorem stmtsBus_append (b : BusState) (l l' : List Stmt) :
    stmtsBus b (l ++ l') = (stmtsBus b l).bind fun b' => stmtsBus b' l' := by
  induction l generalizing b with
  | nil => rfl
  | cons st l ih =>
    cases st with
    | wait n =>
      simp only [List.cons_append, stmtsBus]
      split
      · exact ih _
      · rfl
    | act a =>
      cases a with
      | emit e =>
        simp only [List.cons_append, stmtsBus]
        split
        · rfl
        · simp only [ih, Option.bind_assoc]
      | sendImage => simp only [List.cons_append, stmtsBus, ih, Option.bind_assoc]
      | setPState p => exact ih _
      | enter p => exact ih _
      | leave p => exact ih _
      | fill c => exact ih _
      | reply r => exact ih _

theorem pstateAfter_append (p : PState) (l l' : List Stmt) :
    pstateAfter p (l ++ l') = pstateAfter (pstateAfter p l) l' := by
  induction l generalizing p with
  | nil => rfl
  | cons st l ih =>
    cases st with
    | wait n => exact ih _
    | act a => cases a <;> exact ih _

theorem pollCount_append (l l' : List Event) : pollCount (l ++ l') = pollCount l + pollCount l' := by
  induction l with
  | nil => simp [pollCount]
  | cons e l ih =>
    cases e with
    | poll b =>
      simp only [List.cons_append, pollCount, ih]
      omega
    | _ => simp only [List.cons_append, pollCount, ih]

theorem leastMs_append (l l' : List Event) : leastMs (l ++ l') = leastMs l + leastMs l' := by
  induction l with
  | nil => simp [leastMs]
  | cons e l ih =>
    cases e with
    | sleep ms =>
      simp only [List.cons_append, leastMs, ih]
      omega
    | _ => simp only [List.cons_append, leastMs, ih]

/-! ### Busy polls in a row -/

theorem busyPolls_succ (n : Nat) : busyPolls (n + 1) = busyPolls n ++ [.poll true, .sleep pollMs] := by
  rw [busyPolls, List.replicate_succ', List.flatten_append]
  simp [busyPolls]

theorem busyPolls_succ' (n : Nat) : busyPolls (n + 1) = .poll true :: .sleep pollMs :: busyPolls n := by
  rw [busyPolls, List.replicate_succ]
  rfl

/-- Ending in no busy poll, with its pause or without. -/
theorem endsBusy_zero {es : List Event} :
    EndsBusy 0 es ↔ es.getLast? ≠ some (.poll true) ∧ ∀ more, es ≠ more ++ [.poll true, .sleep pollMs] := by
  constructor
  · rintro ⟨before, rfl, h1, h2⟩
    simpa [busyPolls] using And.intro h1 h2
  · rintro ⟨h1, h2⟩
    exact ⟨es, by simp [busyPolls], h1, h2⟩

theorem endsBusy_nil : EndsBusy 0 [] := endsBusy_zero.mpr ⟨by decide, fun more h => by cases more <;> cases h⟩

/-- One busy poll more, with its pause. -/
theorem EndsBusy.busy {n : Nat} {es : List Event} (h : EndsBusy n es) :
    EndsBusy (n + 1) (es ++ [.poll true, .sleep pollMs]) := by
  obtain ⟨before, rfl, h1, h2⟩ := h
  exact ⟨before, by rw [busyPolls_succ, List.append_assoc], h1, h2⟩

/-- An idle poll ends a row of busy polls. -/
theorem endsBusy_idle (es : List Event) : EndsBusy 0 (es ++ [.poll false]) := by
  refine endsBusy_zero.mpr ⟨by simp, fun more h => ?_⟩
  have := congrArg List.getLast? h
  simp at this

/-- An event that is no poll, after a trace that ends in no busy poll. -/
theorem EndsBusy.emit {es : List Event} (h : EndsBusy 0 es) {e : Event} (he : e.isPoll = false) :
    EndsBusy 0 (es ++ [e]) := by
  refine endsBusy_zero.mpr ⟨?_, fun more hm => (endsBusy_zero.mp h).1 ?_⟩
  · rw [List.getLast?_concat]
    rintro ⟨⟩
    cases he
  · rw [show more ++ [.poll true, .sleep pollMs] = (more ++ [.poll true]) ++ [.sleep pollMs] by simp] at hm
    rw [(List.append_inj' hm rfl).1, List.getLast?_concat]

theorem freshWaits_append {l l' : List Stmt} : FreshWaits (l ++ l') ↔ FreshWaits l ∧ FreshWaits l' := by
  simp only [FreshWaits, List.mem_append]
  exact ⟨fun h => ⟨fun n hn => h n (.inl hn), fun n hn => h n (.inr hn)⟩, fun h n hn => hn.elim (h.1 n) (h.2 n)⟩

/-! ### Frames read back (30_encoding.md R63) -/

theorem framesFrom_append (dc : Option Bool) (l l' : List Event) :
    ∃ dc', framesFrom dc (l ++ l') = framesFrom dc l ++ framesFrom dc' l' := by
  induction l generalizing dc with
  | nil => exact ⟨dc, by cases dc <;> rfl⟩
  | cons e l ih =>
    cases e with
    | write bs =>
      cases dc with
      | none => exact ih none
      | some d =>
        obtain ⟨d', hd⟩ := ih (some d)
        exact ⟨d', by simp [framesFrom, hd]⟩
    | _ =>
      simp only [List.cons_append, framesFrom]
      exact ih _

/-- The frames sent to an idle panel are the frames read back. -/
theorem framesFrom_idleFrames (dc : Option Bool) (fs : List (Bool × List Byte)) :
    framesFrom dc (idleFrames fs) = fs := by
  induction fs generalizing dc with
  | nil => cases dc <;> rfl
  | cons f fs ih =>
    obtain ⟨b, bs⟩ := f
    have e : idleFrames ((b, bs) :: fs) = .poll false :: .csLow :: (if b then .dcData else .dcCmd) :: .write bs ::
        .csHigh :: idleFrames fs := by simp [idleFrames, frameEvents]
    rw [e]
    cases b <;> simp [framesFrom, ih]

/-! ### One busy answer (42_transfer.md R142) -/

theorem State.BelowBound.mono {s : State} {m n : Nat} (h : s.BelowBound n) (hm : m ≤ n) : s.BelowBound m :=
  fun bound hb => lt_of_le_of_lt hm (h bound hb)

theorem State.pollLimitReached_of_belowBound {s : State} {n : Nat} (h : s.BelowBound n) :
    s.pollLimitReached n = false := by
  unfold State.pollLimitReached
  cases hb : s.cfg.busyMaxPolls with
  | none => rfl
  | some bound =>
    have := h bound hb
    simpa using this

/-- Where a busy answer reaches no bound, the wait is suspended behind its poll and its pause. -/
theorem runStmts_busy {s : State} {n : Nat} {rest : List Stmt} (h : s.answer 0 = true)
    (hl : s.pollLimitReached (n + 1) = false) :
    runStmts (.wait n :: rest) s = (s.poll.emit (.sleep pollMs)).suspend (.wait (n + 1) :: rest) := by
  rw [runStmts, if_pos h, if_neg (by simp [hl])]

/-- Where a busy answer reaches the bound, the wait raises `DeviceUnresponsive`. -/
theorem runStmts_limit {s : State} {n : Nat} {rest : List Stmt} (h : s.answer 0 = true)
    (hl : s.pollLimitReached (n + 1) = true) :
    runStmts (.wait n :: rest) s = s.poll.raise (.deviceUnresponsive (n + 1)) := by
  rw [runStmts, if_pos h, if_pos hl]

/-- A suspended operation goes on, in the next step, from the state it was suspended in. -/
theorem step_suspended {s : State} {st : Stmt} {rest : List Stmt} (hf : s.fault = none) (hp : s.pending = []) :
    step (s.suspend (st :: rest)) = .next (runStmts (st :: rest) s) := by
  have e : (s.suspend (st :: rest)).suspend [] = s := by
    cases s
    simp only at hp
    subst hp
    rfl
  unfold step
  rw [State.suspend_fault, hf, State.suspend_pending]
  simp only [e]

end Sys2Proof.Machine
end

