-- ==== Sys2Proof/Laws/Run.lean ====
section
/-! SUPPORT. The whole run of an operation on a panel that answers busy in between (42_transfer.md R142,
70_reset_and_hazards.md R208): where it ends, and how that differs from the run on an idle panel. -/

namespace Sys2Proof.Machine

/-! ### One busy wait -/

/-- The state after a busy wait that met `n` busy answers and then an idle one. -/
def State.afterWait (s : State) (n : Nat) : State :=
  { s with
    trace := s.trace ++ busyPolls n ++ [.poll false]
    panel := s.panel.drop (n + 1)
    polls := s.polls + (n + 1) }

theorem State.answer_afterWait (s : State) (n j : Nat) : (s.afterWait n).answer j = s.answer (j + n + 1) := by
  have e : n + 1 + j = j + n + 1 := by omega
  have e' : s.polls + (n + 1) + j = s.polls + (j + n + 1) := by omega
  simp only [State.answer, State.afterWait, List.getElem?_drop, e, e']

theorem State.meetsIdle_afterWait (s : State) (n w j : Nat) :
    (s.afterWait n).MeetsIdle w j ↔ s.MeetsIdle w (j + n + 1) := by
  induction w generalizing j with
  | zero => exact Iff.rfl
  | succ w ih =>
    have hb (k : Nat) : (s.afterWait n).BelowBound k ↔ s.BelowBound k := Iff.rfl
    simp only [State.MeetsIdle, State.answer_afterWait, ih, hb]
    have e (k : Nat) : j + k + n + 1 = j + n + 1 + k := by omega
    have e' (k : Nat) : j + k + 1 + n + 1 = j + n + 1 + k + 1 := by omega
    simp only [e, e']

/-- A wait with `m` busy polls behind it that meets `n` more, the bound not reached, and then an idle answer takes `n`
steps more, and the statements behind it go on. -/
theorem stepsTo_wait (n : Nat) : ∀ (m : Nat) (rest : List Stmt) (s : State), s.Ready → s.BelowBound (m + n) →
    (∀ j, j < n → s.answer j = true) → s.answer n = false →
    stepsTo n (runStmts (.wait m :: rest) s) (runStmts rest (s.afterWait n)) := by
  induction n with
  | zero =>
    intro m rest s _ _ _ h0
    rw [runStmts, if_neg (by simp [h0])]
    simp [stepsTo, State.afterWait, State.poll, busyPolls, h0]
  | succ n ih =>
    intro m rest s hr hm hb h0
    rw [runStmts_busy (hb 0 (by omega)) (State.pollLimitReached_of_belowBound (hm.mono (by omega)))]
    refine ⟨_, step_suspended hr.1 hr.2, ?_⟩
    have key := ih (m + 1) rest (s.poll.emit (.sleep pollMs)) hr (show s.BelowBound _ from hm.mono (by omega))
      (fun j hj => (State.answer_poll s j).trans (hb _ (by omega))) ((State.answer_poll s n).trans h0)
    have e : (s.poll.emit (.sleep pollMs)).afterWait n = s.afterWait (n + 1) := by
      have h1 : 1 + (n + 1) = n + 1 + 1 := by omega
      simp [State.afterWait, State.emit, State.poll, hb 0 (by omega), busyPolls_succ', h1, Nat.add_assoc]
    rw [e] at key
    exact key

/-! ### All the statements of an operation -/

/-- The run of statements through waits that meet the given numbers of busy answers. -/
def runThrough : List Stmt → List Nat → State → State
  | [], _, s => s
  | .act a :: rest, ns, s => runThrough rest ns (a.run s)
  | .wait _ :: rest, n :: ns, s => runThrough rest ns (s.afterWait n)
  | .wait _ :: _, [], s => s

theorem stepsTo_append {k m : Nat} {s t u : State} (h : stepsTo k s t) (h' : stepsTo m t u) : stepsTo (k + m) s u := by
  induction k generalizing s with
  | zero =>
    cases h
    rwa [Nat.zero_add]
  | succ k ih =>
    obtain ⟨v, hv, hk⟩ := h
    rw [Nat.succ_add]
    exact ⟨v, hv, ih hk⟩

theorem idleAmong_succ (s : State) (m : Nat) :
    s.idleAmong (m + 1) = s.idleAmong m + if s.answer m then 0 else 1 := by
  unfold State.idleAmong
  rw [List.range_succ, List.filter_append, List.length_append]
  cases h : s.answer m <;> simp [h]

/-- The answers behind a wait are the answers from its idle one on. -/
theorem idleAmong_afterWait (s : State) (n : Nat) (hb : ∀ j, j < n → s.answer j = true) (h0 : s.answer n = false)
    (m : Nat) : s.idleAmong (n + 1 + m) = (s.afterWait n).idleAmong m + 1 := by
  induction m with
  | zero =>
    have hz : ∀ k, k ≤ n → s.idleAmong k = 0 := by
      intro k
      induction k with
      | zero => intro _; rfl
      | succ k ih =>
        intro hk
        rw [idleAmong_succ, ih (by omega), hb k (by omega)]
        rfl
    rw [Nat.add_zero, idleAmong_succ, hz n le_rfl, h0]
    rfl
  | succ m ih =>
    have e : n + 1 + m = m + n + 1 := by omega
    rw [← Nat.add_assoc, idleAmong_succ, ih, idleAmong_succ, State.answer_afterWait, e]
    omega

theorem idleAmong_mono (s : State) {m k : Nat} (h : m ≤ k) : s.idleAmong m ≤ s.idleAmong k := by
  induction k with
  | zero =>
    cases Nat.le_zero.mp h
    exact le_rfl
  | succ k ih =>
    rcases Nat.lt_or_ge k m with hk | hk
    · have : m = k + 1 := by omega
      rw [this]
    · have := ih hk
      rw [idleAmong_succ]
      omega

/-- Statements whose waits have not begun and all meet an idle answer, the bound not reached, run to their end, in as
many steps more as they meet busy answers. Those answers, with the idle ones, are among any that hold enough idle ones. -/
theorem run_to_end (l : List Stmt) : ∀ (s : State), s.Ready → FreshWaits l → s.MeetsIdle (waits l) 0 →
    ∃ ns, ns.length = waits l ∧ stepsTo ns.sum (runStmts l s) (runThrough l ns s) ∧
      ∀ m, waits l ≤ s.idleAmong m → ns.sum ≤ m := by
  induction l with
  | nil =>
    intro s _ _ _
    exact ⟨[], rfl, rfl, fun m _ => Nat.zero_le m⟩
  | cons st rest ih =>
    intro s hr hf hw
    have hf' : FreshWaits rest := fun n hn => hf n (List.mem_cons_of_mem _ hn)
    cases st with
    | act a =>
      have ha : ∀ w j, (a.run s).MeetsIdle w j ↔ s.MeetsIdle w j := by
        intro w
        induction w with
        | zero => exact fun _ => Iff.rfl
        | succ w ihw => intro j; simp only [State.MeetsIdle, State.BelowBound, Act.run_cfg, Act.run_answer, ihw]
      obtain ⟨ns, h1, h2, h3⟩ := ih (a.run s) ⟨by rw [Act.run_fault]; exact hr.1, by rw [Act.run_pending]; exact hr.2⟩
        hf' ((ha _ _).mpr hw)
      refine ⟨ns, h1, h2, fun m hi => h3 m ?_⟩
      have e : (a.run s).idleAmong m = s.idleAmong m := by simp only [State.idleAmong, Act.run_answer]
      rw [e]
      exact hi
    | wait n0 =>
      obtain ⟨n, hm, hb, h0, hn⟩ := hw
      obtain rfl : n0 = 0 := hf n0 (List.mem_cons_self ..)
      simp only [Nat.zero_add] at hb h0 hn
      obtain ⟨ns, h1, h2, h3⟩ := ih (s.afterWait n) hr hf'
        ((State.meetsIdle_afterWait s n _ 0).mpr (by rwa [Nat.zero_add]))
      refine ⟨n :: ns, by simp [h1, waits], ?_, fun m hi => ?_⟩
      · rw [List.sum_cons]
        exact stepsTo_append (stepsTo_wait n 0 rest s hr (by rwa [Nat.zero_add]) hb h0) h2
      · have hpos : n + 1 ≤ m := by
          by_contra hc
          have h4 := idleAmong_mono s (show m ≤ n by omega)
          have h5 := idleAmong_afterWait s n hb h0 0
          have h6 : (s.afterWait n).idleAmong 0 = 0 := rfl
          rw [Nat.add_zero, idleAmong_succ, h0, h6] at h5
          simp only [waits] at hi
          simp at h5
          omega
        obtain ⟨m', rfl⟩ := Nat.exists_eq_add_of_le hpos
        rw [idleAmong_afterWait s n hb h0] at hi
        simp only [waits] at hi
        have := h3 m' (by omega)
        rw [List.sum_cons]
        omega

theorem withoutBusy_busyPolls (n : Nat) (es : List Event) :
    withoutBusy (busyPolls n ++ .poll false :: es) = .poll false :: withoutBusy es := by
  induction n with
  | zero => rfl
  | succ n ih =>
    rw [busyPolls_succ']
    exact ih

/-- What busy answers change in a run: its polls and pauses, no frame, no other part of the state. `s'` differs from `s` in
trace, panel and poll count at most. -/
theorem runThrough_sim (l : List Stmt) : ∀ (ns : List Nat) (s s' : State), ns.length = waits l →
    (∀ st ∈ l, ∀ e, st = .act (.emit e) → e.isPoll = false) →
    s' = { s with trace := s'.trace, panel := s'.panel, polls := s'.polls } →
    ∃ es, (runThrough l ns s).trace = s.trace ++ es ∧ (runIdle l s').trace = s'.trace ++ withoutBusy es ∧
      runThrough l ns s = { runIdle l s' with
        trace := (runThrough l ns s).trace, panel := (runThrough l ns s).panel, polls := (runThrough l ns s).polls } := by
  induction l with
  | nil =>
    intro ns s s' _ _ h
    refine ⟨[], by simp [runThrough], by simp [runIdle, withoutBusy], ?_⟩
    rw [h]
    rfl
  | cons st rest ih =>
    intro ns s s' hl hp h
    have hp' : ∀ st ∈ rest, ∀ e, st = .act (.emit e) → e.isPoll = false := fun st hs => hp st (List.mem_cons_of_mem _ hs)
    cases st with
    | act a =>
      have one (e : Event) (he : e.isPoll = false) (es : List Event) : withoutBusy (e :: es) = e :: withoutBusy es := by
        cases e with
        | poll b => cases he
        | _ => rfl
      cases a with
      | emit e =>
        obtain ⟨es, h1, h2, h3⟩ := ih ns (s.emit e) (s'.emit e) hl hp' (by rw [h]; rfl)
        refine ⟨e :: es, by simpa [runThrough, Act.run] using h1, ?_, h3⟩
        rw [one e (hp _ (List.mem_cons_self ..) e rfl)]
        simpa [runIdle, Act.run] using h2
      | sendImage =>
        have hi : s'.image = s.image := by rw [h]; rfl
        obtain ⟨es, h1, h2, h3⟩ := ih ns (s.emit (.write s.image)) (s'.emit (.write s'.image)) hl hp'
          (by rw [hi, h]; rfl)
        refine ⟨.write s.image :: es, by simpa [runThrough, Act.run] using h1, ?_, h3⟩
        rw [one _ rfl, ← hi]
        simpa [runIdle, Act.run] using h2
      | setPState p => exact ih ns _ (s'.setPState p) hl hp' (by rw [h]; rfl)
      | enter p => exact ih ns (s.setPState (p.enter s.pstate)) (s'.setPState (p.enter s'.pstate)) hl hp' (by rw [h]; rfl)
      | leave p => exact ih ns (s.setPState (p.leave s.pstate)) (s'.setPState (p.leave s'.pstate)) hl hp' (by rw [h]; rfl)
      | fill c => exact ih ns (s.fillFB c) (s'.fillFB c) hl hp' (by rw [h]; rfl)
      | reply r => exact ih ns (s.reply r) (s'.reply r) hl hp' (by rw [h]; rfl)
    | wait n0 =>
      cases ns with
      | nil => simp [waits] at hl
      | cons n ns =>
        obtain ⟨es, h1, h2, h3⟩ := ih ns (s.afterWait n) s'.pollIdle (by simpa [waits] using hl) hp' (by rw [h]; rfl)
        refine ⟨busyPolls n ++ .poll false :: es, ?_, ?_, h3⟩
        · rw [runThrough, h1]
          simp [State.afterWait]
        · rw [withoutBusy_busyPolls, runIdle, h2]
          simp [State.pollIdle]

/-- Taking busy polls and their pauses out of a trace takes out no frame. -/
theorem framesFrom_withoutBusy (dc : Option Bool) (es : List Event) :
    framesFrom dc (withoutBusy es) = framesFrom dc es := by
  fun_induction withoutBusy es generalizing dc with
  | case1 => rfl
  | case2 ms es ih => rw [ih]; simp [framesFrom]
  | case3 e es h ih =>
    cases e with
    | write bs => cases dc <;> simp [framesFrom, ih]
    | _ => simp [framesFrom, ih]

end Sys2Proof.Machine
end

