-- ==== Sys2Proof/Tests/Slice0.lean ====
section
/-! SUPPORT. Tests. Expected values are written out from the encodings of 30_encoding.md and from the vectors of
95_test_vectors.md, whose names stand in the docstrings. -/

namespace Sys2Proof.Tests

open Sys2Proof.Machine

/-! ### The parts of a test -/

/-- The glyph `T` of 95_test_vectors.md. -/
def glyphT : Glyph := #v[0x80, 0x80, 0xFF, 0x80, 0x80, 0x00, 0x00, 0x00]

/-- The glyph `I` of 95_test_vectors.md. -/
def glyphI : Glyph := #v[0x81, 0xFF, 0x81, 0x00, 0x00, 0x00, 0x00, 0x00]

/-- A configuration with the defaults of 00_scope.md R13, the two test glyphs and short made-up payloads. -/
def testCfg (o : Orient) (m : RefreshMode) : Cfg :=
  { orient := o
    mode := m
    init := { drv := [0xA1, 0xA2], boost := [0xB1], vcom := [0xC1], dummy := [0xD1], gate := [0xE1] }
    lutFull := Vector.replicate 30 0xF0
    lutPartial := Vector.replicate 30 0x0F
    windowPortrait := { ramX := [1], ramY := [2, 3], ctrX := [4], ctrY := [5, 6] }
    windowLandscape := { ramX := [0x11, 0x12], ramY := [0x13], ctrX := [0x14, 0x15], ctrY := [0x16] }
    glyphs := [('T', glyphT), ('I', glyphI)]
    fbResetFill := 0xFF
    lineY := .exact
    circleRoot := .exact
    glyphLandscapeMsbTop := true
    busyMaxPolls := none }

/-- A constructed core whose panel answers idle forty times. -/
def start (o : Orient) (m : RefreshMode) : State :=
  { State.construct (testCfg o m) with panel := List.replicate 40 false }

/-- A constructed core in front of given answers of the panel and a bound on polling. -/
def facing (answers : List Bool) (limit : Option PollBound) : State :=
  { State.construct { testCfg .landscape .full with busyMaxPolls := limit } with panel := answers }

/-- A constructed core with issues to run. -/
def issuing (is : List Issue) : State := { start .landscape .full with program := is }

/-- What an instruction leaves, by one part of the state. -/
def after {α : Type} (s : State) (i : Instr) (part : State → α) : Option α :=
  match exec i s with
  | .next t    => some (part t)
  | .fault _   => none
  | .refused _ => none

/-! ### Decoding: the command codes of 30_encoding.md R67, as bits -/

theorem test_decode_driverOutputControl : decode (.frame [0b00000001#8]) = .ok .driverOutputControl := by rfl
theorem test_decode_boosterSoftStart : decode (.frame [0b00001100#8]) = .ok .boosterSoftStart := by rfl
theorem test_decode_dataEntryMode : decode (.frame [0b00010001#8]) = .ok .dataEntryMode := by rfl
theorem test_decode_activateUpdate : decode (.frame [0b00100000#8]) = .ok .activateUpdate := by rfl
theorem test_decode_displayUpdateControl : decode (.frame [0b00100010#8]) = .ok .displayUpdateControl := by rfl
theorem test_decode_writeRam : decode (.frame [0b00100100#8]) = .ok .writeRam := by rfl
theorem test_decode_writeVcom : decode (.frame [0b00101100#8]) = .ok .writeVcom := by rfl
theorem test_decode_writeLut : decode (.frame [0b00110010#8]) = .ok .writeLut := by rfl
theorem test_decode_dummyLinePeriod : decode (.frame [0b00111010#8]) = .ok .dummyLinePeriod := by rfl
theorem test_decode_gateTime : decode (.frame [0b00111011#8]) = .ok .gateTime := by rfl
theorem test_decode_ramXStartEnd : decode (.frame [0b01000100#8]) = .ok .ramXStartEnd := by rfl
theorem test_decode_ramYStartEnd : decode (.frame [0b01000101#8]) = .ok .ramYStartEnd := by rfl
theorem test_decode_ramXCounter : decode (.frame [0b01001110#8]) = .ok .ramXCounter := by rfl
theorem test_decode_ramYCounter : decode (.frame [0b01001111#8]) = .ok .ramYCounter := by rfl
theorem test_decode_terminateFrame : decode (.frame [0b11111111#8]) = .ok .terminateFrame := by rfl
theorem test_decode_table_word : decodeTableWord 8 0x24 = some .writeRam := by decide

/-! ### Decoding: lines of 30_encoding.md R87 -/

theorem test_decode_setPixel : decode (.line "setPixel 5, 13, 0".toList) = .ok (.setPixel 5 13 0) := by rfl
theorem test_decode_getPixel : decode (.line "getPixel 0, -1 ; none".toList) = .ok (.getPixel 0 (-1)) := by rfl
theorem test_decode_fill : decode (.line "fill -7".toList) = .ok (.fill (-7)) := by rfl
theorem test_decode_hline : decode (.line "hline 3, 0, 5, 1".toList) = .ok (.hline 3 0 5 1) := by rfl
theorem test_decode_vline : decode (.line "vline 0x7F, 0, 10, 0".toList) = .ok (.vline 127 0 10 0) := by rfl
theorem test_decode_line : decode (.line "line 0, 5, 3, -2, 1".toList) = .ok (.line 0 5 3 (-2) 1) := by rfl
theorem test_decode_rect :
    decode (.line "rect 1, 2, 3, 4, 0, fill=false".toList) = .ok (.rect 1 2 3 4 0 false) := by rfl
theorem test_decode_circle :
    decode (.line "circle 5, 6, -1, 0, fill=true".toList) = .ok (.circle 5 6 (-1) 0 true) := by rfl
theorem test_decode_text :
    decode (.line "text \"I;T\", 0, 8, 1".toList) = .ok (.text ['I', ';', 'T'] 0 8 1) := by rfl
theorem test_decode_reset : decode (.line "reset".toList) = .ok .reset := by rfl
theorem test_decode_waitUntilIdle : decode (.line "waitUntilIdle".toList) = .ok .waitUntilIdle := by rfl
theorem test_decode_writeCommand : decode (.line "writeCommand [0x22]".toList) = .ok (.writeCommand [0x22]) := by rfl
theorem test_decode_writeData : decode (.line "writeData [1, 0xff, 2]".toList) = .ok (.writeData [1, 255, 2]) := by rfl
theorem test_decode_writeData_empty : decode (.line "writeData []".toList) = .ok (.writeData []) := by rfl
theorem test_decode_init : decode (.line "init  ; loads LUT_PARTIAL".toList) = .ok .init := by rfl
theorem test_decode_setMemoryArea : decode (.line "setMemoryArea".toList) = .ok .setMemoryArea := by rfl
theorem test_decode_setMemoryPointer : decode (.line "setMemoryPointer".toList) = .ok .setMemoryPointer := by rfl
theorem test_decode_writeImage : decode (.line "writeImage".toList) = .ok .writeImage := by rfl
theorem test_decode_update : decode (.line "update".toList) = .ok .update := by rfl
theorem test_decode_fullRefresh : decode (.line "fullRefresh".toList) = .ok .fullRefresh := by rfl

/-! ### Refusals of the decoder, by name -/

theorem test_refuse_unlisted : decode (.frame [0x99#8]) = .error (.unlistedCode 0x99) := by rfl
theorem test_refuse_emptyFrame : decode (.frame []) = .error .emptyFrame := by rfl
theorem test_refuse_longFrame : decode (.frame [0x24#8, 0x24#8]) = .error (.longFrame [0x24, 0x24]) := by rfl
theorem test_refuse_mnemonic : decode (.line "plot 1, 2".toList) = .error (.unknownMnemonic "plot".toList) := by rfl
theorem test_refuse_arity : decode (.line "fill 1, 2".toList) = .error (.operandTypes "fill".toList) := by rfl
theorem test_refuse_byte : decode (.line "writeData [256]".toList) = .error (.byteRange "writeData".toList) := by rfl
theorem test_refuse_separator : decode (.line "fill 1 2".toList) = .error (.badLine "fill 1 2".toList) := by rfl

/-! ### WellFormed: one ill-formed term for each check (30_encoding.md R89) -/

theorem smoke_mnemonic : RawTerm.wellFormed ⟨"plot".toList, [.int 1]⟩ = false := by decide
theorem smoke_too_few : RawTerm.wellFormed ⟨"getPixel".toList, [.int 1]⟩ = false := by decide
theorem smoke_too_many : RawTerm.wellFormed ⟨"reset".toList, [.int 1]⟩ = false := by decide
theorem smoke_type : RawTerm.wellFormed ⟨"fill".toList, [.flag true]⟩ = false := by decide
theorem smoke_byte_high : RawTerm.wellFormed ⟨"writeData".toList, [.bytes [0, 256]]⟩ = false := by decide
theorem smoke_byte_low : RawTerm.wellFormed ⟨"writeData".toList, [.bytes [-1]]⟩ = false := by decide
theorem smoke_quote : writableString ['a', quoteChar] = false := by decide
theorem smoke_newline : writableString [newlineChar] = false := by decide
theorem smoke_accepts : RawTerm.wellFormed ⟨"writeData".toList, [.bytes [0, 255]]⟩ = true := by decide

/-! ### Programs (30_encoding.md R87) -/

/-- A program's header and its lines, comments and blank lines passed over. -/
theorem test_program :
    (parseProgram "; P\nconstruct orient=Portrait, mode=Partial\n\nfill 0 ; x".toList).toOption =
      some ((.portrait, .partialRefresh), [.line "fill 0 ; x".toList]) := by decide

/-- A program without a header is refused. -/
theorem test_program_header : (parseProgram "fill 0".toList).toOption = none := by decide

/-! ### FrameBuffer operations (95_test_vectors.md 2.1) -/

/-- V-PIX-1. -/
theorem test_setPixel_landscape :
    after (start .landscape .full) (.setPixel 5 13 0) State.fb = some [(301, 0xFB)] := by decide
/-- V-PIX-6. -/
theorem test_setPixel_portrait :
    after (start .portrait .full) (.setPixel 127 295 0) State.fb = some [(4735, 0xFE)] := by decide
/-- V-PIX-8, in the state that V-PIX-1 leaves. -/
theorem test_getPixel_black :
    after { start .landscape .full with fb := [(301, 0xFB)] } (.getPixel 5 13) State.results =
      some [.pixel (some 0)] := by decide
/-- V-PIX-8. -/
theorem test_getPixel_outside :
    after (start .landscape .full) (.getPixel 296 0) State.results = some [.pixel none] := by decide
/-- V-PIX-10: the last byte of `fill 0`. -/
theorem test_fill_black :
    after (start .portrait .full) (.fill 0) (fun t => (t.byteAt 0, t.byteAt 4735)) = some (0x00, 0x00) := by
  decide +kernel
/-- V-PIX-10: `fill -7` is white. -/
theorem test_fill_white :
    after { start .landscape .full with fb := [(7, 0x00)] } (.fill (-7)) State.fb = some [] := by decide

/-! ### Rasterizer operations (95_test_vectors.md 2.2 to 2.5) -/

/-- V-LIN-2. -/
theorem test_hline_crosses_a_byte :
    after (start .portrait .full) (.hline 6 0 4 0) State.fb = some [(0, 0xFC), (1, 0x3F)] := by decide
/-- V-LIN-5. -/
theorem test_hline_edge :
    after (start .landscape .full) (.hline 294 0 5 0) State.fb = some [(294, 0x7F), (295, 0x7F)] := by decide
/-- V-LIN-3. -/
theorem test_vline :
    after (start .landscape .full) (.vline 0 6 4 0) State.fb = some [(0, 0xFC), (296, 0x3F)] := by decide
/-- V-LIN-6. -/
theorem test_vline_negative : after (start .landscape .full) (.vline 0 0 (-3) 0) State.fb = some [] := by
  decide
/-- V-LIN-7. -/
theorem test_line :
    after (start .landscape .full) (.line 0 0 4 2 0) State.fb =
      some [(0, 0x7F), (1, 0x7F), (2, 0xBF), (3, 0xBF), (4, 0xDF)] := by decide
/-- V-LIN-9: pixels `(0,5), (1,4), (2,3), (3,3)`. -/
theorem test_line_negative_slope :
    after (start .landscape .full) (.line 0 5 3 3 0) State.fb =
      some [(0, 0xFB), (1, 0xF7), (2, 0xEF), (3, 0xEF)] := by decide
/-- V-RECT-1. -/
theorem test_rect_outline :
    after (start .landscape .full) (.rect 0 0 3 2 0 false) State.fb =
      some [(0, 0x1F), (1, 0x5F), (2, 0x5F), (3, 0x3F)] := by decide
/-- V-RECT-2. -/
theorem test_rect_filled :
    after (start .landscape .full) (.rect 1 1 2 2 0 true) State.fb = some [(1, 0x9F), (2, 0x9F)] := by decide
/-- The circle of program P1. -/
theorem test_circle_ring :
    after (start .landscape .full) (.circle 50 10 2 0 false) State.fb =
      some [(344, 0x8F), (345, 0x6F), (346, 0x77), (347, 0x2F), (348, 0xDF)] := by decide +kernel
/-- Program P6. -/
theorem test_circle_filled :
    after (start .portrait .full) (.circle 8 8 3 0 true) State.fb =
      some [(80, 0xFC), (81, 0x1F), (96, 0xFA), (97, 0x1F), (112, 0xF9), (113, 0x1F), (128, 0xF8), (129, 0x8F),
        (144, 0xF8), (145, 0x1F), (160, 0xF8), (161, 0x1F), (177, 0x7F)] := by decide +kernel
/-- V-TXT-2. -/
theorem test_text_portrait :
    after (start .portrait .full) (.text ['T'] 0 0 0) State.fb =
      some [(0, 0xDF), (16, 0xDF), (32, 0xDF), (48, 0xDF), (64, 0xDF), (80, 0xDF), (96, 0xDF), (112, 0x07)] := by
  decide
/-- V-TXT-6. -/
theorem test_text_unknown :
    after (start .landscape .full) (.text ['T', 'X'] 0 0 0) (fun t => (t.fb, t.fault, t.results)) =
      some ([(0, 0x7F), (1, 0x7F), (2, 0x00), (3, 0x7F), (4, 0x7F)], some (.glyphNotFound 'X'),
        [.fault (.glyphNotFound 'X')]) := by decide

/-- R127: binary64 `sqrt(2)` is 0x3FF6A09E667F3BCD, and the floors are those of `sqrt(5)` and `sqrt(9)`. -/
theorem test_binary64_root :
    sqrt64 2 = some (0x16A09E667F3BCD, 2 ^ 52) ∧ rootPlus .binary64 10 5 = 12 ∧ rootMinus .binary64 10 5 = 7 ∧
      rootPlus .binary64 10 9 = 13 ∧ rootMinus .binary64 10 9 = 7 := by decide +kernel

/-! ### Transfer operations (95_test_vectors.md 2.6) -/

/-- V-XFER-1. -/
theorem test_reset :
    after (facing [true] none) .reset (fun t => (t.trace, t.pstate)) =
      some ([.rstLow, .sleep 10, .rstHigh, .sleep 10], .resetting) := by decide
/-- V-XFER-3. -/
theorem test_wait_idle : after (facing [false] none) .waitUntilIdle State.trace = some [.poll false] := by
  decide
/-- The first step of V-XFER-2. -/
theorem test_wait_busy :
    after (facing [true, true, false] none) .waitUntilIdle (fun t => (t.trace, t.results)) =
      some ([.poll true, .sleep 10], []) := by decide
/-- V-XFER-8: an unlisted code goes out like any other. -/
theorem test_writeCommand_unlisted :
    after (facing [false] none) (.writeCommand [0x99]) State.trace =
      some [.poll false, .csLow, .dcCmd, .write [0x99], .csHigh] := by decide
/-- The last poll of V-XFER-6, with the bound at 1. -/
theorem test_writeCommand_bound :
    after (facing [true] (some ⟨0⟩)) (.writeCommand [0x20]) (fun t => (t.trace, t.fault)) =
      some ([.poll true], some (.deviceUnresponsive 1)) := by decide
/-- V-XFER-5. -/
theorem test_writeData_empty :
    after (facing [false] none) (.writeData []) State.trace =
      some [.poll false, .csLow, .dcData, .write [], .csHigh] := by decide

/-! ### Controller sequences (95_test_vectors.md 2.7) and command rows (30_encoding.md R70 to R84) -/

/-- V-CTRL-1, read back by R63: the listed commands with their payloads. -/
theorem test_init :
    after (start .landscape .partialRefresh) .init (fun t => (readBack t.trace).take 7) =
      some [([0x01], [0xA1, 0xA2]), ([0x0C], [0xB1]), ([0x2C], [0xC1]), ([0x3A], [0xD1]), ([0x3B], [0xE1]),
        ([0x11], [0x04]), ([0x32], List.replicate 30 0x0F)] := by decide +kernel
/-- V-CTRL-1: 114 events, Initialized. -/
theorem test_init_length :
    after (start .landscape .partialRefresh) .init (fun t => (t.trace.length, t.pstate)) =
      some (114, .initialized) := by decide +kernel
/-- V-CTRL-3. -/
theorem test_setMemoryArea :
    after (start .portrait .full) .setMemoryArea (fun t => framesOf t.trace) =
      some [(false, [0x44]), (true, [1]), (false, [0x45]), (true, [2, 3])] := by decide
/-- R162 in Landscape. -/
theorem test_setMemoryPointer :
    after (start .landscape .full) .setMemoryPointer (fun t => framesOf t.trace) =
      some [(false, [0x4E]), (true, [0x14, 0x15]), (false, [0x4F]), (true, [0x16])] := by decide
/-- V-CTRL-7: 50 events, the last of them the image, and the protocol state stays. -/
theorem test_writeImage :
    after (start .landscape .full) .writeImage (fun t => (t.trace.length, t.pstate)) =
      some (50, .uninitialized) := by decide
/-- R30, T4: WritingImage while `writeImage` waits. -/
theorem test_writeImage_waits :
    after { facing [true] none with pstate := .initialized } .writeImage State.pstate = some .writingImage := by decide
/-- V-CTRL-5. -/
theorem test_update :
    after { start .landscape .full with pstate := .initialized } .update
        (fun t => (t.trace.length, framesOf t.trace, t.pstate)) =
      some (20, [(false, [0x22]), (true, [0xC4]), (false, [0x20]), (false, [0xFF])], .initialized) := by
  decide
/-- V-CTRL-6: 141 events, all white. -/
theorem test_fullRefresh :
    after { start .landscape .full with fb := [(3, 0x12)] } .fullRefresh (fun t => (t.trace.length, t.fb)) =
      some (141, []) := by decide +kernel

theorem test_driverOutputControl :
    after (start .landscape .full) .driverOutputControl (fun t => framesOf t.trace) =
      some [(false, [0x01]), (true, [0xA1, 0xA2])] := by decide
theorem test_boosterSoftStart :
    after (start .landscape .full) .boosterSoftStart (fun t => framesOf t.trace) =
      some [(false, [0x0C]), (true, [0xB1])] := by decide
theorem test_writeVcom :
    after (start .landscape .full) .writeVcom (fun t => framesOf t.trace) =
      some [(false, [0x2C]), (true, [0xC1])] := by decide
theorem test_dummyLinePeriod :
    after (start .landscape .full) .dummyLinePeriod (fun t => framesOf t.trace) =
      some [(false, [0x3A]), (true, [0xD1])] := by decide
theorem test_gateTime :
    after (start .landscape .full) .gateTime (fun t => framesOf t.trace) =
      some [(false, [0x3B]), (true, [0xE1])] := by decide
theorem test_dataEntryMode_portrait :
    after (start .portrait .full) .dataEntryMode (fun t => framesOf t.trace) =
      some [(false, [0x11]), (true, [0x03])] := by decide
/-- R76 in mode Full. -/
theorem test_writeLut_full :
    after (start .landscape .full) .writeLut (fun t => framesOf t.trace) =
      some [(false, [0x32]), (true, List.replicate 30 0xF0)] := by decide
/-- R76 in mode Partial. -/
theorem test_writeLut_partial :
    after (start .landscape .partialRefresh) .writeLut (fun t => framesOf t.trace) =
      some [(false, [0x32]), (true, List.replicate 30 0x0F)] := by decide
theorem test_ramXStartEnd :
    after (start .portrait .full) .ramXStartEnd (fun t => framesOf t.trace) =
      some [(false, [0x44]), (true, [1])] := by decide
theorem test_ramYStartEnd :
    after (start .landscape .full) .ramYStartEnd (fun t => framesOf t.trace) =
      some [(false, [0x45]), (true, [0x13])] := by decide
theorem test_ramXCounter :
    after (start .landscape .full) .ramXCounter (fun t => framesOf t.trace) =
      some [(false, [0x4E]), (true, [0x14, 0x15])] := by decide
theorem test_ramYCounter :
    after (start .portrait .full) .ramYCounter (fun t => framesOf t.trace) =
      some [(false, [0x4F]), (true, [5, 6])] := by decide
/-- R81: the code, then 4736 bytes, the first of them byte 0. -/
theorem test_writeRam :
    after { start .landscape .full with fb := [(0, 0x7F)] } .writeRam
        (fun t => (framesOf t.trace).map fun f => (f.1, f.2.length, f.2.head?)) =
      some [(false, 1, some 0x24), (true, 4736, some 0x7F)] := by decide +kernel
theorem test_displayUpdateControl :
    after (start .landscape .full) .displayUpdateControl (fun t => framesOf t.trace) =
      some [(false, [0x22]), (true, [0xC4])] := by decide
theorem test_activateUpdate :
    after (start .landscape .full) .activateUpdate State.trace =
      some [.poll false, .csLow, .dcCmd, .write [0x20], .csHigh] := by decide
theorem test_terminateFrame :
    after (start .landscape .full) .terminateFrame State.trace =
      some [.poll false, .csLow, .dcCmd, .write [0xFF], .csHigh] := by decide

/-! ### One step -/

/-- The host's next issue is taken and executed. -/
theorem test_step :
    (match step (issuing [.line "setPixel 0, 0, 0".toList, .frame [0x20]]) with
      | .next t => some (t.fb, t.program)
      | .fault _ => none
      | .refused _ => none) = some ([(0, 0x7F)], [.frame [0x20]]) := by decide

/-- A suspended operation goes on where it was. -/
theorem test_step_resumes :
    (match step { facing [false] none with pending := [.wait 1, .act (.emit .csLow), .act (.reply .done)] } with
      | .next t => some (t.trace, t.pending, t.results)
      | .fault _ => none
      | .refused _ => none) = some ([.poll false, .csLow], [], [.done]) := by decide

/-! ### Witnesses: for each statement with hypotheses, a state and operands that meet them all together -/

theorem start_ready (o : Orient) (m : RefreshMode) : (start o m).Ready := ⟨rfl, rfl⟩

theorem start_idle (o : Orient) (m : RefreshMode) {n : Nat} (h : n ≤ 40) : (start o m).AllIdle n := by
  have h40 : (start o m).AllIdle 40 := by
    cases o <;> cases m <;> (unfold State.AllIdle; decide)
  exact State.allIdle_mono h40 h

/-- A core after one reset pulse and one command frame. -/
def afterFrame : State :=
  { start .landscape .full with
    trace := [.rstLow, .sleep 10, .rstHigh, .sleep 10, .poll false, .csLow, .dcCmd, .write [0x20], .csHigh]
    polls := 1 }

theorem afterFrame_inv : afterFrame.Inv :=
  ⟨by decide, by decide, by decide, .inl rfl, fun _ => by decide, fun h => absurd rfl h,
    fun _ => endsBusy_zero.mpr ⟨by decide, fun more h => by
      have := congrArg List.getLast? h
      simp [afterFrame] at this⟩,
    fun _ h => (by cases h), fun _ h => (by cases h), fun _ h => (by cases h), rfl, by decide⟩

/-- The same core with a `text` of an unknown character to run. -/
def afterFrameText : State := { afterFrame with program := [.term (.text ['X'] 0 0 0)] }

theorem afterFrameText_inv : afterFrameText.Inv :=
  ⟨afterFrame_inv.memory, afterFrame_inv.bus, afterFrame_inv.pendingBus, afterFrame_inv.suspended,
    afterFrame_inv.protocol, afterFrame_inv.stopped, afterFrame_inv.counts, afterFrame_inv.fresh, afterFrame_inv.below,
    afterFrame_inv.bounded, afterFrame_inv.table, afterFrame_inv.counted⟩

/-- A suspended `waitUntilIdle` in front of a busy panel. -/
def waiting : State :=
  { facing [true, false] none with
    trace := [.poll true, .sleep 10], polls := 1, pending := [.wait 1, .act (.reply .done)] }

theorem waiting_inv : waiting.Inv :=
  ⟨by decide, by decide, by decide, .inr ⟨1, [.act (.reply .done)], rfl⟩, fun _ => by decide, fun h => absurd rfl h,
    fun _ => endsBusy_nil.busy, fun _ h => (by simp [waiting] at h), fun _ h => (by cases h),
    fun _ h => (by cases h), rfl, by decide⟩

/-- A suspended `waitUntilIdle` one busy answer below a bound of 2, in front of a panel that answers busy. -/
def giveUp : State :=
  { facing [true] (some ⟨1⟩) with
    trace := [.poll true, .sleep 10], polls := 1, pending := [.wait 1, .act (.reply .done)] }

theorem giveUp_inv : giveUp.Inv :=
  ⟨by decide, by decide, by decide, .inr ⟨1, [.act (.reply .done)], rfl⟩, fun _ => by decide, fun h => absurd rfl h,
    fun _ => endsBusy_nil.busy, fun _ h => (by simp [giveUp] at h), fun _ h => (by cases h; decide),
    fun _ h => (by cases h), rfl, by decide⟩

theorem witness_StepRunsTheDecodedInstruction :
    (issuing [.frame [0x20]]).Ready ∧ (issuing [.frame [0x20]]).program = .frame [0x20] :: [] ∧
      decode (.frame [0x20#8]) = .ok .activateUpdate := ⟨⟨rfl, rfl⟩, rfl, rfl⟩

theorem witness_FetchWordRunsItsRow :
    decodeTableWord 8 0x01 = some .driverOutputControl ∧ decodeTableWord 8 0xFF = some .terminateFrame := by decide

theorem witness_IllFormedIssueIsRefused :
    (issuing [.frame [0x99]]).Ready ∧ (issuing [.frame [0x99]]).program = .frame [0x99] :: [] ∧
      decode (.frame [0x99#8]) = .error (.unlistedCode 0x99) := ⟨⟨rfl, rfl⟩, rfl, rfl⟩

theorem witness_OnlyAReadyCoreAccepts :
    (start .landscape .full).Ready ∧
    ({ start .landscape .full with fault := some (.glyphNotFound 'X') } : State).fault = some (.glyphNotFound 'X') ∧
    waiting.fault = none ∧ waiting.pending ≠ [] := ⟨⟨rfl, rfl⟩, rfl, rfl, by decide⟩

theorem witness_CoreWaitsForTheHost :
    (start .landscape .full).Ready ∧ (start .landscape .full).program = [] := ⟨⟨rfl, rfl⟩, rfl⟩

theorem witness_ConstructionState : 4735 < 4736 ∧ InRange .landscape 0 0 ∧ InRange .landscape 295 127 := by decide

theorem witness_LandscapeAddress : 295 < 296 ∧ 127 < 128 ∧ 7 < 8 := by decide

theorem witness_PortraitAddress : 127 < 128 ∧ 295 < 296 ∧ 7 < 8 := by decide

theorem witness_PixelAddressIsABijection :
    InRange .landscape 295 127 ∧ InRange .portrait 127 295 ∧ 4735 < 4736 ∧ 7 < 8 ∧
      pixelIndex .landscape (295 : Int).toNat (127 : Int).toNat = pixelIndex .landscape (295 : Int).toNat (127 : Int).toNat ∧
      pixelBit .landscape (295 : Int).toNat (127 : Int).toNat = pixelBit .landscape (295 : Int).toNat (127 : Int).toNat := by
  decide

/-- Out of range at each edge, in range at the last pixel, with a colour the bit holds and one it does not, and a bit and
a byte beside the pixel's. -/
theorem witness_SetPixelChangesOneBit :
    (start .landscape .full).Ready ∧
    ¬ InRange (start .landscape .full).cfg.orient 296 0 ∧ ¬ InRange (start .landscape .full).cfg.orient (-1) 0 ∧
    ¬ InRange (start .landscape .full).cfg.orient 0 128 ∧ InRange (start .landscape .full).cfg.orient 295 127 ∧
    4735 = pixelIndex (start .landscape .full).cfg.orient (295 : Int).toNat (127 : Int).toNat ∧
    0 = pixelBit (start .landscape .full).cfg.orient (295 : Int).toNat (127 : Int).toNat ∧
    7 < 8 ∧ 7 ≠ 0 ∧ 4734 ≠ 4735 ∧
    ((start .landscape .full).byteAt 4735).getLsbD 0 = decide ((1 : Int) ≠ 0) := by
  refine ⟨⟨rfl, rfl⟩, ?_⟩
  decide

theorem witness_GetPixelReturnsTheBit :
    (start .portrait .full).Ready ∧ InRange (start .portrait .full).cfg.orient 127 295 ∧
      ¬ InRange (start .portrait .full).cfg.orient 128 0 := by
  refine ⟨⟨rfl, rfl⟩, ?_⟩
  decide

theorem witness_GetPixelAfterSetPixel :
    (start .portrait .full).Ready ∧ InRange (start .portrait .full).cfg.orient 127 295 ∧
      ((126 : Int) ≠ 127 ∨ (295 : Int) ≠ 295) := by
  refine ⟨⟨rfl, rfl⟩, ?_⟩
  decide

theorem witness_LastPixelWriteWins : (start .landscape .full).Ready := ⟨rfl, rfl⟩

theorem witness_FillSetsEveryByte :
    (start .landscape .full).Ready ∧ 4735 < 4736 ∧ InRange (start .landscape .full).cfg.orient 295 127 := by
  refine ⟨⟨rfl, rfl⟩, ?_⟩
  decide

theorem witness_HlineDrawsItsRun : (start .landscape .full).Ready := ⟨rfl, rfl⟩

theorem witness_VlineDrawsItsRun : (start .portrait .full).Ready := ⟨rfl, rfl⟩

/-- A point is vertical, and each shape of a segment exists. -/
theorem witness_LineDispatchesOnItsShape :
    (start .landscape .full).Ready ∧ (3 : Int) = 3 ∧ ((0 : Int) ≠ 3 ∧ (5 : Int) = 5) ∧ ((0 : Int) ≠ 3 ∧ (5 : Int) ≠ 3) :=
  ⟨⟨rfl, rfl⟩, by decide⟩

theorem witness_ExactLineIsTheFloorOfTheRealLine :
    (start .landscape .full).Ready ∧ (start .landscape .full).cfg.lineY = .exact ∧ (0 : Int) ≠ 7 ∧ (0 : Int) ≠ 61 ∧
      (0 : Int) < 7 ∧ InRange (start .landscape .full).cfg.orient 0 0 ∧
      InRange (start .landscape .full).cfg.orient 7 61 ∧ ((4 : Int) ≠ 0 ∧ (2 : Int) ≠ 0 ∧ (0 : Int) < 4) := by
  refine ⟨⟨rfl, rfl⟩, ?_⟩
  decide

theorem witness_FilledRectangleIsTheProduct : (start .landscape .full).Ready := ⟨rfl, rfl⟩

theorem witness_RectangleOutlineIsFourRuns : (start .landscape .full).Ready := ⟨rfl, rfl⟩

/-- A constructed core that takes its circles in binary64. -/
def binaryCircles : State := State.construct { testCfg .landscape .full with circleRoot := .binary64 }

theorem witness_CircleSamplesBothAxes : (start .landscape .full).Ready := ⟨rfl, rfl⟩

/-- The default, and binary64 at the ends of its range. -/
theorem witness_ExactCircleIsTheFloorOfTheRealCircle :
    ((start .landscape .full).Ready ∧ (start .landscape .full).cfg.circleRoot = .exact) ∧
    (binaryCircles.Ready ∧ binaryCircles.cfg.circleRoot = .binary64 ∧
      ((299 : Int) < 300 ∧ -5 ≤ (-5 : Int) ∧ (-5 : Int) < 300 ∧ -5 ≤ (299 : Int) ∧ (299 : Int) < 300)) :=
  ⟨⟨⟨rfl, rfl⟩, rfl⟩, ⟨rfl, rfl⟩, rfl, by decide⟩

/-- At radius 2 around `(10, 10)` the pixel `(12, 10)` changes. -/
theorem witness_UnfilledCircleStaysNearItsRadius :
    (start .landscape .full).Ready ∧ (start .landscape .full).cfg.circleRoot = .exact ∧ (0 : Int) ≤ 2 ∧
      after (start .landscape .full) (.circle 10 10 2 0 false) (fun t => t.pixelAt 12 10) = some (some 0) ∧
      (start .landscape .full).pixelAt 12 10 = some 1 := by
  refine ⟨⟨rfl, rfl⟩, rfl, by decide, by decide +kernel, by decide⟩

/-- At radius 2 around `(10, 10)` the pixel `(10, 12)` is neither hole. -/
theorem witness_FilledCircleLeavesItsHoles :
    (start .landscape .full).Ready ∧ (start .landscape .full).cfg.circleRoot = .exact ∧ (1 : Int) ≤ 2 ∧ (2 : Int) ≤ 2 ∧
      InRange (start .landscape .full).cfg.orient 10 12 ∧
      (10 - 10 : Int) * (10 - 10) + (12 - 10) * (12 - 10) ≤ 4 ∧ ((10 : Int) ≠ 10 ∨ (12 : Int) ≠ 10) ∧
      ((10 : Int) ≠ 10 - 1 ∨ (12 : Int) ≠ 10 - 1) := by
  refine ⟨⟨rfl, rfl⟩, rfl, ?_⟩
  decide

theorem witness_TextDrawsItsGlyphs :
    (start .portrait .full).Ready ∧ ∀ d ∈ ['I', 'T'], ∃ g, (start .portrait .full).cfg.glyphs.lookup d = some g := by
  refine ⟨⟨rfl, rfl⟩, ?_⟩
  intro d hd
  simp only [List.mem_cons, List.not_mem_nil, or_false] at hd
  rcases hd with rfl | rfl
  · exact ⟨glyphI, rfl⟩
  · exact ⟨glyphT, rfl⟩

theorem witness_TextStopsAtTheFirstUnknownCharacter :
    (start .landscape .full).Ready ∧ (∀ d ∈ ['T'], ∃ g, (start .landscape .full).cfg.glyphs.lookup d = some g) ∧
      (start .landscape .full).cfg.glyphs.lookup 'X' = none := by
  refine ⟨⟨rfl, rfl⟩, ?_, rfl⟩
  intro d hd
  rw [List.mem_singleton.mp hd]
  exact ⟨glyphT, rfl⟩

/-- Each fault is raised by some step from a state with the invariant. -/
theorem witness_FaultsComeOnlyFromTheirCauses :
    (afterFrameText.Inv ∧ ∃ t, step afterFrameText = .next t ∧ t.fault = some (.glyphNotFound 'X')) ∧
    (giveUp.Inv ∧ ∃ t, step giveUp = .next t ∧ t.fault = some (.deviceUnresponsive 2)) :=
  ⟨⟨afterFrameText_inv, _, rfl, rfl⟩, giveUp_inv, _, rfl, rfl⟩

theorem witness_ResetPulsesThePanel : (facing [true] none).Ready := ⟨rfl, rfl⟩

theorem witness_FramesOnAnIdlePanel : (start .landscape .full).Ready ∧ (start .landscape .full).AllIdle 1 :=
  ⟨⟨rfl, rfl⟩, start_idle _ _ (by decide)⟩

/-- Two busy answers below a bound of 3, none below a bound of 1, and each of the three operations. -/
theorem witness_BusyWaitPollsUntilIdle :
    (facing [true, true, false] (some ⟨2⟩)).Ready ∧
    (∀ j, j < 2 → (facing [true, true, false] (some ⟨2⟩)).answer j = true) ∧
    (facing [true, true, false] (some ⟨2⟩)).answer 2 = false ∧
    (∀ bound, (facing [true, true, false] (some ⟨2⟩)).cfg.busyMaxPolls = some bound → 2 < bound.polls) ∧
    (∀ bound, (facing [false] (some ⟨0⟩)).cfg.busyMaxPolls = some bound → 0 < bound.polls) ∧
    ∀ (bs : List Byte), ∀ p ∈ [(Instr.waitUntilIdle, ([] : List Event)),
        (.writeCommand bs, [.csLow, .dcCmd, .write bs, .csHigh]), (.writeData bs, [.csLow, .dcData, .write bs, .csHigh])],
      p ∈ [(Instr.waitUntilIdle, ([] : List Event)),
        (.writeCommand bs, [.csLow, .dcCmd, .write bs, .csHigh]), (.writeData bs, [.csLow, .dcData, .write bs, .csHigh])] := by
  refine ⟨⟨rfl, rfl⟩, by decide, by decide, fun l h => ?_, fun l h => ?_, fun _ p h => h⟩
  · cases h; decide
  · cases h; decide

/-- An operation of each clause. -/
theorem witness_StuckBusyLineNeverEnds :
    (facing [true, true, true] none).Ready ∧ transfers .fullRefresh = true ∧
      (transfers .init = true ∧ Instr.init ≠ .fullRefresh) ∧
      (facing [true, true, true] none).cfg.busyMaxPolls = none ∧
      (∀ j, j ≤ 2 → (facing [true, true, true] none).answer j = true) ∧ 4735 < 4736 := by
  refine ⟨⟨rfl, rfl⟩, rfl, ⟨rfl, by decide⟩, rfl, ?_⟩
  decide

/-- An operation of each clause at its first wait, and a wait one busy answer below its bound. -/
theorem witness_BoundedWaitFaults :
    ((facing [true, true, true] (some ⟨2⟩)).Ready ∧ transfers .fullRefresh = true ∧
      (transfers .init = true ∧ Instr.init ≠ .fullRefresh) ∧
      (facing [true, true, true] (some ⟨2⟩)).cfg.busyMaxPolls = some ⟨2⟩ ∧
      (∀ j, j < 3 → (facing [true, true, true] (some ⟨2⟩)).answer j = true) ∧ 4735 < 4736) ∧
    (giveUp.Inv ∧ giveUp.pending = .wait 1 :: [.act (.reply .done)] ∧ giveUp.cfg.busyMaxPolls = some ⟨1⟩ ∧
      ∀ j, 1 + j < 2 → giveUp.answer j = true) := by
  refine ⟨⟨⟨rfl, rfl⟩, rfl, ⟨rfl, by decide⟩, rfl, by decide, by decide⟩, giveUp_inv, rfl, rfl, fun j hj => ?_⟩
  obtain rfl : j = 0 := by omega
  rfl

/-- The first and the last row, one row with the orientation, and WRITE_LUT with and without the invariant. -/
theorem witness_PayloadCommandsSendTheirPair :
    (start .portrait .full).Ready ∧
    (start .portrait .full).AllIdle (pairFrames 0x01 [0xA1, 0xA2]).length ∧
    (start .portrait .full).AllIdle (pairFrames 0x22 [0xC4]).length ∧
    (start .portrait .full).AllIdle (pairFrames 0x32 (start .portrait .full).selectedLut.toList).length ∧
    (afterFrame.Inv ∧ afterFrame.Ready ∧ afterFrame.AllIdle 2) ∧
    (start .portrait .full).AllIdle (pairFrames 0x44 [1]).length ∧
    (start .portrait .full).cfg.windowPortrait.ramX = [1] := by
  refine ⟨⟨rfl, rfl⟩, start_idle _ _ (by decide), start_idle _ _ (by decide), start_idle _ _ (by decide),
    ⟨afterFrame_inv, ⟨rfl, rfl⟩, by unfold State.AllIdle; decide⟩, start_idle _ _ (by decide), rfl⟩

theorem witness_ImageAndBareCommandsSendTheirFrames :
    (start .landscape .full).Ready ∧ (start .landscape .full).AllIdle 2 ∧ (start .landscape .full).AllIdle 1 :=
  ⟨⟨rfl, rfl⟩, start_idle _ _ (by decide), start_idle _ _ (by decide)⟩

theorem witness_WindowAndPointerAreSentInOrder :
    (start .portrait .full).Ready ∧
    (start .portrait .full).cfg.windowPortrait = (if (start .portrait .full).cfg.orient = .portrait
      then (start .portrait .full).cfg.windowPortrait else (start .portrait .full).cfg.windowLandscape) ∧
    (start .portrait .full).AllIdle (pairFrames 0x44 [1] ++ pairFrames 0x45 [2, 3]).length ∧
    (start .portrait .full).AllIdle (pairFrames 0x4E [4] ++ pairFrames 0x4F [5, 6]).length :=
  ⟨⟨rfl, rfl⟩, rfl, start_idle _ _ (by decide), start_idle _ _ (by decide)⟩

theorem witness_InitSendsItsSequence :
    (start .portrait .partialRefresh).Ready ∧
    (start .portrait .partialRefresh).AllIdle (initFrames (start .portrait .partialRefresh).cfg).length :=
  ⟨⟨rfl, rfl⟩, start_idle _ _ (by decide)⟩

theorem witness_WriteImageSendsTheFramebuffer :
    (start .landscape .full).Ready ∧
    (start .landscape .full).AllIdle
      (areaFrames (start .landscape .full).cfg ++ pointerFrames (start .landscape .full).cfg ++
        [(false, [0x24#8]), (true, (List.range 4736).map (start .landscape .full).byteAt)]).length := by
  refine ⟨⟨rfl, rfl⟩, start_idle _ _ ?_⟩
  rw [List.length_append]
  decide

theorem witness_UpdateActivatesTheRefresh : (start .landscape .full).Ready ∧ (start .landscape .full).AllIdle 4 :=
  ⟨⟨rfl, rfl⟩, start_idle _ _ (by decide)⟩

theorem witness_FullRefreshClearsTheGhosts :
    (start .landscape .full).Ready ∧
    14 = (areaFrames (start .landscape .full).cfg).length + (pointerFrames (start .landscape .full).cfg).length + 6 ∧
    (start .landscape .full).AllIdle (2 * 14) ∧ 4735 < 4736 :=
  ⟨⟨rfl, rfl⟩, by decide, start_idle _ _ (by decide), by decide⟩

theorem witness_TracesReadBackAsTheListedCommands :
    (start .portrait .full).Ready ∧ (start .portrait .full).AllIdle 22 ∧
      (start .portrait .full).cfg.windowPortrait = window (start .portrait .full).cfg :=
  ⟨⟨rfl, rfl⟩, start_idle _ _ (by decide), rfl⟩

/-- A step from a suspended operation, and one that raises a fault. -/
theorem witness_EveryStepKeepsTheInvariant :
    (waiting.Inv ∧ ∃ t, step waiting = .next t) ∧
    afterFrameText.Inv ∧ ∃ t, step afterFrameText = .next t :=
  ⟨⟨waiting_inv, _, rfl⟩, afterFrameText_inv, _, rfl⟩

/-- `e` stands in a trace behind `before` and in front of `rest`. -/
def standsAt (trace before : List Event) (e : Event) (rest : List Event) : Prop := trace = before ++ e :: rest

theorem witness_ResetPulsesKeepTheirSettleTimes :
    afterFrame.Inv ∧
    standsAt afterFrame.trace [] .rstLow
      ([Event.sleep 10] ++ Event.rstHigh :: [.sleep 10, .poll false, .csLow, .dcCmd, .write [0x20], .csHigh]) ∧
    .rstHigh ∉ [Event.sleep 10] ∧
    standsAt afterFrame.trace [.rstLow, .sleep 10] .rstHigh
      ([Event.sleep 10, Event.poll false] ++ Event.csLow :: [.dcCmd, .write [0x20], .csHigh]) ∧
    .csLow ∉ [Event.sleep 10, Event.poll false] := ⟨afterFrame_inv, rfl, by decide, rfl, by decide⟩

theorem witness_FramesAreWhole :
    afterFrame.Inv ∧
    standsAt afterFrame.trace [.rstLow, .sleep 10, .rstHigh, .sleep 10, .poll false] .csLow
      [.dcCmd, .write [0x20], .csHigh] ∧
    standsAt afterFrame.trace [.rstLow, .sleep 10, .rstHigh, .sleep 10, .poll false, .csLow, .dcCmd] (.write [0x20])
      [.csHigh] ∧
    standsAt afterFrame.trace [.rstLow, .sleep 10, .rstHigh, .sleep 10] (.poll false)
      [.csLow, .dcCmd, .write [0x20], .csHigh] := ⟨afterFrame_inv, rfl, rfl, rfl⟩

theorem witness_HistoryOnlyGrows : ∃ t, step waiting = .next t := ⟨_, rfl⟩

/-- At once, and one step later, for an instruction of each kind the clauses speak of. -/
theorem witness_InstructionsChangeOnlyTheirOwnState :
    (∃ t, exec .waitUntilIdle (facing [true, false] none) = .next t ∧ (facing [true, false] none).program = [] ∧
      ∃ u, stepsTo 1 t u) ∧
    (∃ t, exec (.fill 0) (start .landscape .full) = .next t ∧ stepsTo 0 t t) ∧
    (∃ t, exec .fullRefresh (facing [true] none) = .next t ∧ t.pending ≠ []) ∧
    (∃ t, exec .update (facing [true] (some ⟨0⟩)) = .next t ∧ t.fault = some (.deviceUnresponsive 1)) ∧
    draws .waitUntilIdle = false ∧ movesProtocol .waitUntilIdle = false ∧ transfers (.fill 0) = false ∧
    Instr.fill 0 ≠ .reset ∧ ∀ str x y c, Instr.fill 0 ≠ .text str x y c := by
  refine ⟨⟨_, rfl, rfl, _, _, rfl, rfl⟩, ⟨_, rfl, rfl⟩, ⟨_, rfl, by decide⟩, ⟨_, rfl, rfl⟩, rfl, rfl, rfl, by decide, ?_⟩
  intro _ _ _ _ h
  cases h

/-- A step with each of the three outcomes. -/
theorem witness_ProtocolStateDecidesNothing :
    (∃ t, step waiting = .next t) ∧
    step { waiting with fault := some (.glyphNotFound 'X') } = .fault (.glyphNotFound 'X') ∧
    step (issuing [.frame []]) = .refused (.illFormed .emptyFrame) := ⟨⟨_, rfl⟩, rfl, rfl⟩

theorem witness_RefreshModeIsReadOnlyByInit :
    (∃ t, exec .fullRefresh (start .landscape .full) = .next t) ∧ Instr.fullRefresh ≠ .init := ⟨⟨_, rfl⟩, by decide⟩

/-- A panel that is busy twice before the second of the four frames of `update`. -/
def redrawing (limit : Option PollBound) : State :=
  { facing [false, true, true, false, false, false] limit with pstate := .initialized }

/-- The panel is fair with no bound, and with a bound of 3. -/
theorem redrawing_fair (limit : Option PollBound) (h : ∀ bound, limit = some bound → 2 < bound.polls) :
    (redrawing limit).PanelEventuallyIdle .update := by
  have hb (n : Nat) (hn : n ≤ 2) : (redrawing limit).BelowBound n := fun bound e => lt_of_le_of_lt hn (h bound e)
  refine ⟨0, hb 0 (by omega), ?_, rfl, 2, hb 2 le_rfl, ?_, rfl, 0, hb 0 (by omega), ?_, rfl, 0, hb 0 (by omega), ?_, rfl,
    trivial⟩
  · intro k hk; omega
  · intro k hk
    interval_cases k <;> rfl
  · intro k hk; omega
  · intro k hk; omega

/-- The premise without a bound and with one, a number of answers with enough idle ones, and a run that ends. -/
theorem witness_EveryOperationEndsOnAFairPanel :
    ((redrawing none).Ready ∧ (redrawing none).PanelEventuallyIdle .update) ∧
    ((redrawing (some ⟨2⟩)).Ready ∧ (redrawing (some ⟨2⟩)).PanelEventuallyIdle .update) ∧
    busyWaits (redrawing none) .update ≤ (redrawing none).idleAmong 6 ∧
    ∃ t u, exec .update (redrawing none) = .next t ∧ stepsTo 2 t u ∧ u.pending = [] ∧
      ∀ n, u.fault ≠ some (.deviceUnresponsive n) :=
  ⟨⟨⟨rfl, rfl⟩, redrawing_fair none fun _ h => (by cases h)⟩,
    ⟨⟨rfl, rfl⟩, redrawing_fair (some ⟨2⟩) fun _ h => (by cases h; decide)⟩, by decide, _, _, rfl,
    ⟨_, rfl, _, rfl, rfl⟩, rfl, fun _ h => (by cases h)⟩

theorem witness_BusyAnswersAddOnlyPolls :
    ((redrawing none).Ready ∧ (redrawing none).PanelEventuallyIdle .update) ∧
    (redrawing (some ⟨2⟩)).Ready ∧ (redrawing (some ⟨2⟩)).PanelEventuallyIdle .update :=
  ⟨⟨⟨rfl, rfl⟩, redrawing_fair none fun _ h => (by cases h)⟩, ⟨rfl, rfl⟩,
    redrawing_fair (some ⟨2⟩) fun _ h => (by cases h; decide)⟩

/-- Program P3 of 95_test_vectors.md in small: the frames are sent once each, the busy answers in between, in Updating
(R30, T5). -/
theorem test_update_busy_between :
    (match exec .update (redrawing none) with
      | .next t => match step t with
        | .next u => match step u with
          | .next v => some (framesOf v.trace, v.trace.length, u.pstate, v.pstate)
          | _ => none
        | _ => none
      | _ => none) =
      some ([(false, [0x22]), (true, [0xC4]), (false, [0x20]), (false, [0xFF])], 24, .updating, .initialized) := by decide

theorem witness_SuspensionOnlyAfterABusyPoll :
    ∃ t, step { facing [true] none with program := [.term .waitUntilIdle] } = .next t ∧ t.pending ≠ [] :=
  ⟨_, rfl, by decide⟩

theorem witness_PollsCarryThePanelsAnswers : waiting.Inv ∧ ∃ t, step waiting = .next t := ⟨waiting_inv, _, rfl⟩

/-- `update` sends the command frame 0x20, on an idle panel at once and on a busy one two steps later. -/
theorem witness_OperationsSendOnlyListedCodes :
    (∃ t, exec .update (start .landscape .full) = .next t ∧ stepsTo 0 t t ∧
      (false, [0x20#8]) ∈ framesOf (t.trace.drop (start .landscape .full).trace.length)) ∧
    (∃ t u, exec .update (redrawing none) = .next t ∧ (redrawing none).program = [] ∧ stepsTo 2 t u ∧
      (false, [0x20#8]) ∉ framesOf (t.trace.drop (redrawing none).trace.length) ∧
      (false, [0x20#8]) ∈ framesOf (u.trace.drop (redrawing none).trace.length)) ∧
    (∀ b, Instr.update ≠ .writeCommand b) ∧ ∀ b, Instr.update ≠ .writeData b :=
  ⟨⟨_, rfl, rfl, by decide⟩, ⟨_, _, rfl, rfl, ⟨_, rfl, _, rfl, rfl⟩, by decide, by decide⟩,
    fun _ h => (by cases h), fun _ h => (by cases h)⟩

theorem witness_WaveformTablesAreReadOnlyByInit :
    (∃ t, exec .writeLut (start .landscape .full) = .next t) ∧ Instr.writeLut ≠ .init ∧
      (start .landscape .full).cfg.mode = .full ∧
      (∃ t, exec .init (start .landscape .partialRefresh) = .next t) ∧
      (start .landscape .partialRefresh).cfg.mode = .partialRefresh :=
  ⟨⟨_, rfl⟩, by decide, rfl, ⟨_, rfl⟩, rfl⟩

end Sys2Proof.Tests
end

section
/-! PROOFS of the family 10_state.md: the dimensions of the orientations (R25). -/

namespace Sys2Proof.Machine

/-- The framebuffer holds one bit for each pixel of the panel, eight in a byte (R25). -/
theorem width_mul_height (o : Orient) : width o * height o = 8 * bufLen := by
  cases o with
  | portrait => rfl
  | landscape => rfl

/-- Settles O11: the dimensions are the definitions' own values, and both products follow from the area in bytes. -/
theorem dimensionsOfTheOrientations : Obligations.DimensionsOfTheOrientations := by
  refine ⟨rfl, rfl, rfl, rfl, rfl, fun o => ?_⟩
  rw [width_mul_height]
  exact ⟨rfl, Nat.mul_div_cancel_left bufLen (by decide)⟩

end Sys2Proof.Machine
end

section
/-! PROOFS of the family 20_memory.md: the Landscape pixel address (R41). -/

namespace Sys2Proof.Machine

theorem pixelIndex_landscape_eq_shift (x y : Nat) : pixelIndex .landscape x y = (y >>> 3) * 296 + x := by
  rw [Nat.shiftRight_eq_div_pow]
  rfl

theorem pixelBit_landscape_eq_mask (x y : Nat) : pixelBit .landscape x y = 7 - (y &&& 7) := by
  rw [Nat.and_two_pow_sub_one_eq_mod y 3]
  rfl

/-- Rows `8 * q` to `8 * q + 7` of a column share the byte `q * 296 + x`. -/
theorem pixelIndex_landscape_packed (x q : Nat) {k : Nat} (hk : k < 8) :
    pixelIndex .landscape x (8 * q + k) = q * 296 + x := by
  have hrow : (8 * q + k) / 8 = q := by omega
  simp only [pixelIndex, width, hrow]

/-- Row `8 * q + k` of a column is bit `7 - k` of its byte. -/
theorem pixelBit_landscape_packed (x q : Nat) {k : Nat} (hk : k < 8) :
    pixelBit .landscape x (8 * q + k) = 7 - k := by
  simp only [pixelBit, Nat.mul_add_mod, Nat.mod_eq_of_lt hk]

/-- Settles O12: `pixelIndex` and `pixelBit` divide by 8, which is the shift and the mask; the range is `pixelIndex_lt`, and
the eight rows of a byte have one quotient and the remainders 0 to 7. -/
theorem landscapeAddress : Obligations.LandscapeAddress := by
  intro x y hx hy
  have hrange : InRange .landscape (x : Int) (y : Int) := by
    simp only [InRange, width, height]
    omega
  have hlt : pixelIndex .landscape x y < 4736 := pixelIndex_lt hrange
  refine ⟨pixelIndex_landscape_eq_shift x y, Nat.le_of_lt_succ hlt, pixelBit_landscape_eq_mask x y, fun k hk => ⟨?_, ?_⟩⟩
  · rw [pixelIndex_landscape_packed x _ hk, pixelIndex_landscape_eq_shift]
  · exact pixelBit_landscape_packed x _ hk

end Sys2Proof.Machine
end

section
/-! PROOFS of the family 40_framebuffer.md: `setPixel` is the read-modify-write of one bit (R100, 20_memory.md R43). -/

namespace Sys2Proof.Machine

/-! ### The modified byte -/

/-- Only `c ≠ 0` of a colour is read (30_encoding.md R86). -/
theorem getLsbD_colourBit (c : Int) : (colourBit c).getLsbD 0 = decide (c ≠ 0) := by
  unfold colourBit
  by_cases hc : c = 0
  · simp [hc]
  · simp [hc]

/-- R43's own formula, whose mask `0xFF` keeps every bit of a byte. -/
theorem setBit_colourBit (b : Byte) (k : Nat) (c : Int) :
    setBit b k (colourBit c) = (b &&& ~~~(1#8 <<< k) &&& 0xFF#8) ||| ((if c ≠ 0 then 1#8 else 0#8) <<< k) := by
  have hmask : (0xFF#8 : Byte) = BitVec.allOnes 8 := rfl
  have hcolour : (colourBit c).setWidth 8 = if c ≠ 0 then 1#8 else 0#8 := by
    unfold colourBit
    by_cases hc : c = 0
    · simp [hc]
    · simp [hc]
  rw [hmask, BitVec.and_allOnes, ← hcolour]
  rfl

/-- Setting a bit to the value it holds changes nothing. -/
theorem setBit_of_getLsbD_eq {b : Byte} {k : Nat} {v : Bit} (hk : k < 8) (h : b.getLsbD k = v.getLsbD 0) :
    setBit b k v = b := by
  apply BitVec.eq_of_getLsbD_eq
  intro j _
  rw [getLsbD_setBit b k j v hk]
  by_cases hj : j = k
  · rw [if_pos hj, hj, h]
  · rw [if_neg hj]

/-! ### `setPixel` in and out of range -/

theorem State.setPixel_of_not_inRange {s : State} {x y : Int} (h : ¬ InRange s.cfg.orient x y) (c : Int) :
    s.setPixel x y c = s :=
  if_neg h

/-- The byte of an in-range pixel has that pixel's bit set to the colour. -/
theorem State.byteAt_setPixel_pixelIndex {s : State} {x y : Int} (h : InRange s.cfg.orient x y) (c : Int) :
    (s.setPixel x y c).byteAt (pixelIndex s.cfg.orient x.toNat y.toNat) =
      setBit (s.byteAt (pixelIndex s.cfg.orient x.toNat y.toNat)) (pixelBit s.cfg.orient x.toNat y.toNat)
        (colourBit c) := by
  rw [State.byteAt_setPixel, if_pos ⟨h, rfl⟩]

theorem State.byteAt_setPixel_of_ne (s : State) {x y : Int} (c : Int) {a : Nat}
    (ha : a ≠ pixelIndex s.cfg.orient x.toNat y.toNat) : (s.setPixel x y c).byteAt a = s.byteAt a := by
  rw [State.byteAt_setPixel, if_neg fun hc => ha hc.2]

/-- The host's completion reads as the framebuffer it follows. -/
@[simp] theorem State.reply_byteAt (s : State) (r : Result) (a : Nat) : (s.reply r).byteAt a = s.byteAt a := rfl

/-- Settles O15: out of range the effect is the completion alone; in range the pixel's byte becomes a `setBit`, whose
bits `getLsbD_setBit` gives, and `byteAt_setPixel_of_ne` is the frame on the other bytes. -/
theorem setPixelChangesOneBit : Obligations.SetPixelChangesOneBit := by
  intro s x y c hs
  refine ⟨(s.setPixel x y c).reply .done, exec_ready hs _, ?_, fun hout => ?_, ?_⟩
  · rw [State.setPixel_eq]
    rfl
  · rw [State.reply_fb, State.setPixel_of_not_inRange hout]
  · rintro hin i k rfl hk
    have hk8 : k < 8 := hk ▸ pixelBit_lt _ _ _
    simp only [State.reply_byteAt]
    rw [State.byteAt_setPixel_pixelIndex hin, ← hk]
    refine ⟨setBit_colourBit _ k c, fun j _ hj => ?_, ?_, fun hsame => ?_, fun a ha => ?_⟩
    · rw [getLsbD_setBit _ k j _ hk8, if_neg hj]
    · rw [getLsbD_setBit _ k k _ hk8, if_pos rfl, getLsbD_colourBit]
    · exact setBit_of_getLsbD_eq hk8 (hsame.trans (getLsbD_colourBit c).symm)
    · exact State.byteAt_setPixel_of_ne s c ha

end Sys2Proof.Machine
end

section
/-! PROOFS of the family 41_raster.md: the filled rectangle (R121). -/

namespace Sys2Proof.Machine

/-- A filled `rect` plots `rectFill`'s pixels and completes (R120). -/
theorem effect_rect_fill (s : State) (x0 y0 x1 y1 c : Int) :
    effect (.rect x0 y0 x1 y1 c true) s = (s.plot (rectFillPoints x0 y0 x1 y1) c).reply .done := rfl

/-- Settles O24: a ready core answers the effect, which plots `rectFill`'s list, and membership in that list is
membership in both closed intervals. -/
theorem filledRectangleIsTheProduct : Obligations.FilledRectangleIsTheProduct := by
  intro s x0 y0 x1 y1 c hs
  refine ⟨effect (.rect x0 y0 x1 y1 c true) s, exec_ready hs _, ?_⟩
  rw [effect_rect_fill]
  exact plot_drawsExactly s c fun _ _ => mem_rectFillPoints

end Sys2Proof.Machine
end

section
/-! PROOFS of the family 70_reset_and_hazards.md: the settle times of the reset pulse (R206). -/

namespace Sys2Proof.Machine

/-- Allowed events, cut at one of them: it is allowed at the point that those before it lead to. -/
theorem busRun_append_cons {b c : BusState} {before after : List Event} {e : Event}
    (h : busRun b (before ++ e :: after) = some c) :
    ∃ b₁ b₂, busRun b before = some b₁ ∧ b₁.step e = some b₂ ∧ busRun b₂ after = some c := by
  rw [busRun_append] at h
  obtain ⟨b₁, hbefore, hrest⟩ := Option.bind_eq_some_iff.mp h
  obtain ⟨b₂, hstep, hafter⟩ := Option.bind_eq_some_iff.mp hrest
  exact ⟨b₁, b₂, hbefore, hstep, hafter⟩

theorem BusState.step_rstLow {b b' : BusState} (h : b.step .rstLow = some b') : b' = .resetLow := by
  cases b <;> cases h
  rfl

theorem BusState.step_rstHigh {b b' : BusState} (h : b.step .rstHigh = some b') : b' = .resetRisen := by
  cases b <;> cases h
  rfl

/-- The one event allowed at `b` is a pause of at least `n` ms. -/
def BusState.Settles (b : BusState) (n : Nat) : Prop :=
  ∀ e b', b.step e = some b' → ∃ ms, e = .sleep ms ∧ n ≤ ms

theorem BusState.resetLow_settles : BusState.resetLow.Settles resetLowMs := by
  intro e b' h
  cases e with
  | sleep ms => exact ⟨ms, rfl, (Option.ite_none_right_eq_some.mp h).1⟩
  | _ => cases h

theorem BusState.resetRisen_settles : BusState.resetRisen.Settles resetHighMs := by
  intro e b' h
  cases e with
  | sleep ms => exact ⟨ms, rfl, (Option.ite_none_right_eq_some.mp h).1⟩
  | _ => cases h

/-- Where a settle time is due, it passes before any event that is not a pause: the stretch in front of that event is
not empty, and the settling pause comes first in it. -/
theorem BusState.Settles.le_leastMs {b c : BusState} {n : Nat} (hb : b.Settles n) {between after : List Event}
    {e : Event} (h : busRun b (between ++ e :: after) = some c) (he : ∀ ms, e ≠ .sleep ms) : n ≤ leastMs between := by
  cases between with
  | nil =>
    obtain ⟨_, hstep, _⟩ := Option.bind_eq_some_iff.mp h
    obtain ⟨ms, hsleep, _⟩ := hb e _ hstep
    exact absurd hsleep (he ms)
  | cons first more =>
    obtain ⟨_, hstep, _⟩ := Option.bind_eq_some_iff.mp h
    obtain ⟨ms, rfl, hms⟩ := hb first _ hstep
    exact Nat.le_add_right_of_le hms

/-- Settles O48: each reset edge of a trace the bus allows leads to a point where a settle time is due, and neither the
rising edge nor a chip-select is a pause. -/
theorem resetPulsesKeepTheirSettleTimes : Obligations.ResetPulsesKeepTheirSettleTimes := by
  intro s hs
  refine ⟨fun before between after htrace _ => ?_, fun before between after htrace _ => ?_⟩
  · obtain ⟨_, b, _, hedge, hrest⟩ := busRun_append_cons (htrace ▸ hs.bus)
    cases BusState.step_rstLow hedge
    exact BusState.resetLow_settles.le_leastMs hrest nofun
  · obtain ⟨_, b, _, hedge, hrest⟩ := busRun_append_cons (htrace ▸ hs.bus)
    cases BusState.step_rstHigh hedge
    exact BusState.resetRisen_settles.le_leastMs hrest nofun

end Sys2Proof.Machine
end

section
/-! PROOFS of the family 30_encoding.md: the decoder reads the encoder back (O1), refuses every frame and every written term
that is none (O3, O4), and the listed words and lines (O2). -/

namespace Sys2Proof

/-! ### Lines (R87) -/

/-- A printed line decodes to the operation that its mnemonic and operands stand for. -/
theorem decode_printLine {name : List Char} (hn : name ≠ []) (hl : name.all isLetter = true)
    {texts : List (List Char)} {os : List RawOperand} (hp : List.Forall₂ Printed texts os) :
    decode (.line (printLine name texts)) = elaborateTerm { mnemonic := name, operands := os } := by
  rw [decode, decodeLine, parseLine_printed hn hl hp]

theorem elaborateTerm_writeCommand (bs : List Byte) :
    elaborateTerm { mnemonic := "writeCommand".toList, operands := [.bytes (bs.map fun b => (b.toNat : Int))] } =
      .ok (.writeCommand bs) := by
  have hrow : elaborateTerm { mnemonic := "writeCommand".toList, operands := [.bytes (bs.map fun b => (b.toNat : Int))] } =
      if [RawOperand.bytes (bs.map fun b => (b.toNat : Int))].all RawOperand.bytesInRange then
        .ok (.writeCommand (toBytes (bs.map fun b => (b.toNat : Int)))) else .error (.byteRange "writeCommand".toList) := rfl
  rw [hrow, if_pos (by simp [bytesInRange_toNat]), toBytes_toNat]

theorem elaborateTerm_writeData (bs : List Byte) :
    elaborateTerm { mnemonic := "writeData".toList, operands := [.bytes (bs.map fun b => (b.toNat : Int))] } =
      .ok (.writeData bs) := by
  have hrow : elaborateTerm { mnemonic := "writeData".toList, operands := [.bytes (bs.map fun b => (b.toNat : Int))] } =
      if [RawOperand.bytes (bs.map fun b => (b.toNat : Int))].all RawOperand.bytesInRange then
        .ok (.writeData (toBytes (bs.map fun b => (b.toNat : Int)))) else .error (.byteRange "writeData".toList) := rfl
  rw [hrow, if_pos (by simp [bytesInRange_toNat]), toBytes_toNat]

/-- A `text` is a line where its string can stand on one, and else the term. -/
theorem decode_encode_text (s : List Char) (x y c : Int) : decode (encode (.text s x y c)) = .ok (.text s x y c) := by
  rw [encode]
  by_cases hs : writableString s = true
  · rw [if_pos hs]
    exact decode_printLine (by decide) (by decide)
      (.cons (.str s hs) (.cons (.int x) (.cons (.int y) (.cons (.int c) .nil))))
  · rw [if_neg hs]
    rfl

theorem decode_encode (i : Instr) : decode (encode i) = .ok i := by
  cases i with
  | setPixel x y c =>
    exact decode_printLine (by decide) (by decide) (.cons (.int x) (.cons (.int y) (.cons (.int c) .nil)))
  | getPixel x y => exact decode_printLine (by decide) (by decide) (.cons (.int x) (.cons (.int y) .nil))
  | fill c => exact decode_printLine (by decide) (by decide) (.cons (.int c) .nil)
  | hline x y l c =>
    exact decode_printLine (by decide) (by decide)
      (.cons (.int x) (.cons (.int y) (.cons (.int l) (.cons (.int c) .nil))))
  | vline x y l c =>
    exact decode_printLine (by decide) (by decide)
      (.cons (.int x) (.cons (.int y) (.cons (.int l) (.cons (.int c) .nil))))
  | line x0 y0 x1 y1 c =>
    exact decode_printLine (by decide) (by decide)
      (.cons (.int x0) (.cons (.int y0) (.cons (.int x1) (.cons (.int y1) (.cons (.int c) .nil)))))
  | rect x0 y0 x1 y1 c f =>
    exact decode_printLine (by decide) (by decide)
      (.cons (.int x0) (.cons (.int y0) (.cons (.int x1) (.cons (.int y1) (.cons (.int c) (.cons (.flag f) .nil))))))
  | circle cx cy r c f =>
    exact decode_printLine (by decide) (by decide)
      (.cons (.int cx) (.cons (.int cy) (.cons (.int r) (.cons (.int c) (.cons (.flag f) .nil)))))
  | text s x y c => exact decode_encode_text s x y c
  | writeCommand bs =>
    exact (decode_printLine (by decide) (by decide) (.cons (.bytes bs) .nil)).trans (elaborateTerm_writeCommand bs)
  | writeData bs =>
    exact (decode_printLine (by decide) (by decide) (.cons (.bytes bs) .nil)).trans (elaborateTerm_writeData bs)
  | _ => rfl

/-- Only a `text` whose string no line can carry is issued as a term (log 16). -/
theorem encode_eq_term {i : Instr} (h : encode i = .term i) :
    ∃ s x y c, i = .text s x y c ∧ writableString s = false := by
  cases i with
  | text s x y c =>
    refine ⟨s, x, y, c, rfl, Bool.eq_false_iff.mpr fun hs => ?_⟩
    rw [encode, if_pos hs] at h
    cases h
  | _ => cases h

/-- Settles O1: each printed operand is read back (`parseLine_printed`), and the row of the mnemonic builds the instruction
from them; a wire row is its one byte. -/
theorem decodeOfEncodeIsTheInstruction : Obligations.DecodeOfEncodeIsTheInstruction :=
  fun i => ⟨decode_encode i, encode_eq_term⟩

/-- Settles O2: the decoder evaluates each word and line. -/
theorem specWordsAndLinesDecode : Obligations.SpecWordsAndLinesDecode :=
  ⟨rfl, rfl, rfl, rfl, rfl, rfl, rfl, rfl, rfl, rfl, rfl, rfl, rfl, rfl, rfl, rfl, rfl, rfl, rfl⟩

/-! ### Command frames (R66, R67) -/

/-- Every row of the opcode map is encoded as its code. -/
theorem encode_of_mem_codeTable : ∀ row ∈ codeTable, encode row.2 = .frame [row.1] := by decide

theorem mem_of_lookup {α β : Type} [BEq α] [LawfulBEq α] {l : List (α × β)} {a : α} {b : β}
    (h : l.lookup a = some b) : (a, b) ∈ l := by
  obtain ⟨l₁, l₂, rfl, -⟩ := List.lookup_eq_some_iff.mp h
  exact List.mem_append_right _ (List.mem_cons_self ..)

/-- A frame that decodes carries one code of the opcode map. -/
theorem decodeFrame_eq_ok {bs : List Byte} {i : Instr} (h : decodeFrame bs = .ok i) :
    ∃ code, bs = [code] ∧ (code, i) ∈ codeTable := by
  match bs, h with
  | [code], h =>
    refine ⟨code, rfl, mem_of_lookup ?_⟩
    rw [decodeFrame, decodeCode] at h
    cases hrow : codeTable.lookup code with
    | none => rw [hrow] at h; cases h
    | some j => rw [hrow] at h; cases h; rfl

/-- Settles O3: a frame that decodes is a row of the opcode map, which is encoded as its code, and `decode_encode` is the way
back; the count evaluates the 256 bytes. -/
theorem commandFramesDecodeByTheOpcodeMap : Obligations.CommandFramesDecodeByTheOpcodeMap := by
  refine ⟨fun bs i => ⟨fun h => ?_, fun h => ?_⟩, by decide +kernel⟩
  · obtain ⟨code, rfl, hrow⟩ := decodeFrame_eq_ok h
    exact encode_of_mem_codeTable _ hrow
  · rw [← h]
    exact decode_encode i

/-! ### Written terms (R89) -/

theorem operandsTyped_nil {os : List RawOperand} : operandsTyped os [] = true ↔ os = [] := by
  cases os <;> simp [operandsTyped]

theorem operandsTyped_cons {os : List RawOperand} {t : OperandType} {ts : List OperandType} :
    operandsTyped os (t :: ts) = true ↔ ∃ o os', os = o :: os' ∧ o.hasType t = true ∧ operandsTyped os' ts = true := by
  cases os <;> simp [operandsTyped]

theorem hasType_int {o : RawOperand} : o.hasType .int = true ↔ ∃ v, o = .int v := by
  cases o <;> simp [RawOperand.hasType]

theorem hasType_flag {o : RawOperand} : o.hasType .flag = true ↔ ∃ b, o = .flag b := by
  cases o <;> simp [RawOperand.hasType]

theorem hasType_str {o : RawOperand} : o.hasType .str = true ↔ ∃ s, o = .str s := by
  cases o <;> simp [RawOperand.hasType]

theorem hasType_bytes {o : RawOperand} : o.hasType .bytes = true ↔ ∃ bs, o = .bytes bs := by
  cases o <;> simp [RawOperand.hasType]

/-- A row of the decoder and a row of R85 agree: one mnemonic, and operands of the row's types are those that build. -/
def RowsAgree (row : List Char × (List RawOperand → Option Instr)) (sig : List Char × List OperandType) : Prop :=
  row.1 = sig.1 ∧ ∀ os, (∃ i, row.2 os = some i) ↔ operandsTyped os sig.2 = true

theorem buildRows_agree : List.Forall₂ RowsAgree buildRows signatures := by
  unfold buildRows signatures
  simp only [List.cons_append, List.nil_append, List.forall₂_cons, List.forall₂_nil_left_iff, and_true]
  refine ⟨?_, ?_, ?_, ?_, ?_, ?_, ?_, ?_, ?_, ?_, ?_, ?_, ?_, ?_, ?_, ?_, ?_, ?_, ?_⟩
  all_goals
    refine ⟨rfl, fun os => ⟨fun ⟨i, hi⟩ => ?_, fun h => ?_⟩⟩
    · dsimp only at hi ⊢
      split at hi
      · rfl
      · cases hi
    · simp only [operandsTyped_cons, operandsTyped_nil, hasType_int, hasType_flag, hasType_str, hasType_bytes] at h
      revert h
      simp only [forall_exists_index, and_imp]
      intros
      subst_vars
      exact ⟨_, rfl⟩

/-- Rows that agree are found by the same mnemonics. -/
theorem lookup_rowsAgree {rows : List (List Char × (List RawOperand → Option Instr))}
    {sigs : List (List Char × List OperandType)} (h : List.Forall₂ RowsAgree rows sigs) (name : List Char) :
    (rows.lookup name = none ∧ sigs.lookup name = none) ∨
      ∃ build ts, rows.lookup name = some build ∧ sigs.lookup name = some ts ∧ RowsAgree (name, build) (name, ts) := by
  induction h with
  | nil => exact .inl ⟨rfl, rfl⟩
  | @cons row sig rows sigs hrow _ ih =>
    obtain ⟨key, build⟩ := row
    obtain ⟨key', ts⟩ := sig
    obtain ⟨rfl, hbuild⟩ : key = key' ∧ _ := hrow
    by_cases hk : name = key
    · subst hk
      exact .inr ⟨build, ts, by simp, by simp, rfl, hbuild⟩
    · have hne : (name == key) = false := by simpa using hk
      simpa only [List.lookup, hne] using ih

/-- Settles O4: the rows of the decoder and of R85 agree (`buildRows_agree`), and both sides check the same byte range. -/
theorem writtenTermsDecodeExactlyWhenWellFormed : Obligations.WrittenTermsDecodeExactlyWhenWellFormed := by
  rintro ⟨name, os⟩
  unfold elaborateTerm RawTerm.wellFormed signature
  obtain ⟨h1, h2⟩ | ⟨build, ts, h1, h2, -, hbuild⟩ := lookup_rowsAgree buildRows_agree name
  · simp [h1, h2]
  · simp only [h1, h2]
    by_cases hr : os.all RawOperand.bytesInRange = true
    · rw [if_pos hr, hr, Bool.and_true, ← hbuild os]
      cases hb : build os with
      | none => simp [hb]
      | some i => simp [hb]
    · rw [if_neg hr, Bool.eq_false_iff.mpr hr]
      simp

end Sys2Proof
end

section
/-! PROOFS: the layer below the statements about operations. Each instruction's effect is the run of its statements, or a
drawing, or a reply (R26, R30, R85); what the statements of an operation are made of. -/

namespace Sys2Proof.Machine

/-! ### The statements of an operation -/

/-- The statements of the instructions that transfer, and of `reset`; the others have none. -/
def operation (s : State) : Instr → List Stmt
  | .driverOutputControl => driverOutputControlStmts s.cfg
  | .boosterSoftStart => boosterSoftStartStmts s.cfg
  | .dataEntryMode => dataEntryModeStmts s.cfg
  | .activateUpdate => activateUpdateStmts
  | .displayUpdateControl => displayUpdateControlStmts
  | .writeRam => writeRamStmts
  | .writeVcom => writeVcomStmts s.cfg
  | .writeLut => writeLutStmts s.selectedLut
  | .dummyLinePeriod => dummyLinePeriodStmts s.cfg
  | .gateTime => gateTimeStmts s.cfg
  | .ramXStartEnd => ramXStartEndStmts s.cfg
  | .ramYStartEnd => ramYStartEndStmts s.cfg
  | .ramXCounter => ramXCounterStmts s.cfg
  | .ramYCounter => ramYCounterStmts s.cfg
  | .terminateFrame => terminateFrameStmts
  | .setPixel _ _ _ | .getPixel _ _ | .fill _ | .hline _ _ _ _ | .vline _ _ _ _ | .line _ _ _ _ _ => []
  | .rect _ _ _ _ _ _ | .circle _ _ _ _ _ | .text _ _ _ _ => []
  | .reset => resetStmts
  | .waitUntilIdle => waitStmts
  | .writeCommand bs => commandStmts bs
  | .writeData bs => dataStmts bs
  | .init => initStmts s.cfg
  | .setMemoryArea => setMemoryAreaStmts s.cfg
  | .setMemoryPointer => setMemoryPointerStmts s.cfg
  | .writeImage => writeImageStmts s.cfg
  | .update => updateStmts
  | .fullRefresh => fullRefreshStmts s.cfg

/-- The instructions that are run as statements. -/
def Performs (i : Instr) : Prop := transfers i = true ∨ i = .reset

theorem effect_of_performs {i : Instr} (h : Performs i) (s : State) :
    effect i s = runStmts (operation s i ++ [.act (.reply .done)]) s := by
  cases i with
  | setPixel | getPixel | fill | hline | vline | line | rect | circle | text => rcases h with h | h <;> cases h
  | _ => rfl

/-- Every other instruction plots a list of pixels that the configured arithmetic may shape, fills, reads a pixel, or
draws a text. -/
theorem effect_of_not_performs {i : Instr} (h : ¬ Performs i) :
    (draws i = true ∧ ∃ (points : LineArith → RootArith → List (Int × Int)) (c : Int),
      ∀ s, effect i s = (s.plot (points s.cfg.lineY s.cfg.circleRoot) c).reply .done) ∨
    (∃ c, i = .fill c) ∨ (∃ x y, i = .getPixel x y) ∨ ∃ str x y c, i = .text str x y c := by
  cases i with
  | setPixel x y c => exact .inl ⟨rfl, fun _ _ => [(x, y)], c, fun _ => rfl⟩
  | hline x y l c => exact .inl ⟨rfl, fun _ _ => hlinePoints x y l, c, fun _ => rfl⟩
  | vline x y l c => exact .inl ⟨rfl, fun _ _ => vlinePoints x y l, c, fun _ => rfl⟩
  | line x0 y0 x1 y1 c => exact .inl ⟨rfl, fun arith _ => linePoints arith x0 y0 x1 y1, c, fun _ => rfl⟩
  | rect x0 y0 x1 y1 c f => exact .inl ⟨rfl, fun _ _ => rectPoints x0 y0 x1 y1 f, c, fun _ => rfl⟩
  | circle cx cy r c f => exact .inl ⟨rfl, fun _ arith => circlePoints arith cx cy r f, c, fun _ => rfl⟩
  | fill c => exact .inr (.inl ⟨c, rfl⟩)
  | getPixel x y => exact .inr (.inr (.inl ⟨x, y, rfl⟩))
  | text str x y c => exact .inr (.inr (.inr ⟨str, x, y, c, rfl⟩))
  | reset => exact absurd (.inr rfl) h
  | _ => exact absurd (.inl rfl) h

/-- `text` plots and completes, or raises `GlyphNotFound` at its first unknown character (R130, R132). -/
theorem drawText_cases (s : State) (str : List Char) (x y c : Int) :
    ((str.find? fun e => (glyphOf s.cfg e).isNone) = none ∧
      s.drawText str x y c = (s.plot (textRun s.cfg x y str).1 c).reply .done) ∨
    ∃ d, (str.find? fun e => (glyphOf s.cfg e).isNone) = some d ∧
      s.drawText str x y c = (s.plot (textRun s.cfg x y str).1 c).raise (.glyphNotFound d) := by
  have hsnd := textRun_snd s.cfg x y str
  unfold State.drawText
  cases hf : str.find? fun e => (glyphOf s.cfg e).isNone with
  | none =>
    rw [hf] at hsnd
    exact .inl ⟨rfl, by simp only [hsnd]⟩
  | some d =>
    rw [hf] at hsnd
    exact .inr ⟨d, rfl, by simp only [hsnd]⟩

/-- An instruction that is no run of statements changes the framebuffer and replies, once; or it is a `text` that raises
`GlyphNotFound`. -/
theorem effect_local {i : Instr} (h : ¬ Performs i) (s : State) :
    (∃ r, effect i s = { s with fb := (effect i s).fb, results := s.results ++ [r] }) ∨
    ∃ str x y c d, i = .text str x y c ∧ (str.find? fun e => (glyphOf s.cfg e).isNone) = some d ∧
      effect i s = { s with
        fb := (effect i s).fb
        fault := some (.glyphNotFound d)
        pending := []
        results := s.results ++ [.fault (.glyphNotFound d)] } := by
  obtain ⟨-, points, c, he⟩ | ⟨c, rfl⟩ | ⟨x, y, rfl⟩ | ⟨str, x, y, c, rfl⟩ := effect_of_not_performs h
  · exact .inl ⟨.done, by rw [he, State.plot_eq]; rfl⟩
  · exact .inl ⟨.done, rfl⟩
  · exact .inl ⟨_, rfl⟩
  · have he : effect (.text str x y c) s = s.drawText str x y c := rfl
    obtain ⟨-, ht⟩ | ⟨d, hd, ht⟩ := drawText_cases s str x y c
    · exact .inl ⟨.done, by rw [he, ht, State.plot_eq]; rfl⟩
    · exact .inr ⟨str, x, y, c, d, rfl, hd, by rw [he, ht, State.plot_eq]; rfl⟩

theorem effect_local_wf {i : Instr} (h : ¬ Performs i) {s : State} (hs : Memory.wf s.cfg.fbResetFill s.fb = true) :
    Memory.wf s.cfg.fbResetFill (effect i s).fb = true := by
  obtain ⟨-, points, c, he⟩ | ⟨c, rfl⟩ | ⟨x, y, rfl⟩ | ⟨str, x, y, c, rfl⟩ := effect_of_not_performs h
  · rw [he]
    exact State.plot_wf _ c hs
  · exact Memory.fill_wf _ _
  · exact hs
  · show Memory.wf _ (s.drawText str x y c).fb = true
    obtain ⟨-, ht⟩ | ⟨d, -, ht⟩ := drawText_cases s str x y c <;> rw [ht] <;> exact State.plot_wf _ c hs

theorem effect_local_fb {i : Instr} (h : ¬ Performs i) (hd : draws i = false) (s : State) : (effect i s).fb = s.fb := by
  obtain ⟨hd', -⟩ | ⟨c, rfl⟩ | ⟨x, y, rfl⟩ | ⟨str, x, y, c, rfl⟩ := effect_of_not_performs h
  · rw [hd] at hd'
    cases hd'
  · cases hd
  · rfl
  · cases hd

/-! ### What the statements of an operation are made of -/

/-- The 15 command frames that R67 lists. -/
def listedCodes : List (List Byte) :=
  [[0x01#8], [0x0C#8], [0x11#8], [0x20#8], [0x22#8], [0x24#8], [0x2C#8], [0x32#8], [0x3A#8], [0x3B#8], [0x44#8],
    [0x45#8], [0x4E#8], [0x4F#8], [0xFF#8]]

/-- The effects outside the bus that an instruction may have among its statements: `fill` where it draws, protocol states
where R30 has it write them. -/
def MayDo (i : Instr) : Act → Prop
  | .emit _ | .sendImage => False
  | .setPState _ | .enter _ | .leave _ => movesProtocol i = true
  | .fill _ => draws i = true
  | .reply _ => True

/-- Statements made of busy waits, whole frames, pauses, whole reset pulses and effects outside the bus that `i` may have;
the command frames carry a listed code, or the bytes that the host gives `writeCommand`. -/
inductive Conducts (i : Instr) : List Stmt → Prop
  | nil : Conducts i []
  | wait {l : List Stmt} : Conducts i l → Conducts i (waitStmts ++ l)
  | command {bs : List Byte} {l : List Stmt} (hbs : bs ∈ listedCodes ∨ i = .writeCommand bs) :
    Conducts i l → Conducts i (commandStmts bs ++ l)
  | data (bs : List Byte) {l : List Stmt} : Conducts i l → Conducts i (dataStmts bs ++ l)
  | image {l : List Stmt} : Conducts i l → Conducts i (imageStmts ++ l)
  | pause (ms : Nat) {l : List Stmt} : Conducts i l → Conducts i (emitStmt (.sleep ms) :: l)
  | pulse {l : List Stmt} (hi : movesProtocol i = true) : Conducts i l → Conducts i (resetStmts ++ l)
  | quiet {a : Act} {l : List Stmt} (ha : MayDo i a) : Conducts i l → Conducts i (.act a :: l)

/-! The controller sequences as what they send, between what they do outside the bus. -/

/-- What `init` sends after its reset (R160). -/
def initBody (cfg : Cfg) : List Stmt :=
  driverOutputControlStmts cfg ++ (boosterSoftStartStmts cfg ++ (writeVcomStmts cfg ++ (dummyLinePeriodStmts cfg ++
    (gateTimeStmts cfg ++ (dataEntryModeStmts cfg ++ (writeLutStmts (lutTable cfg) ++
      (setMemoryAreaStmts cfg ++ setMemoryPointerStmts cfg)))))))

/-- What `writeImage` sends (R163). -/
def imageBody (cfg : Cfg) : List Stmt := setMemoryAreaStmts cfg ++ (setMemoryPointerStmts cfg ++ writeRamStmts)

/-- What `update` sends (R164). -/
def updateBody : List Stmt := displayUpdateControlStmts ++ (activateUpdateStmts ++ terminateFrameStmts)

theorem initStmts_eq (cfg : Cfg) :
    initStmts cfg = resetStmts ++ (initBody cfg ++ [.act (.setPState .initialized)]) := by
  simp only [initStmts, initBody, List.append_assoc]

theorem writeImageStmts_eq (cfg : Cfg) :
    writeImageStmts cfg = .act (.enter .writingImage) :: (imageBody cfg ++ [.act (.leave .writingImage)]) := by
  simp [writeImageStmts, imageBody]

theorem updateStmts_eq : updateStmts = .act (.enter .updating) :: (updateBody ++ [.act (.leave .updating)]) := rfl

theorem fullRefreshStmts_eq (cfg : Cfg) : fullRefreshStmts cfg = .act (.fill 0) :: (writeImageStmts cfg ++
    (updateStmts ++ (emitStmt (.sleep settleMs) :: .act (.fill 1) :: (writeImageStmts cfg ++ updateStmts)))) := by
  simp [fullRefreshStmts]

namespace Conducts

variable {i : Instr} {l l' : List Stmt}

theorem append (h : Conducts i l) (h' : Conducts i l') : Conducts i (l ++ l') := by
  induction h with
  | nil => exact h'
  | wait _ ih => rw [List.append_assoc]; exact .wait ih
  | command hbs _ ih => rw [List.append_assoc]; exact .command hbs ih
  | data bs _ ih => rw [List.append_assoc]; exact .data bs ih
  | image _ ih => rw [List.append_assoc]; exact .image ih
  | pause ms _ ih => exact .pause ms ih
  | pulse hi _ ih => rw [List.append_assoc]; exact .pulse hi ih
  | quiet ha _ ih => exact .quiet ha ih

theorem ofCommand {bs : List Byte} (hbs : bs ∈ listedCodes ∨ i = .writeCommand bs) :
    Conducts i (commandStmts bs) := by
  simpa using Conducts.command hbs .nil

theorem ofData (bs : List Byte) : Conducts i (dataStmts bs) := by
  simpa using Conducts.data bs .nil

theorem ofImage : Conducts i imageStmts := by
  simpa using Conducts.image (i := i) .nil

theorem ofWait : Conducts i waitStmts := by
  simpa using Conducts.wait (i := i) .nil

theorem ofPulse (hi : movesProtocol i = true) : Conducts i resetStmts := by
  simpa using Conducts.pulse hi .nil

theorem ofPair {code : Byte} (hcode : [code] ∈ listedCodes) (payload : List Byte) :
    Conducts i (pairStmts code payload) := by
  unfold pairStmts
  refine (Conducts.ofCommand (.inl hcode)).append ?_
  split
  · exact .nil
  · exact Conducts.ofData payload

theorem area (cfg : Cfg) : Conducts i (setMemoryAreaStmts cfg) :=
  (Conducts.ofPair (by decide) _).append (Conducts.ofPair (by decide) _)

theorem pointer (cfg : Cfg) : Conducts i (setMemoryPointerStmts cfg) :=
  (Conducts.ofPair (by decide) _).append (Conducts.ofPair (by decide) _)

theorem writeRam : Conducts i writeRamStmts :=
  (Conducts.ofCommand (.inl (by decide))).append Conducts.ofImage

theorem initBody (cfg : Cfg) : Conducts i (initBody cfg) :=
  (Conducts.ofPair (by decide) _).append <| (Conducts.ofPair (by decide) _).append <|
    (Conducts.ofPair (by decide) _).append <| (Conducts.ofPair (by decide) _).append <|
    (Conducts.ofPair (by decide) _).append <| (Conducts.ofPair (by decide) _).append <|
    (Conducts.ofPair (by decide) _).append <| (area cfg).append (pointer cfg)

theorem imageBody (cfg : Cfg) : Conducts i (imageBody cfg) := (area cfg).append <| (pointer cfg).append writeRam

theorem updateBody : Conducts i updateBody :=
  (Conducts.ofPair (by decide) _).append <| (Conducts.ofCommand (.inl (by decide))).append
    (Conducts.ofCommand (.inl (by decide)))

theorem init (hi : movesProtocol i = true) (cfg : Cfg) : Conducts i (initStmts cfg) := by
  rw [initStmts_eq]
  exact .pulse hi ((initBody cfg).append (.quiet hi .nil))

theorem writeImage (hi : movesProtocol i = true) (cfg : Cfg) : Conducts i (writeImageStmts cfg) := by
  rw [writeImageStmts_eq]
  exact .quiet hi ((imageBody cfg).append (.quiet hi .nil))

theorem update (hi : movesProtocol i = true) : Conducts i updateStmts := by
  rw [updateStmts_eq]
  exact .quiet hi (updateBody.append (.quiet hi .nil))

theorem fullRefresh (hi : movesProtocol i = true) (hd : draws i = true) (cfg : Cfg) :
    Conducts i (fullRefreshStmts cfg) := by
  rw [fullRefreshStmts_eq]
  exact .quiet hd <| (writeImage hi cfg).append <| (update hi).append <| .pause settleMs <| .quiet hd <|
    (writeImage hi cfg).append (update hi)

end Conducts

theorem operation_conducts (i : Instr) (s : State) : Conducts i (operation s i) := by
  cases i with
  | setPixel | getPixel | fill | hline | vline | line | rect | circle | text => exact .nil
  | activateUpdate | terminateFrame => exact .ofCommand (.inl (by decide))
  | writeRam => exact .writeRam
  | reset => exact .ofPulse rfl
  | waitUntilIdle => exact .ofWait
  | writeCommand bs => exact .ofCommand (.inr rfl)
  | writeData bs => exact .ofData bs
  | init => exact .init rfl _
  | setMemoryArea => exact .area _
  | setMemoryPointer => exact .pointer _
  | writeImage => exact .writeImage rfl _
  | update => exact .update rfl
  | fullRefresh => exact .fullRefresh rfl rfl _
  | _ => exact .ofPair (by decide) _

/-- With the reply that ends it. -/
theorem operation_reply_conducts (i : Instr) (s : State) :
    Conducts i (operation s i ++ [.act (.reply .done)]) :=
  (operation_conducts i s).append (.quiet trivial .nil)

/-! ### The bus, fresh waits, polls -/

/-- Statements that emit no sample of the busy line themselves. -/
def NoPolls (l : List Stmt) : Prop := ∀ st ∈ l, ∀ e, st = .act (.emit e) → e.isPoll = false

theorem noPolls_of_stmtsBus {b b' : BusState} {l : List Stmt} (h : stmtsBus b l = some b') : NoPolls l := by
  induction l generalizing b with
  | nil => exact fun _ h => nomatch h
  | cons st rest ih =>
    cases st with
    | wait n =>
      rw [stmtsBus] at h
      exact List.forall_mem_cons.mpr ⟨nofun, ih (Option.ite_none_right_eq_some.mp h).2⟩
    | act a =>
      cases a with
      | emit e =>
        obtain ⟨he, h⟩ := Option.ite_none_left_eq_some.mp h
        obtain ⟨b₁, -, h⟩ := Option.bind_eq_some_iff.mp h
        refine List.forall_mem_cons.mpr ⟨?_, ih h⟩
        rintro _ ⟨⟩
        simpa using he
      | sendImage =>
        obtain ⟨b₁, -, h⟩ := Option.bind_eq_some_iff.mp h
        exact List.forall_mem_cons.mpr ⟨nofun, ih h⟩
      | _ => exact List.forall_mem_cons.mpr ⟨nofun, ih h⟩

/-- Conducted statements leave the bus outside every frame and every reset pulse. -/
theorem Conducts.stmtsBus {i : Instr} {l : List Stmt} (h : Conducts i l) :
    Machine.stmtsBus .idle l = some .idle := by
  induction h with
  | nil => rfl
  | quiet ha _ ih =>
    rename_i a _ _
    cases a with
    | emit | sendImage => cases ha
    | _ => exact ih
  | pause ms _ ih => exact ih
  | wait _ ih | command _ _ ih | data _ _ ih | image _ ih | pulse _ _ ih => rw [stmtsBus_append]; exact ih

theorem Conducts.freshWaits {i : Instr} {l : List Stmt} (h : Conducts i l) : FreshWaits l := by
  induction h with
  | nil => exact fun _ h => nomatch h
  | quiet ha _ ih => intro n hn; exact ih n (by simpa using hn)
  | pause ms _ ih => intro n hn; exact ih n (by simpa [emitStmt] using hn)
  | pulse _ _ ih => exact freshWaits_append.mpr ⟨fun n hn => by simp [resetStmts, emitStmt] at hn, ih⟩
  | wait _ ih | command _ _ ih | data _ _ ih | image _ ih =>
    refine freshWaits_append.mpr ⟨fun n hn => ?_, ih⟩
    simpa [waitStmts, commandStmts, dataStmts, imageStmts, emitStmt] using hn

/-- Where the instruction does not write the protocol state, its statements end in the one they find. -/
theorem Conducts.pstateAfter_eq {i : Instr} {l : List Stmt} (h : Conducts i l) (hi : movesProtocol i = false)
    (p : PState) : pstateAfter p l = p := by
  induction h with
  | nil => rfl
  | quiet ha _ ih =>
    rename_i a _ _
    cases a with
    | setPState | enter | leave => rw [MayDo, hi] at ha; cases ha
    | _ => exact ih
  | pulse hp _ _ => rw [hi] at hp; cases hp
  | pause ms _ ih => exact ih
  | wait _ ih | command _ _ ih | data _ _ ih | image _ ih => rw [pstateAfter_append]; exact ih

end Sys2Proof.Machine
end

section
/-! PROOFS: every step keeps the invariant (O47). A run is described between two statements by the state and the statements
still to run (`Running`); one lemma for each thing that can happen there. -/

namespace Sys2Proof.Machine

/-! ### One statement that needs no answer -/

/-- The bus does not look at the bytes written. -/
theorem BusState.step_write (b : BusState) (bs bs' : List Byte) : b.step (.write bs) = b.step (.write bs') := by
  cases b <;> rfl

/-- What such a statement does on the bus: nothing, or one event, allowed there and no sample of the busy line. -/
theorem Act.run_trace_cases {a : Act} {rest : List Stmt} {b c : BusState} (h : stmtsBus b (.act a :: rest) = some c)
    (s : State) :
    ((a.run s).trace = s.trace ∧ stmtsBus b rest = some c) ∨
    ∃ e b', (a.run s).trace = s.trace ++ [e] ∧ e.isPoll = false ∧ b.step e = some b' ∧ stmtsBus b' rest = some c := by
  cases a with
  | emit e =>
    obtain ⟨he, h⟩ := Option.ite_none_left_eq_some.mp h
    obtain ⟨b', hb, h⟩ := Option.bind_eq_some_iff.mp h
    exact .inr ⟨e, b', rfl, by simpa using he, hb, h⟩
  | sendImage =>
    obtain ⟨b', hb, h⟩ := Option.bind_eq_some_iff.mp h
    refine .inr ⟨.write s.image, b', State.emit_trace s _, rfl, ?_, h⟩
    rw [BusState.step_write b s.image [], hb]
  | setPState | enter | leave | fill | reply => exact .inl ⟨rfl, h⟩

theorem Act.run_wf (a : Act) {s : State} (h : Memory.wf s.cfg.fbResetFill s.fb = true) :
    Memory.wf s.cfg.fbResetFill (a.run s).fb = true := by
  cases a with
  | fill c => exact Memory.fill_wf _ _
  | _ => exact h

theorem pstateAfter_act (a : Act) (s : State) (rest : List Stmt) :
    pstateAfter (a.run s).pstate rest = pstateAfter s.pstate (.act a :: rest) := by
  cases a <;> rfl

@[simp] theorem Act.run_selectedLut (a : Act) (s : State) : (a.run s).selectedLut = s.selectedLut := by cases a <;> rfl

theorem pollCount_concat (es : List Event) {e : Event} (he : e.isPoll = false) : pollCount (es ++ [e]) = pollCount es := by
  rw [pollCount_append]
  cases e with
  | poll => cases he
  | _ => rfl

theorem busRun_concat {es : List Event} {b b' : BusState} {e : Event} (h : busRun .idle es = some b)
    (he : b.step e = some b') : busRun .idle (es ++ [e]) = some b' := by
  rw [busRun_append, h]
  show (b.step e).bind some = some b'
  rw [he]
  rfl

/-- Of statements whose waits have not begun, none is a wait with busy polls behind it. -/
theorem FreshWaits.busyCount_eq {l : List Stmt} (h : FreshWaits l) : busyCount l = 0 := by
  match l with
  | [] | .act _ :: _ => rfl
  | .wait n :: _ => exact h n (List.mem_cons_self ..)

theorem FreshWaits.tail {l : List Stmt} (h : FreshWaits l) : FreshWaits l.tail :=
  fun n hn => h n (List.mem_of_mem_tail hn)

/-! ### The run between two statements -/

/-- The invariant between two statements of a run: `s` with no operation suspended, `l` still to run. -/
structure Running (s : State) (l : List Stmt) : Prop where
  ready : s.Ready
  memory : Memory.wf s.cfg.fbResetFill s.fb = true
  bus : ∃ b, busRun .idle s.trace = some b ∧ stmtsBus b l = some .idle
  protocol : (pstateAfter s.pstate l).settled = true
  counts : EndsBusy (busyCount l) s.trace
  fresh : FreshWaits l.tail
  below : s.BelowBound (busyCount l)
  table : s.selectedLut = lutTable s.cfg
  counted : s.polls = pollCount s.trace

theorem belowBound_zero (s : State) : s.BelowBound 0 := fun bound _ => Nat.succ_pos bound.afterFirst

namespace Running

variable {s : State} {l rest : List Stmt} {n : Nat}

/-- The run of a suspended operation goes on from its suspended statements. -/
theorem of_inv (h : s.Inv) (hf : s.fault = none) : Running (s.suspend []) s.pending :=
  ⟨⟨hf, rfl⟩, h.memory, ⟨.idle, h.bus, h.pendingBus⟩, h.protocol hf, h.counts hf, h.fresh, h.below, h.table, h.counted⟩

/-- The run of an operation starts on a ready core. -/
theorem of_ready (h : s.Inv) (hr : s.Ready) (hb : stmtsBus .idle l = some .idle) (hl : FreshWaits l)
    (hp : (pstateAfter s.pstate l).settled = true) : Running s l := by
  have hc := h.counts hr.1
  rw [hr.2] at hc
  refine ⟨hr, h.memory, ⟨.idle, h.bus, hb⟩, hp, ?_, hl.tail, ?_, h.table, h.counted⟩ <;> rw [hl.busyCount_eq]
  · exact hc
  · exact belowBound_zero s

/-- With nothing left to run the invariant holds. -/
theorem inv (h : Running s []) : s.Inv := by
  obtain ⟨⟨hf, hp⟩, hmem, ⟨b, hb, hl⟩, hpro, hc, -, -, htab, hcnt⟩ := h
  cases hl
  exact ⟨hmem, hb, by rw [hp]; rfl, .inl hp, fun _ => by rw [hp]; exact hpro, fun h => absurd hf h,
    fun _ => by rw [hp]; exact hc, by rw [hp]; exact fun _ h => (nomatch h), by rw [hp]; exact belowBound_zero s,
    fun n h => (nomatch hf.symm.trans h), htab, hcnt⟩

theorem act {a : Act} (h : Running s (.act a :: rest)) : Running (a.run s) rest := by
  obtain ⟨⟨hf, hp⟩, hmem, ⟨b, hb, hl⟩, hpro, hc, hfr, -, htab, hcnt⟩ := h
  have hfr : FreshWaits rest := hfr
  have hc : EndsBusy 0 s.trace := hc
  have hends : (∃ b', busRun .idle (a.run s).trace = some b' ∧ stmtsBus b' rest = some .idle) ∧
      EndsBusy 0 (a.run s).trace ∧ pollCount (a.run s).trace = pollCount s.trace := by
    obtain ⟨ht, hl⟩ | ⟨e, b', ht, he, hstep, hl⟩ := Act.run_trace_cases hl s
    · rw [ht]
      exact ⟨⟨b, hb, hl⟩, hc, rfl⟩
    · rw [ht]
      exact ⟨⟨b', busRun_concat hb hstep, hl⟩, hc.emit he, pollCount_concat _ he⟩
  obtain ⟨hbus, hcounts, hpolls⟩ := hends
  refine ⟨⟨by rw [Act.run_fault, hf], by rw [Act.run_pending, hp]⟩, ?_, hbus, ?_, ?_, hfr.tail, ?_, ?_, ?_⟩
  · rw [Act.run_cfg]
    exact Act.run_wf a hmem
  · rw [pstateAfter_act]
    exact hpro
  · rw [hfr.busyCount_eq]
    exact hcounts
  · rw [hfr.busyCount_eq]
    exact belowBound_zero _
  · rw [Act.run_selectedLut, Act.run_cfg, htab]
  · rw [Act.run_polls, hpolls, hcnt]

/-- A wait stands outside every frame and reset pulse. -/
theorem bus_wait (h : Running s (.wait n :: rest)) :
    busRun .idle s.trace = some .idle ∧ stmtsBus .idle rest = some .idle := by
  obtain ⟨b, hb, hl⟩ := h.bus
  obtain ⟨rfl, hl⟩ := Option.ite_none_right_eq_some.mp hl
  exact ⟨hb, hl⟩

theorem idle (h : Running s (.wait n :: rest)) (h0 : s.answer 0 = false) : Running s.poll rest := by
  obtain ⟨hb, hl⟩ := h.bus_wait
  obtain ⟨hr, hmem, -, hpro, -, hfr, -, htab, hcnt⟩ := h
  have hfr : FreshWaits rest := hfr
  refine ⟨hr, hmem, ⟨.idle, busRun_concat hb rfl, hl⟩, hpro, ?_, hfr.tail, ?_, htab, ?_⟩
  · rw [hfr.busyCount_eq, State.poll_trace, h0]
    exact endsBusy_idle _
  · rw [hfr.busyCount_eq]
    exact belowBound_zero _
  · rw [State.poll_trace, pollCount_append, State.poll_polls, hcnt]
    rfl

/-- A busy poll and its pause, the bound not reached, leave the run at a wait that counts one more. -/
theorem busy (h : Running s (.wait n :: rest)) (h0 : s.answer 0 = true) (hl : s.pollLimitReached (n + 1) = false) :
    Running (s.poll.emit (.sleep pollMs)) (.wait (n + 1) :: rest) := by
  obtain ⟨hb, hbus⟩ := h.bus_wait
  obtain ⟨hr, hmem, -, hpro, hc, hfr, -, htab, hcnt⟩ := h
  have htrace : (s.poll.emit (.sleep pollMs)).trace = s.trace ++ [.poll true, .sleep pollMs] := by simp [h0]
  have hbus' : stmtsBus .idle (.wait (n + 1) :: rest) = some .idle := by rw [stmtsBus, if_pos rfl, hbus]
  refine ⟨hr, hmem, ⟨.idle, ?_, hbus'⟩, hpro, ?_, hfr, fun bound hbound => ?_, htab, ?_⟩
  · rw [htrace, busRun_append, hb]
    rfl
  · rw [htrace]
    exact EndsBusy.busy hc
  · have hbound : s.cfg.busyMaxPolls = some bound := hbound
    rw [State.pollLimitReached, hbound] at hl
    simpa [busyCount] using hl
  · rw [htrace, pollCount_append]
    show s.polls + 1 = _
    rw [hcnt]
    rfl

/-- A run that stands at a wait may be suspended there. -/
theorem suspend_inv (h : Running s (.wait n :: rest)) : (s.suspend (.wait n :: rest)).Inv := by
  obtain ⟨hb, hl⟩ := h.bus_wait
  obtain ⟨⟨hf, -⟩, hmem, ⟨b, -, hbus⟩, hpro, hc, hfr, hbelow, htab, hcnt⟩ := h
  obtain ⟨rfl, -⟩ := Option.ite_none_right_eq_some.mp hbus
  exact ⟨hmem, hb, hbus, .inr ⟨n, rest, rfl⟩, fun _ => hpro, fun h => absurd hf h, fun _ => hc, hfr, hbelow,
    fun m h => (nomatch hf.symm.trans h), htab, hcnt⟩

/-- The busy poll that reaches the bound raises `DeviceUnresponsive` with that count (R182). -/
theorem limit_inv (h : Running s (.wait n :: rest)) (h0 : s.answer 0 = true) (hl : s.pollLimitReached (n + 1) = true) :
    (s.poll.raise (.deviceUnresponsive (n + 1))).Inv := by
  obtain ⟨hb, -⟩ := h.bus_wait
  obtain ⟨-, hmem, -, -, hc, -, hbelow, htab, hcnt⟩ := h
  have htrace : (s.poll.raise (.deviceUnresponsive (n + 1))).trace = s.trace ++ [.poll true] := by simp [h0]
  refine ⟨hmem, ?_, rfl, .inl rfl, nofun, fun _ => rfl, nofun, fun _ h => (nomatch h), belowBound_zero _, ?_, htab, ?_⟩
  · rw [htrace]
    exact busRun_concat hb rfl
  · rintro m ⟨⟩
    rw [State.pollLimitReached] at hl
    cases hbound : s.cfg.busyMaxPolls with
    | none => rw [hbound] at hl; cases hl
    | some bound =>
      rw [hbound] at hl
      have hreached : bound.polls ≤ n + 1 := by simpa using hl
      have hlast : n = bound.afterFirst := by
        have := hbelow bound hbound
        simp only [busyCount, PollBound.polls] at this hreached
        omega
      exact ⟨bound, s.trace, hbound, by rw [hlast]; rfl, htrace, hlast ▸ hc⟩
  · rw [htrace, pollCount_append]
    show s.polls + 1 = _
    rw [hcnt]
    rfl

/-- Wherever a run ends, the invariant holds. -/
theorem runStmts_inv (h : Running s l) : (runStmts l s).Inv :=
  runStmts_induction (I := Running) (Q := State.Inv) (fun _ h => h.inv) (fun _ _ _ h => h.act)
    (fun _ _ _ h h0 => h.idle h0) (fun _ _ _ h h0 hl => (h.busy h0 hl).suspend_inv)
    (fun _ _ _ h h0 hl => h.limit_inv h0 hl) l s h

end Running

/-! ### The protocol state at the end of an operation -/

theorem pstateAfter_of_conducts {l : List Stmt} (h : Conducts .setMemoryArea l) (p : PState) : pstateAfter p l = p :=
  h.pstateAfter_eq rfl p

theorem pstateAfter_writeImage (cfg : Cfg) (p : PState) : pstateAfter p (writeImageStmts cfg) = p.afterTransfer := by
  rw [writeImageStmts_eq]
  simp only [pstateAfter, pstateAfter_append, pstateAfter_of_conducts (.imageBody cfg)]
  exact leave_enter p (.inl rfl)

theorem pstateAfter_update (p : PState) : pstateAfter p updateStmts = p.afterTransfer :=
  leave_enter p (.inr rfl)

theorem pstateAfter_fullRefresh (cfg : Cfg) (p : PState) : pstateAfter p (fullRefreshStmts cfg) = p.afterTransfer := by
  rw [fullRefreshStmts_eq]
  simp only [pstateAfter, pstateAfter_append, emitStmt, pstateAfter_writeImage, pstateAfter_update,
    afterTransfer_afterTransfer]

theorem afterTransfer_settled {p : PState} (h : p.settled = true) : p.afterTransfer.settled = true := by
  cases p with
  | writingImage | updating => rfl
  | _ => exact h

/-- No operation leaves a transfer state behind that it did not find (R30). -/
theorem operation_settled (i : Instr) (s : State) {p : PState} (h : p.settled = true) :
    (pstateAfter p (operation s i)).settled = true := by
  cases hi : movesProtocol i with
  | false => rw [(operation_conducts i s).pstateAfter_eq hi, h]
  | true =>
    cases i with
    | reset => rfl
    | init => simp only [operation, initStmts, pstateAfter_append]; rfl
    | writeImage => rw [operation, pstateAfter_writeImage]; exact afterTransfer_settled h
    | update => rw [operation, pstateAfter_update]; exact afterTransfer_settled h
    | fullRefresh => rw [operation, pstateAfter_fullRefresh]; exact afterTransfer_settled h
    | _ => cases hi

/-! ### A step -/

/-- The effect of an instruction that is no run of statements keeps the invariant. -/
theorem effect_local_inv {i : Instr} (hi : ¬ Performs i) {s : State} (h : s.Inv) : (effect i s).Inv := by
  have hmem := effect_local_wf hi h.memory
  obtain ⟨r, he⟩ | ⟨str, x, y, c, d, -, -, he⟩ := effect_local hi s
  · rw [he]
    exact ⟨hmem, h.bus, h.pendingBus, h.suspended, h.protocol, h.stopped, h.counts, h.fresh, h.below, h.bounded, h.table,
      h.counted⟩
  · rw [he]
    exact ⟨hmem, h.bus, rfl, .inl rfl, nofun, fun _ => rfl, nofun, fun _ h => (nomatch h), belowBound_zero _, nofun,
      h.table, h.counted⟩

theorem effect_inv (i : Instr) {s : State} (h : s.Inv) (hr : s.Ready) : (effect i s).Inv := by
  by_cases hi : Performs i
  · rw [effect_of_performs hi]
    have hc := operation_reply_conducts i s
    refine (Running.of_ready h hr hc.stmtsBus hc.freshWaits ?_).runStmts_inv
    have hp := h.protocol hr.1
    rw [hr.2] at hp
    rw [pstateAfter_append]
    exact operation_settled i s hp
  · exact effect_local_inv hi h

/-- Taking issues from the host touches nothing that the invariant speaks of. -/
theorem State.Inv.withProgram {s : State} (h : s.Inv) (p : List Issue) : State.Inv { s with program := p } :=
  ⟨h.memory, h.bus, h.pendingBus, h.suspended, h.protocol, h.stopped, h.counts, h.fresh, h.below, h.bounded, h.table,
    h.counted⟩

/-- Settles O47: a step waits, goes on with a suspended run, or starts one; a run keeps `Running` from statement to statement
and meets the invariant wherever it ends. -/
theorem everyStepKeepsTheInvariant : Obligations.EveryStepKeepsTheInvariant := by
  intro s t hs hstep
  obtain ⟨hf, ⟨-, -, rfl⟩ | ⟨-, rfl⟩ | ⟨-, issue, rest, i, -, -, hexec⟩⟩ := step_next_cases hstep
  · exact hs
  · exact (Running.of_inv hs hf).runStmts_inv
  · obtain ⟨hr, rfl⟩ := exec_next_iff.mp hexec
    exact effect_inv i (hs.withProgram rest) hr

end Sys2Proof.Machine
end

section
/-! PROOFS: what a step does with the host's next issue (O5 to O9), and the state that construction leaves (O10, O46). -/

namespace Sys2Proof.Machine

/-! ### The next issue (log 2) -/

/-- Settles O5: a ready core holds no fault and nothing pending, so the step reaches the issue and decodes it. -/
theorem stepRunsTheDecodedInstruction : Obligations.StepRunsTheDecodedInstruction := by
  rintro s issue rest i ⟨hf, hp⟩ hprogram hdecode
  unfold step State.nextIssue
  rw [hf, hp, hprogram]
  simp only [hdecode]

/-- Settles O7: as for a decoded issue, with the decoder's reason as the refusal. -/
theorem illFormedIssueIsRefused : Obligations.IllFormedIssueIsRefused := by
  rintro s issue rest e ⟨hf, hp⟩ hprogram hdecode
  unfold step State.nextIssue
  rw [hf, hp, hprogram]
  simp only [hdecode]

theorem decode_of_decodeTableWord {nbits w : Nat} {i : Instr} (h : decodeTableWord nbits w = some i) :
    decode (.frame (wordBytes nbits w)) = .ok i := by
  unfold decodeTableWord at h
  cases hd : decode (.frame (wordBytes nbits w)) with
  | error e => rw [hd] at h; cases h
  | ok j => rw [hd] at h; cases h; rfl

/-- Settles O6: the word stands in front of the program of a core made ready, whose step is O5's. -/
theorem fetchWordRunsItsRow : Obligations.FetchWordRunsItsRow := fun s nbits w i h =>
  stepRunsTheDecodedInstruction (s.withFetchWord nbits w) _ s.program i ⟨rfl, rfl⟩ rfl (decode_of_decodeTableWord h)

/-- Settles O9: with an empty program there is no next issue. -/
theorem coreWaitsForTheHost : Obligations.CoreWaitsForTheHost := by
  rintro s ⟨hf, hp⟩ hprogram
  unfold step State.nextIssue
  rw [hf, hp, hprogram]

/-- A core that holds a fault answers it (R185). -/
theorem step_faulted {s : State} {f : Fault} (h : s.fault = some f) : step s = .fault f := by
  unfold step
  rw [h]

theorem State.accept_busy {s : State} (hf : s.fault = none) (hp : s.pending ≠ []) (op : State → State) :
    s.accept op = .refused .operationInProgress := by
  unfold State.accept
  cases hpending : s.pending with
  | nil => exact absurd hpending hp
  | cons st rest => rw [hf]

/-- Settles O8: every meaning is guarded by `accept` (`exec_eq_accept`), and `accept` decides by the fault and the
operation in progress alone. -/
theorem onlyAReadyCoreAccepts : Obligations.OnlyAReadyCoreAccepts := by
  intro i s
  refine ⟨⟨fun ⟨t, ht⟩ => (exec_next_iff.mp ht).1, fun hr => ⟨_, exec_ready hr i⟩⟩, fun f hf => ?_, fun hf hp => ?_⟩
  · exact ⟨by rw [exec_eq_accept, State.accept_faulted hf], step_faulted hf⟩
  · rw [exec_eq_accept, State.accept_busy hf hp]

/-! ### Construction (R37) -/

theorem bitOf_ones {k : Nat} (hk : k < 8) : bitOf 0xFF#8 k = 1#1 := by
  interval_cases k <;> rfl

theorem lutTable_eq (cfg : Cfg) : lutTable cfg = if cfg.mode = .full then cfg.lutFull else cfg.lutPartial := by
  unfold lutTable
  cases cfg.mode <;> rfl

/-- Settles O10: no cell is listed, so every byte reads as `FB_RESET_FILL`, which `State.reset` has all ones. -/
theorem constructionState : Obligations.ConstructionState := by
  refine ⟨fun cfg => ⟨rfl, fun _ _ => rfl, rfl, rfl, rfl, lutTable_eq cfg⟩, rfl, fun x y hxy => ?_⟩
  have hbit : State.reset.pixelAt x y = some (bitOf 0xFF#8 (pixelBit .landscape x.toNat y.toNat)) := if_pos hxy
  rw [hbit, bitOf_ones (pixelBit_lt _ _ _)]

/-- Settles O46: nothing is listed, traced or pending, and the table is copied. -/
theorem constructionMeetsTheInvariant : Obligations.ConstructionMeetsTheInvariant := by
  have h (cfg : Cfg) : (State.construct cfg).Inv :=
    ⟨rfl, rfl, rfl, .inl rfl, fun _ => rfl, fun _ => rfl, fun _ => endsBusy_nil, fun _ h => (nomatch h),
      belowBound_zero _, nofun, rfl, rfl⟩
  exact ⟨h, h _⟩

end Sys2Proof.Machine
end

section
/-! PROOFS: what every step keeps of the history (O50), what its polls are (O55, O56), what raises a fault (O32), and what
stands on the bus in a state with the invariant (O49). -/

namespace Sys2Proof.Machine

/-! ### History (R33, D45) -/

/-- `t` has the history of `s`, with more behind it, and the same configuration, table and program. -/
structure Extends (s t : State) : Prop where
  trace : ∃ es, t.trace = s.trace ++ es
  results : ∃ rs, t.results = s.results ++ rs
  program : t.program = s.program
  cfg : t.cfg = s.cfg
  selectedLut : t.selectedLut = s.selectedLut

namespace Extends

theorem refl (s : State) : Extends s s := ⟨⟨[], by simp⟩, ⟨[], by simp⟩, rfl, rfl, rfl⟩

theorem trans {s t u : State} (h : Extends s t) (h' : Extends t u) : Extends s u := by
  obtain ⟨⟨es, he⟩, ⟨rs, hr⟩, hp, hc, hl⟩ := h
  obtain ⟨⟨es', he'⟩, ⟨rs', hr'⟩, hp', hc', hl'⟩ := h'
  exact ⟨⟨es ++ es', by rw [he', he, List.append_assoc]⟩, ⟨rs ++ rs', by rw [hr', hr, List.append_assoc]⟩,
    hp'.trans hp, hc'.trans hc, hl'.trans hl⟩

theorem act (a : Act) (s : State) : Extends s (a.run s) := by
  cases a with
  | emit e => exact ⟨⟨[e], rfl⟩, ⟨[], by simp [Act.run]⟩, rfl, rfl, rfl⟩
  | sendImage => exact ⟨⟨[.write s.image], State.emit_trace s _⟩, ⟨[], by simp [Act.run]⟩, rfl, rfl, rfl⟩
  | reply r => exact ⟨⟨[], by simp [Act.run]⟩, ⟨[r], rfl⟩, rfl, rfl, rfl⟩
  | _ => exact ⟨⟨[], by simp [Act.run]⟩, ⟨[], by simp [Act.run]⟩, rfl, rfl, rfl⟩

theorem poll (s : State) : Extends s s.poll := ⟨⟨_, rfl⟩, ⟨[], by simp⟩, rfl, rfl, rfl⟩

theorem suspend (s : State) (l : List Stmt) : Extends s (s.suspend l) := ⟨⟨[], by simp⟩, ⟨[], by simp⟩, rfl, rfl, rfl⟩

theorem raise (s : State) (f : Fault) : Extends s (s.raise f) := ⟨⟨[], by simp⟩, ⟨_, rfl⟩, rfl, rfl, rfl⟩

theorem runStmts (l : List Stmt) (s : State) : Extends s (runStmts l s) :=
  runStmts_induction (I := fun u _ => Extends s u) (Q := Extends s) (fun _ h => h) (fun _ a _ h => h.trans (act a _))
    (fun _ _ _ h _ => h.trans (poll _))
    (fun _ _ _ h _ _ => h.trans ((poll _).trans ((act (.emit (.sleep pollMs)) _).trans (suspend _ _))))
    (fun _ _ _ h _ _ => h.trans ((poll _).trans (raise _ _))) l s (refl s)

theorem effect (i : Instr) (s : State) : Extends s (effect i s) := by
  by_cases hi : Performs i
  · rw [effect_of_performs hi]
    exact runStmts _ s
  · obtain ⟨r, he⟩ | ⟨_, _, _, _, d, -, -, he⟩ := effect_local hi s
    · rw [he]
      exact ⟨⟨[], by simp⟩, ⟨[r], rfl⟩, rfl, rfl, rfl⟩
    · rw [he]
      exact ⟨⟨[], by simp⟩, ⟨[_], rfl⟩, rfl, rfl, rfl⟩

end Extends

/-- Settles O50: every statement and every effect extends the history (`Extends`), and only a step that executes takes an
issue, the first. -/
theorem historyOnlyGrows : Obligations.HistoryOnlyGrows := by
  intro s t hstep
  obtain ⟨-, ⟨-, -, rfl⟩ | ⟨-, rfl⟩ | ⟨-, issue, rest, i, hprogram, -, hexec⟩⟩ := step_next_cases hstep
  · exact ⟨⟨[], by simp⟩, ⟨[], by simp⟩, ⟨[], rfl⟩, rfl, rfl⟩
  · obtain ⟨htrace, hresults, hprogram, hcfg, hlut⟩ := Extends.runStmts s.pending (s.suspend [])
    exact ⟨htrace, hresults, ⟨[], by rw [hprogram]; rfl⟩, hcfg, hlut⟩
  · obtain ⟨-, rfl⟩ := exec_next_iff.mp hexec
    obtain ⟨htrace, hresults, hprogram', hcfg, hlut⟩ := Extends.effect i { s with program := rest }
    exact ⟨htrace, hresults, ⟨[issue], by rw [hprogram, hprogram']; rfl⟩, hcfg, hlut⟩

/-! ### Suspension (R55) -/

/-- Where a run that started on a ready core is suspended, it stands behind a busy poll and its pause. -/
theorem runStmts_suspended (l : List Stmt) {s : State} (hs : s.Ready) (hp : (runStmts l s).pending ≠ []) :
    ∃ es n rest, (runStmts l s).trace = es ++ [.poll true, .sleep 10] ∧ (runStmts l s).pending = .wait (n + 1) :: rest ∧
      (runStmts l s).fault = none := by
  revert hp
  refine runStmts_induction (I := fun u _ => u.Ready)
    (Q := fun u => u.pending ≠ [] → ∃ es n rest, u.trace = es ++ [.poll true, .sleep 10] ∧
      u.pending = .wait (n + 1) :: rest ∧ u.fault = none)
    (fun u hu hp => absurd hu.2 hp) (fun u a _ hu => ?_) (fun _ _ _ hu _ => hu) (fun u n rest hu h0 _ _ => ?_)
    (fun _ _ _ _ _ _ hp => absurd rfl hp) l s hs
  · exact ⟨by rw [Act.run_fault, hu.1], by rw [Act.run_pending, hu.2]⟩
  · exact ⟨u.trace, n, rest, by simp [h0, pollMs], rfl, hu.1⟩

/-- Settles O55: a step that goes on or starts an operation runs its statements (`runStmts_suspended`); the other effects leave
nothing pending. -/
theorem suspensionOnlyAfterABusyPoll : Obligations.SuspensionOnlyAfterABusyPoll := by
  intro s t hstep hp
  obtain ⟨hf, ⟨hs, -, rfl⟩ | ⟨-, rfl⟩ | ⟨-, issue, rest, i, -, -, hexec⟩⟩ := step_next_cases hstep
  · exact absurd hs hp
  · exact runStmts_suspended s.pending ⟨hf, rfl⟩ hp
  · obtain ⟨hr, rfl⟩ := exec_next_iff.mp hexec
    by_cases hi : Performs i
    · rw [effect_of_performs hi] at hp ⊢
      exact runStmts_suspended _ hr hp
    · obtain ⟨r, he⟩ | ⟨_, _, _, _, _, -, -, he⟩ := effect_local hi { s with program := rest }
      · rw [he] at hp
        exact absurd hr.2 hp
      · rw [he] at hp
        exact absurd rfl hp

/-! ### Polls (R16, D36) -/

/-- The answers that the polls of a trace carry. -/
def polled (es : List Event) : List Bool := es.filterMap fun e => match e with | .poll b => some b | _ => none

theorem polled_append (es es' : List Event) : polled (es ++ es') = polled es ++ polled es' := List.filterMap_append

theorem polled_of_not_isPoll {e : Event} (he : e.isPoll = false) : polled [e] = [] := by
  cases e with
  | poll => cases he
  | _ => rfl

/-- `t` has polled `p` times since `s`, and its polls carry the panel's next `p` answers. -/
def HasPolled (p : Nat) (s t : State) : Prop :=
  (∃ es, t.trace = s.trace ++ es ∧ polled es = (List.range p).map s.answer) ∧
    t.panel = s.panel.drop p ∧ t.polls = s.polls + p

theorem HasPolled.refl (s : State) : HasPolled 0 s s := ⟨⟨[], by simp, rfl⟩, rfl, rfl⟩

theorem HasPolled.answer {p : Nat} {s t : State} (h : HasPolled p s t) (j : Nat) : t.answer j = s.answer (p + j) := by
  obtain ⟨-, hpanel, hpolls⟩ := h
  simp only [State.answer, hpanel, hpolls, List.getElem?_drop, Nat.add_assoc]

theorem HasPolled.poll {p : Nat} {s t : State} (h : HasPolled p s t) : HasPolled (p + 1) s t.poll := by
  have ha : t.answer 0 = s.answer p := h.answer 0
  obtain ⟨⟨es, hes, hpolled⟩, hpanel, hpolls⟩ := h
  refine ⟨⟨es ++ [.poll (t.answer 0)], by rw [State.poll_trace, hes, List.append_assoc], ?_⟩, ?_, ?_⟩
  · rw [polled_append, hpolled, ha, List.range_succ, List.map_append]
    rfl
  · rw [State.poll_panel, hpanel, List.drop_drop]
  · rw [State.poll_polls, hpolls, Nat.add_assoc]

theorem HasPolled.emit {p : Nat} {s t : State} (h : HasPolled p s t) {e : Event} (he : e.isPoll = false) :
    HasPolled p s (t.emit e) := by
  obtain ⟨⟨es, hes, hpolled⟩, hrest⟩ := h
  refine ⟨⟨es ++ [e], by rw [State.emit_trace, hes, List.append_assoc], ?_⟩, hrest⟩
  rw [polled_append, polled_of_not_isPoll he, hpolled, List.append_nil]

theorem HasPolled.act {p : Nat} {s t : State} (h : HasPolled p s t) {a : Act}
    (ha : ∀ e, Stmt.act a = .act (.emit e) → e.isPoll = false) : HasPolled p s (a.run t) := by
  cases a with
  | emit e => exact h.emit (ha e rfl)
  | sendImage => exact h.emit rfl
  | _ => exact h

theorem runStmts_hasPolled {l : List Stmt} (hl : NoPolls l) (s : State) : ∃ p, HasPolled p s (runStmts l s) :=
  runStmts_induction (I := fun u l => NoPolls l ∧ ∃ p, HasPolled p s u) (Q := fun u => ∃ p, HasPolled p s u)
    (fun _ h => h.2)
    (fun _ _ _ ⟨hl, p, h⟩ => ⟨(List.forall_mem_cons.mp hl).2, p, h.act (List.forall_mem_cons.mp hl).1⟩)
    (fun _ _ _ ⟨hl, p, h⟩ _ => ⟨(List.forall_mem_cons.mp hl).2, p + 1, h.poll⟩)
    (fun _ _ _ ⟨_, p, h⟩ _ _ => ⟨p + 1, h.poll.emit rfl⟩) (fun _ _ _ ⟨_, p, h⟩ _ _ => ⟨p + 1, h.poll⟩) l s
    ⟨hl, 0, .refl s⟩

/-- Settles O56: each poll of a run takes the panel's next answer (`HasPolled.poll`), and no statement that the bus allows emits
a poll of its own. -/
theorem pollsCarryThePanelsAnswers : Obligations.PollsCarryThePanelsAnswers := by
  intro s t hs hstep
  have hrun : ∃ p, HasPolled p s t := by
    obtain ⟨-, ⟨-, -, rfl⟩ | ⟨-, rfl⟩ | ⟨-, issue, rest, i, -, -, hexec⟩⟩ := step_next_cases hstep
    · exact ⟨0, .refl _⟩
    · exact runStmts_hasPolled (noPolls_of_stmtsBus hs.pendingBus) (s.suspend [])
    · obtain ⟨-, rfl⟩ := exec_next_iff.mp hexec
      by_cases hi : Performs i
      · rw [effect_of_performs hi]
        exact runStmts_hasPolled (noPolls_of_stmtsBus (operation_reply_conducts i _).stmtsBus) { s with program := rest }
      · obtain ⟨r, he⟩ | ⟨_, _, _, _, _, -, -, he⟩ := effect_local hi { s with program := rest } <;>
          exact ⟨0, by rw [he]; exact .refl _⟩
  obtain ⟨p, ⟨es, hes, hpolled⟩, hpanel, hpolls⟩ := hrun
  exact ⟨es, p, hes, hpolled, hpanel, hpolls⟩

/-! ### Faults (R180 to R182) -/

/-- A run raises no fault but `DeviceUnresponsive`. -/
theorem runStmts_fault (l : List Stmt) {s : State} (hs : s.fault = none) :
    (runStmts l s).fault = none ∨ ∃ n, (runStmts l s).fault = some (.deviceUnresponsive n) :=
  runStmts_induction (I := fun u _ => u.fault = none)
    (Q := fun u => u.fault = none ∨ ∃ n, u.fault = some (.deviceUnresponsive n)) (fun _ h => .inl h)
    (fun _ _ _ h => by rw [Act.run_fault, h]) (fun _ _ _ h _ => h) (fun _ _ _ h _ _ => .inl h)
    (fun _ n _ _ _ _ => .inr ⟨n + 1, rfl⟩) l s hs

/-- `GlyphNotFound` comes from a `text` alone, with its first unknown character. -/
theorem effect_glyphNotFound {i : Instr} {s : State} (hs : s.fault = none) {d : Char}
    (h : (effect i s).fault = some (.glyphNotFound d)) :
    ∃ str x y c, i = .text str x y c ∧ (str.find? fun e => (glyphOf s.cfg e).isNone) = some d := by
  by_cases hi : Performs i
  · rw [effect_of_performs hi] at h
    obtain hn | ⟨n, hn⟩ := runStmts_fault (operation s i ++ [.act (.reply .done)]) hs <;> rw [hn] at h <;> cases h
  · obtain ⟨r, he⟩ | ⟨str, x, y, c, d', rfl, hd, he⟩ := effect_local hi s
    · rw [he, hs] at h
      cases h
    · rw [he] at h
      cases h
      exact ⟨str, x, y, c, rfl, hd⟩

/-- `DeviceUnresponsive` comes from an instruction that transfers alone; `reset` has no wait (R141). -/
theorem effect_deviceUnresponsive {i : Instr} {s : State} (hs : s.fault = none) {n : Nat}
    (h : (effect i s).fault = some (.deviceUnresponsive n)) : transfers i = true := by
  by_contra hi
  by_cases hreset : i = .reset
  · subst hreset
    have hnone : (effect .reset s).fault = s.fault := rfl
    rw [hnone, hs] at h
    cases h
  · obtain ⟨r, he⟩ | ⟨_, _, _, _, d, -, -, he⟩ := effect_local (fun hp => hp.elim hi hreset) s
    · rw [he, hs] at h
      cases h
    · rw [he] at h
      cases h

/-- Settles O32: which step raises which fault is read off the step's cases; what the trace ends in then, and the count, is the
invariant's (`bounded`) in the next state. -/
theorem faultsComeOnlyFromTheirCauses : Obligations.FaultsComeOnlyFromTheirCauses := by
  refine ⟨fun s t hs hstep => ⟨fun d hd => ?_, fun n hn => ⟨?_, ?_⟩⟩, fun _ => rfl, fun _ => rfl⟩
  · obtain ⟨hf, ⟨-, -, rfl⟩ | ⟨-, rfl⟩ | ⟨hp, issue, rest, i, hprogram, hdecode, hexec⟩⟩ := step_next_cases hstep
    · rw [hf] at hd
      cases hd
    · obtain hn | ⟨n, hn⟩ := runStmts_fault s.pending (s := s.suspend []) hf <;> rw [hn] at hd <;> cases hd
    · obtain ⟨-, rfl⟩ := exec_next_iff.mp hexec
      obtain ⟨str, x, y, c, rfl, hfind⟩ := effect_glyphNotFound (s := { s with program := rest }) hf hd
      exact ⟨hp, issue, rest, str, x, y, c, hprogram, hdecode, hfind⟩
  · obtain ⟨hf, ⟨-, -, rfl⟩ | ⟨hp, -⟩ | ⟨-, issue, rest, i, hprogram, hdecode, hexec⟩⟩ := step_next_cases hstep
    · rw [hf] at hn
      cases hn
    · exact .inl hp
    · obtain ⟨-, rfl⟩ := exec_next_iff.mp hexec
      exact .inr ⟨issue, rest, i, hprogram, hdecode, effect_deviceUnresponsive (s := { s with program := rest }) hf hn⟩
  · obtain ⟨bound, es, hbound, rfl, htrace, before, rfl, hlast, hmore⟩ :=
      (everyStepKeepsTheInvariant s t hs hstep).bounded n hn
    have hcfg : t.cfg = s.cfg := (historyOnlyGrows s t hstep).2.2.2.1
    exact ⟨bound, before, hcfg ▸ hbound, rfl, htrace, hlast, hmore⟩

/-! ### Whole frames (R145) -/

/-- Between the falling and the rising chip-select. -/
def BusState.InFrame (b : BusState) : Prop := b = .selected ∨ b = .addressed ∨ b = .written

/-- An allowed event enters a frame from outside, leaves one, or stays on its side; which it is, is the event's kind. -/
theorem BusState.step_inFrame {b b' : BusState} {e : Event} (h : b.step e = some b') :
    (e = .csLow ∧ ¬ b.InFrame ∧ b'.InFrame) ∨ (e = .csHigh ∧ b.InFrame ∧ ¬ b'.InFrame) ∨
    ((e = .dcCmd ∨ e = .dcData ∨ ∃ bs, e = .write bs) ∧ b.InFrame ∧ b'.InFrame) ∨
    ((e = .rstLow ∨ e = .rstHigh ∨ (∃ v, e = .poll v) ∨ ∃ ms, e = .sleep ms) ∧ ¬ b.InFrame ∧ ¬ b'.InFrame) := by
  unfold BusState.step at h
  split at h
  case h_5 | h_7 =>
    obtain ⟨-, h⟩ := Option.ite_none_right_eq_some.mp h
    cases h
    simp [InFrame]
  case h_12 => cases h
  all_goals
    cases h
    simp [InFrame]

theorem chipSelectLevel_concat (es : List Event) (e : Event) :
    chipSelectLevel (es ++ [e]) =
      if e = .csLow then some false else if e = .csHigh then some true else chipSelectLevel es := by
  unfold chipSelectLevel
  rw [List.foldl_append]
  cases e <;> rfl

/-- The chip-select line is low, after events the bus allows, exactly inside a frame. -/
theorem chipSelectLevel_of_busRun {es : List Event} {b : BusState} (h : busRun .idle es = some b) :
    chipSelectLevel es = some false ↔ b.InFrame := by
  induction es using List.reverseRecOn generalizing b with
  | nil =>
    cases h
    simp [chipSelectLevel, BusState.InFrame]
  | append_singleton es e ih =>
    obtain ⟨b₁, b₂, hes, hstep, hb⟩ := busRun_append_cons h
    cases hb
    rw [chipSelectLevel_concat]
    obtain ⟨rfl, -, hb⟩ | ⟨rfl, -, hb⟩ | ⟨he, hb₁, hb⟩ | ⟨he, hb₁, hb⟩ := BusState.step_inFrame hstep
    · simpa using hb
    · simpa using hb
    · have hne : e ≠ .csLow ∧ e ≠ .csHigh := by rcases he with rfl | rfl | ⟨_, rfl⟩ <;> simp
      rw [if_neg hne.1, if_neg hne.2, ih hes]
      exact iff_of_true hb₁ hb
    · have hne : e ≠ .csLow ∧ e ≠ .csHigh := by rcases he with rfl | rfl | ⟨_, rfl⟩ | ⟨_, rfl⟩ <;> simp
      rw [if_neg hne.1, if_neg hne.2, ih hes]
      exact iff_of_false hb₁ hb

/-- From a falling chip-select, allowed events that end outside every frame run through one. -/
theorem busRun_selected {es : List Event} (h : busRun .selected es = some .idle) :
    ∃ d bs rest, es = d :: .write bs :: .csHigh :: rest ∧ (d = .dcCmd ∨ d = .dcData) := by
  match es with
  | [] => cases h
  | d :: es =>
    obtain ⟨b₁, h₁, h⟩ := Option.bind_eq_some_iff.mp h
    obtain ⟨hd, rfl⟩ : (d = .dcCmd ∨ d = .dcData) ∧ b₁ = .addressed := by
      cases d <;> cases h₁ <;> simp
    match es with
    | [] => cases h
    | w :: es =>
      obtain ⟨b₂, h₂, h⟩ := Option.bind_eq_some_iff.mp h
      obtain ⟨⟨bs, rfl⟩, rfl⟩ : (∃ bs, w = .write bs) ∧ b₂ = .written := by
        cases w <;> cases h₂
        simp
      match es with
      | [] => cases h
      | c :: es =>
        obtain ⟨b₃, h₃, -⟩ := Option.bind_eq_some_iff.mp h
        obtain rfl : c = .csHigh := by
          cases c <;> cases h₃
          rfl
        exact ⟨d, bs, es, rfl, hd⟩

/-- Settles O49: an event of the trace is allowed where those before it lead (`busRun_append_cons`), and its kind says on which
side of chip-select that is (`BusState.step_inFrame`). -/
theorem framesAreWhole : Obligations.FramesAreWhole := by
  intro s hs before after e htrace
  obtain ⟨b, b', hbefore, hstep, hafter⟩ := busRun_append_cons (htrace ▸ hs.bus)
  have hlevel := chipSelectLevel_of_busRun hbefore
  refine ⟨?_, fun he => hlevel.mpr ?_, fun he => mt hlevel.mp ?_⟩
  · rintro rfl
    obtain rfl : b' = .selected := by cases b <;> cases hstep; rfl
    exact busRun_selected hafter
  · obtain ⟨rfl, -⟩ | ⟨-, hb, -⟩ | ⟨-, hb, -⟩ | ⟨he', -⟩ := BusState.step_inFrame hstep
    · simp at he
    · exact hb
    · exact hb
    · rcases he' with rfl | rfl | ⟨_, rfl⟩ | ⟨_, rfl⟩ <;> simp at he
  · obtain ⟨-, hb, -⟩ | ⟨rfl, -⟩ | ⟨he', -⟩ | ⟨-, hb, -⟩ := BusState.step_inFrame hstep
    · exact hb
    · simp at he
    · rcases he' with rfl | rfl | ⟨_, rfl⟩ <;> simp at he
    · exact hb

end Sys2Proof.Machine
end

section
/-! PROOFS of the families 20_memory.md and 40_framebuffer.md: the Portrait address and the bijection (O13, O14), `getPixel` and
`fill` (O16 to O19). -/

namespace Sys2Proof.Machine

/-! ### Addresses (R42, R44) -/

theorem pixelIndex_portrait_eq_shift (x y : Nat) : pixelIndex .portrait x y = (x + y * 128) >>> 3 := by
  rw [Nat.shiftRight_eq_div_pow]
  rfl

theorem pixelBit_portrait_eq_mask (x y : Nat) : pixelBit .portrait x y = 7 - (x &&& 7) := by
  rw [Nat.and_two_pow_sub_one_eq_mod x 3]
  rfl

/-- Columns `8 * q` to `8 * q + 7` of a row share the byte `q + y * 16`. -/
theorem pixelIndex_portrait_packed (q y : Nat) {k : Nat} (hk : k < 8) :
    pixelIndex .portrait (8 * q + k) y = q + y * 16 := by
  simp only [pixelIndex, width]
  omega

/-- Column `8 * q + k` of a row is bit `7 - k` of its byte. -/
theorem pixelBit_portrait_packed (q y : Nat) {k : Nat} (hk : k < 8) : pixelBit .portrait (8 * q + k) y = 7 - k := by
  simp only [pixelBit, Nat.mul_add_mod, Nat.mod_eq_of_lt hk]

/-- Settles O13: a row of 128 pixels is 16 bytes, so the quotient and remainder of the index by 16 name its row and its eight
columns. -/
theorem portraitAddress : Obligations.PortraitAddress := by
  intro x y hx hy
  have hrange : InRange .portrait (x : Int) (y : Int) := by
    simp only [InRange, width, height]
    omega
  have hlt : pixelIndex .portrait x y < 4736 := pixelIndex_lt hrange
  refine ⟨pixelIndex_portrait_eq_shift x y, Nat.le_of_lt_succ hlt, pixelBit_portrait_eq_mask x y, fun k hk => ⟨?_, ?_⟩⟩
  · rw [pixelIndex_portrait_packed _ _ hk]
    omega
  · exact pixelBit_portrait_packed _ _ hk

/-- Every index and bit is a pixel's: the packed row or column that the two name. -/
theorem pixelAddress_surjective (o : Orient) {a k : Nat} (ha : a < bufLen) (hk : k < 8) :
    ∃ x y : Int, InRange o x y ∧ pixelIndex o x.toNat y.toNat = a ∧ pixelBit o x.toNat y.toNat = k := by
  unfold bufLen at ha
  have hbit : 7 - (7 - k) = k := by omega
  cases o with
  | landscape =>
    refine ⟨(a % 296 : Nat), (8 * (a / 296) + (7 - k) : Nat), ?_, ?_, ?_⟩
    · simp only [InRange, width, height]
      omega
    · rw [Int.toNat_natCast, Int.toNat_natCast, pixelIndex_landscape_packed _ _ (by omega)]
      omega
    · rw [Int.toNat_natCast, Int.toNat_natCast, pixelBit_landscape_packed _ _ (by omega), hbit]
  | portrait =>
    refine ⟨(8 * (a % 16) + (7 - k) : Nat), (a / 16 : Nat), ?_, ?_, ?_⟩
    · simp only [InRange, width, height]
      omega
    · rw [Int.toNat_natCast, Int.toNat_natCast, pixelIndex_portrait_packed _ _ (by omega)]
      omega
    · rw [Int.toNat_natCast, Int.toNat_natCast, pixelBit_portrait_packed _ _ (by omega), hbit]

/-- Settles O14: the range and injectivity of the address, `pixelAddress_surjective`, and the corners by evaluation. -/
theorem pixelAddressIsABijection : Obligations.PixelAddressIsABijection :=
  ⟨fun _ _ _ h => ⟨pixelIndex_lt h, pixelBit_lt _ _ _⟩, fun _ _ _ _ _ => pixelAddress_injective,
    fun o _ _ => pixelAddress_surjective o, fun o => by cases o <;> exact ⟨rfl, rfl⟩, rfl, rfl, rfl, rfl⟩

/-! ### `getPixel` (R101) -/

theorem exec_getPixel {s : State} (h : s.Ready) (x y : Int) :
    exec (.getPixel x y) s = .next { s with results := s.results ++ [.pixel (s.pixelAt x y)] } :=
  exec_ready h _

/-- Settles O16: the reply is `pixelAt`, by its two cases. -/
theorem getPixelReturnsTheBit : Obligations.GetPixelReturnsTheBit := by
  intro s x y hs
  rw [exec_getPixel hs]
  refine ⟨fun hin => ?_, fun hout => ?_⟩
  · rw [State.pixelAt, if_pos hin]
    rfl
  · rw [State.pixelAt, if_neg hout]

/-- Settles O17: what `pixelAt_setPixel` says of the pixel written and of every other. -/
theorem getPixelAfterSetPixel : Obligations.GetPixelAfterSetPixel := by
  intro s x y c hs hin
  have hready : ((s.setPixel x y c).reply .done).Ready := by
    rw [State.setPixel_eq]
    exact hs
  have hpixel (x' y' : Int) : ((s.setPixel x y c).reply .done).pixelAt x' y' =
      if InRange s.cfg.orient x y ∧ x' = x ∧ y' = y then some (colourBit c) else s.pixelAt x' y' :=
    State.pixelAt_setPixel s x y c x' y'
  refine ⟨_, exec_ready hs _, ?_, fun x' y' hne => ⟨_, exec_getPixel hs x' y', ?_⟩⟩
  · show exec _ ((s.setPixel x y c).reply .done) = _
    rw [exec_getPixel hready, hpixel, if_pos ⟨hin, rfl, rfl⟩]
    rfl
  · show exec _ ((s.setPixel x y c).reply .done) = _
    rw [exec_getPixel hready, hpixel, if_neg]
    · rfl
    · rintro ⟨-, rfl, rfl⟩
      exact hne.elim (· rfl) (· rfl)

/-! ### The last write (R50) -/

theorem setBit_overwrites (b : Byte) {k : Nat} (v w : Bit) (hk : k < 8) : setBit (setBit b k v) k w = setBit b k w := by
  apply BitVec.eq_of_getLsbD_eq
  intro j _
  rw [getLsbD_setBit _ k j w hk, getLsbD_setBit _ k j w hk, getLsbD_setBit _ k j v hk]
  split <;> rfl

theorem State.setPixel_fb_of_inRange {s : State} {x y : Int} (h : InRange s.cfg.orient x y) (c : Int) :
    (s.setPixel x y c).fb = Memory.write s.cfg.fbResetFill s.fb (pixelIndex s.cfg.orient x.toNat y.toNat)
      (setBit (s.byteAt (pixelIndex s.cfg.orient x.toNat y.toNat)) (pixelBit s.cfg.orient x.toNat y.toNat)
        (colourBit c)) := by
  unfold State.setPixel
  rw [if_pos h]
  rfl

/-- The framebuffer that `setPixel` leaves does not depend on what the host has received. -/
theorem State.setPixel_reply_fb (s : State) (r : Result) (x y c : Int) :
    ((s.reply r).setPixel x y c).fb = (s.setPixel x y c).fb := by
  by_cases h : InRange s.cfg.orient x y
  · rw [State.setPixel_fb_of_inRange h, State.setPixel_fb_of_inRange (s := s.reply r) h]
    rfl
  · rw [State.setPixel_of_not_inRange h, State.setPixel_of_not_inRange (s := s.reply r) h, State.reply_fb]

theorem State.setPixel_overwrites (s : State) (x y c d : Int) :
    ((s.setPixel x y c).setPixel x y d).fb = (s.setPixel x y d).fb := by
  by_cases h : InRange s.cfg.orient x y
  · rw [State.setPixel_fb_of_inRange (by rwa [State.setPixel_cfg]), State.setPixel_cfg,
      State.byteAt_setPixel_pixelIndex h, State.setPixel_fb_of_inRange h, State.setPixel_fb_of_inRange h,
      Memory.write_write, setBit_overwrites _ _ _ (pixelBit_lt _ _ _)]
  · rw [State.setPixel_of_not_inRange h]

/-- Settles O18: the second write of a bit takes the first one's place in the byte and in the list of cells; `fill` does not look
at what it replaces. -/
theorem lastPixelWriteWins : Obligations.LastPixelWriteWins := by
  intro s x y c d hs
  have hready : ((s.setPixel x y c).reply .done).Ready := by
    rw [State.setPixel_eq]
    exact hs
  refine ⟨⟨_, _, _, exec_ready hs _, exec_ready hready _, exec_ready hs _, ?_⟩,
    ⟨_, _, _, exec_ready hs _, exec_ready (s := (s.fillFB c).reply .done) hs _, exec_ready hs _, rfl⟩⟩
  exact (State.setPixel_reply_fb _ _ x y d).trans (State.setPixel_overwrites s x y c d)

/-! ### `fill` (R102) -/

theorem fillByte_eq (c : Int) : fillByte c = if c ≠ 0 then 0xFF#8 else 0x00#8 := by
  rw [fillByte, ite_not]

theorem bitOf_fillByte (c : Int) {k : Nat} (hk : k < 8) : bitOf (fillByte c) k = if c ≠ 0 then 1#1 else 0#1 := by
  rw [fillByte_eq]
  split
  · exact bitOf_ones hk
  · interval_cases k <;> rfl

/-- Settles O19: every byte reads as the one value, whose eight bits are the colour. -/
theorem fillSetsEveryByte : Obligations.FillSetsEveryByte := by
  intro s c hs
  refine ⟨(s.fillFB c).reply .done, exec_ready hs _, rfl, fun a ha => ?_, fun x y hin => ?_⟩
  · rw [State.reply_byteAt, State.byteAt_fillFB s c ha, fillByte_eq]
  · rw [State.pixelAt, State.reply_cfg, State.fillFB_cfg, if_pos hin, State.reply_byteAt, State.byteAt_fillFB s c (pixelIndex_lt hin),
      bitOf_fillByte c (pixelBit_lt _ _ _)]

end Sys2Proof.Machine
end

section
/-! PROOFS of the family 41_raster.md: lines (O20 to O23), the outline of a rectangle (O25), circles (O26 to O29) and text (O30,
O31). -/

namespace Sys2Proof.Machine

/-! ### Lines (R110 to R115) -/

/-- Settles O20: `hline` plots its run. -/
theorem hlineDrawsItsRun : Obligations.HlineDrawsItsRun := fun s _ _ _ c hs =>
  ⟨_, exec_ready hs _, plot_drawsExactly s c fun _ _ => mem_hlinePoints⟩

/-- Settles O21: `vline` plots its run. -/
theorem vlineDrawsItsRun : Obligations.VlineDrawsItsRun := fun s _ _ _ c hs =>
  ⟨_, exec_ready hs _, plot_drawsExactly s c fun _ _ => mem_vlinePoints⟩

theorem linePoints_vertical {x0 x1 : Int} (h : x0 = x1) (arith : LineArith) (y0 y1 : Int) :
    linePoints arith x0 y0 x1 y1 = vlinePoints x0 y0 (y1 - y0) := if_pos h

theorem linePoints_horizontal {x0 x1 y0 y1 : Int} (hx : x0 ≠ x1) (hy : y0 = y1) (arith : LineArith) :
    linePoints arith x0 y0 x1 y1 = hlinePoints x0 y0 (x1 - x0) := (if_neg hx).trans (if_pos hy)

theorem linePoints_general {x0 x1 y0 y1 : Int} (hx : x0 ≠ x1) (hy : y0 ≠ y1) (arith : LineArith) :
    linePoints arith x0 y0 x1 y1 = lineWalkPoints arith x0 y0 x1 y1 := (if_neg hx).trans (if_neg hy)

theorem effect_line (s : State) (x0 y0 x1 y1 c : Int) :
    effect (.line x0 y0 x1 y1 c) s = (s.plot (linePoints s.cfg.lineY x0 y0 x1 y1) c).reply .done := rfl

/-- Settles O22: the list of `line` is, by shape, that of `vline`, that of `hline`, or one pixel a column. -/
theorem lineDispatchesOnItsShape : Obligations.LineDispatchesOnItsShape := by
  intro s x0 y0 x1 y1 c hs
  refine ⟨_, exec_ready hs _, fun hx => ?_, fun hx hy => ?_, fun hx hy => ?_⟩ <;> rw [effect_line]
  · rw [linePoints_vertical hx]
    refine ⟨exec_ready hs _, plot_drawsExactly s c fun px py => ?_⟩
    rw [mem_vlinePoints, add_sub_cancel]
  · rw [linePoints_horizontal hx hy]
    refine ⟨exec_ready hs _, plot_drawsExactly s c fun px py => ?_⟩
    rw [mem_hlinePoints, add_sub_cancel]
    tauto
  · rw [linePoints_general hx hy]
    exact plot_drawsExactly s c fun px py => mem_lineWalkPoints

/-- The default `LINE_Y` is the floor of the real line, said without division (R113). -/
theorem lineYExact_eq_iff {x0 x1 : Int} (h : x0 < x1) (y0 y1 px py : Int) :
    py = lineY .exact x0 y0 x1 y1 px ↔
      (py - y0) * (x1 - x0) ≤ (y1 - y0) * (px - x0) ∧ (y1 - y0) * (px - x0) < (py - y0 + 1) * (x1 - x0) := by
  rw [← floorDiv_eq_iff (sub_pos.mpr h)]
  show py = y0 + floorDiv _ _ ↔ _
  omega

/-- Settles O23: `lineYExact_eq_iff` in each column of a rising interval, both ends of which satisfy it; a falling interval has
no column. -/
theorem exactLineIsTheFloorOfTheRealLine : Obligations.ExactLineIsTheFloorOfTheRealLine := by
  intro s x0 y0 x1 y1 c hs hexact hx hy
  have hdraws : DrawsExactly s (effect (.line x0 y0 x1 y1 c) s) c fun px py => x0 ≤ px ∧ px ≤ x1 ∧
      (py - y0) * (x1 - x0) ≤ (y1 - y0) * (px - x0) ∧ (y1 - y0) * (px - x0) < (py - y0 + 1) * (x1 - x0) := by
    rw [effect_line, hexact, linePoints_general hx hy]
    refine plot_drawsExactly s c fun px py => ?_
    rw [mem_lineWalkPoints]
    refine and_congr_right fun h0 => and_congr_right fun h1 => lineYExact_eq_iff ?_ y0 y1 px py
    omega
  refine ⟨_, exec_ready hs _, hdraws, fun h hin => ?_, fun h hin => ?_, fun h a => ?_⟩
  · exact hdraws.2.1 x0 y0 ⟨le_rfl, h.le, by simp, by simpa using h⟩ hin
  · refine hdraws.2.1 x1 y1 ⟨h.le, le_rfl, le_rfl, ?_⟩ hin
    rw [Int.add_mul, Int.one_mul]
    omega
  · refine hdraws.2.2.2 a fun x y hp _ => ?_
    obtain ⟨h0, h1, -⟩ := hp
    omega

/-! ### Rectangles (R120, R122) -/

theorem mem_rectOutlinePoints {x0 y0 x1 y1 px py : Int} :
    (px, py) ∈ rectOutlinePoints x0 y0 x1 y1 ↔
      (x0 ≤ px ∧ px < x1 ∧ (py = y0 ∨ py = y1)) ∨ ((px = x0 ∨ px = x1) ∧ y0 ≤ py ∧ py < y1) := by
  simp only [rectOutlinePoints, List.mem_append, mem_hlinePoints, mem_vlinePoints, add_sub_cancel]
  tauto

/-- Settles O25: the outline plots its four runs, and none of them holds the corner. -/
theorem rectangleOutlineIsFourRuns : Obligations.RectangleOutlineIsFourRuns := by
  intro s x0 y0 x1 y1 c hs
  have hdraws := plot_drawsExactly s c fun px py => mem_rectOutlinePoints (x0 := x0) (y0 := y0) (x1 := x1) (y1 := y1)
  refine ⟨_, exec_ready hs _, hdraws, hdraws.2.2.1 x1 y1 ?_⟩
  omega

/-! ### Circles: the roots (R126, R127) -/

theorem binary64_den_pos {num : Int} {den : Nat} {p : Int × Nat} (h : binary64 num den = some p) : 0 < p.2 := by
  unfold binary64 at h
  split at h
  · cases h
    decide
  · obtain ⟨-, h⟩ := Option.ite_none_left_eq_some.mp h
    cases h
    exact Nat.two_pow_pos _

theorem sqrt64_den_pos {n : Nat} {p : Int × Nat} (h : sqrt64 n = some p) : 0 < p.2 := by
  unfold sqrt64 at h
  split at h
  · cases h
  · exact binary64_den_pos h

theorem rootBinary64_den_pos (n : Nat) : 0 < (rootBinary64 n).2 := by
  unfold rootBinary64
  split
  · exact sqrt64_den_pos ‹_›
  · exact Nat.succ_pos _

/-- A fraction floored above and below a centre: a shift of the same two numbers, as far from it, or 1 farther below. -/
theorem floor_symmetric {p : Int × Nat} (hp : 0 < p.2) (k : Int) :
    floorPlus k p = k + floorPlus 0 p ∧ floorMinus k p = k + floorMinus 0 p ∧
      (floorMinus 0 p = -floorPlus 0 p ∨ floorMinus 0 p = -floorPlus 0 p - 1) := by
  obtain ⟨h1, h2⟩ := floorDiv_neg (a := p.1) (b := p.2) (by exact_mod_cast hp)
  unfold floorPlus floorMinus
  omega

theorem csqrt_eq_or (n : Nat) : csqrt n = isqrt n ∨ csqrt n = isqrt n + 1 := by
  unfold csqrt
  split
  · exact .inl rfl
  · exact .inr rfl

/-- Under every `CIRCLE_ROOT` the two samples are floors of the centre plus and minus one root (R127). -/
theorem root_symmetric (arith : RootArith) (k : Int) (n : Nat) :
    rootPlus arith k n = k + rootPlus arith 0 n ∧ rootMinus arith k n = k + rootMinus arith 0 n ∧
      (rootMinus arith 0 n = -rootPlus arith 0 n ∨ rootMinus arith 0 n = -rootPlus arith 0 n - 1) := by
  cases arith with
  | exact =>
    have := csqrt_eq_or n
    simp only [rootPlus, rootMinus]
    omega
  | binary64 => exact floor_symmetric (rootBinary64_den_pos n) k
  | custom => exact floor_symmetric (Nat.succ_pos _) k

/-! ### Circles: the rings (R125) -/

theorem effect_circle (s : State) (cx cy r c : Int) (fill : Bool) :
    effect (.circle cx cy r c fill) s = (s.plot (circlePoints s.cfg.circleRoot cx cy r fill) c).reply .done := rfl

/-- A circle sets the rings it is made of: its own, and filled those below it. -/
theorem mem_circlePoints_iff_ring {arith : RootArith} {cx cy r : Int} {fill : Bool} {p : Int × Int} :
    p ∈ circlePoints arith cx cy r fill ↔
      ∃ k, (k = r ∨ (fill = true ∧ 1 ≤ k ∧ k < r)) ∧ p ∈ ringPoints arith cx cy k := by
  rw [mem_circlePoints]
  constructor
  · rintro (h | ⟨hf, k, h1, h2, h⟩)
    · exact ⟨r, .inl rfl, h⟩
    · exact ⟨k, .inr ⟨hf, h1, h2⟩, h⟩
  · rintro ⟨k, rfl | ⟨hf, h1, h2⟩, h⟩
    · exact .inl h
    · exact .inr ⟨hf, k, h1, h2, h⟩

/-- Settles O26: membership in the rings' lists is their two sweeps, and `root_symmetric` is the second clause. -/
theorem circleSamplesBothAxes : Obligations.CircleSamplesBothAxes := by
  refine ⟨fun s cx cy r c fill hs => ⟨_, exec_ready hs _, plot_drawsExactly s c fun px py => ?_⟩, root_symmetric⟩
  rw [mem_circlePoints_iff_ring]
  simp only [mem_ringPoints, and_assoc]

/-- The exact root above the centre, by its square. -/
theorem rootPlus_exact_iff {k n p : Int} (hn : 0 ≤ n) : p = rootPlus .exact k n.toNat ↔ IsFloorPlusSqrt k n p := by
  obtain ⟨m, rfl⟩ := Int.eq_ofNat_of_zero_le hn
  unfold IsFloorPlusSqrt
  rw [Int.toNat_natCast]
  constructor
  · rintro rfl
    obtain ⟨h1, h2⟩ := isqrt_spec m
    have e : rootPlus .exact k m - k = isqrt m := by simp [rootPlus]
    rw [e]
    exact ⟨by simp [rootPlus], by exact_mod_cast h1, by exact_mod_cast h2⟩
  · rintro ⟨hp, h1, h2⟩
    obtain ⟨q, rfl⟩ : ∃ q : Nat, p = k + q := ⟨(p - k).toNat, by omega⟩
    rw [add_sub_cancel_left] at h1 h2
    rw [rootPlus, isqrt_eq_iff.mpr ⟨by exact_mod_cast h1, by exact_mod_cast h2⟩]

/-- The exact root below the centre, by its square. -/
theorem rootMinus_exact_iff {k n p : Int} (hn : 0 ≤ n) : p = rootMinus .exact k n.toNat ↔ IsFloorMinusSqrt k n p := by
  obtain ⟨m, rfl⟩ := Int.eq_ofNat_of_zero_le hn
  unfold IsFloorMinusSqrt
  rw [Int.toNat_natCast]
  have hleast (q : Nat) : (∀ t, m ≤ t * t → q ≤ t) ↔ (0 < q → (q - 1) * (q - 1) < m) := by
    constructor
    · intro h hq
      by_contra hc
      have := h (q - 1) (not_lt.mp hc)
      omega
    · intro h t ht
      by_contra hc
      have h1 := h (by omega)
      have h2 : t * t ≤ (q - 1) * (q - 1) := Nat.mul_le_mul (by omega) (by omega)
      omega
  have hdown (q : Nat) : p = k - q → ((0 < q → (q - 1) * (q - 1) < m) ↔
      (p < k → (k - p - 1) * (k - p - 1) < (m : Int))) := by
    rintro rfl
    rcases Nat.eq_zero_or_pos q with rfl | hq
    · simp
    · have e : k - (k - (q : Int)) - 1 = ((q - 1 : Nat) : Int) := by omega
      rw [e]
      have : k - (q : Int) < k := by omega
      simp only [hq, this, forall_true_left]
      exact_mod_cast Iff.rfl
  constructor
  · intro hp
    have hp : p = k - (csqrt m : Int) := hp
    obtain ⟨h1, h2⟩ := csqrt_spec m
    refine ⟨by omega, ?_, (hdown _ hp).mp ((hleast _).mp h2)⟩
    rw [hp, sub_sub_cancel]
    exact_mod_cast h1
  · rintro ⟨hp, h1, h2⟩
    obtain ⟨q, rfl⟩ : ∃ q : Nat, p = k - q := ⟨(k - p).toNat, by omega⟩
    rw [sub_sub_cancel] at h1
    rw [rootMinus, csqrt_eq_iff.mpr ⟨by exact_mod_cast h1, (hleast q).mpr ((hdown q rfl).mpr h2)⟩]

/-- Within a sweep the number under the root is not negative. -/
theorem sweep_nonneg {k d : Int} (h1 : -k ≤ d) (h2 : d ≤ k) : 0 ≤ k * k - d * d := by nlinarith

/-- The exact ring is the ring of the real circle's floors. -/
theorem mem_ringPoints_exact {cx cy k px py : Int} : (px, py) ∈ ringPoints .exact cx cy k ↔ OnRing cx cy k px py := by
  rw [mem_ringPoints]
  unfold OnRing
  refine or_congr ?_ ?_ <;> rw [and_assoc] <;> refine and_congr_right fun h1 => and_congr_right fun h2 => ?_
  · have hn := sweep_nonneg (k := k) (d := px - cx) (by omega) (by omega)
    rw [rootPlus_exact_iff hn, rootMinus_exact_iff hn]
  · have hn := sweep_nonneg (k := k) (d := py - cy) (by omega) (by omega)
    rw [rootPlus_exact_iff hn, rootMinus_exact_iff hn]

/-- Below radius 300 every root of a sweep is of a number below 90000. -/
theorem sweep_lt {k d : Int} (hk : k < 300) (h1 : -k ≤ d) (h2 : d ≤ k) : (k * k - d * d).toNat < 90000 := by
  have : k * k - d * d < 90000 := by nlinarith [mul_self_nonneg d]
  omega

/-- Below radius 300 the binary64 ring is the exact one (R127). -/
theorem mem_ringPoints_binary64 {cx cy k px py : Int} (hk : k < 300) :
    (px, py) ∈ ringPoints .binary64 cx cy k ↔ (px, py) ∈ ringPoints .exact cx cy k := by
  rw [mem_ringPoints, mem_ringPoints]
  refine or_congr (and_congr_right fun h => ?_) (and_congr_right fun h => ?_)
  · obtain ⟨e1, e2⟩ := root_binary64 (sweep_lt (d := px - cx) hk (by omega) (by omega)) cy
    rw [e1, e2]
  · obtain ⟨e1, e2⟩ := root_binary64 (sweep_lt (d := py - cy) hk (by omega) (by omega)) cx
    rw [e1, e2]

/-- Settles O27: each ring is the exact one, by `mem_ringPoints_binary64` in binary64, and the exact one is `OnRing`. -/
theorem exactCircleIsTheFloorOfTheRealCircle : Obligations.ExactCircleIsTheFloorOfTheRealCircle := by
  intro s cx cy r c fill hs hroot
  refine ⟨_, exec_ready hs _, plot_drawsExactly s c fun px py => ?_⟩
  rw [mem_circlePoints_iff_ring]
  refine exists_congr fun k => and_congr_right fun hk => ?_
  obtain hexact | ⟨hbinary, hr, -⟩ := hroot
  · rw [hexact, mem_ringPoints_exact]
  · rw [hbinary, mem_ringPoints_binary64 (by omega), mem_ringPoints_exact]

/-- What an exact circle draws, as `OnRing`. -/
theorem circle_exact_drawsExactly {s : State} (h : s.cfg.circleRoot = .exact) (cx cy r c : Int) (fill : Bool) :
    DrawsExactly s (effect (.circle cx cy r c fill) s) c fun px py =>
      ∃ k, (k = r ∨ (fill = true ∧ 1 ≤ k ∧ k < r)) ∧ OnRing cx cy k px py := by
  rw [effect_circle, h]
  refine plot_drawsExactly s c fun px py => ?_
  simp only [mem_circlePoints_iff_ring, mem_ringPoints_exact]

/-! ### Circles: what they leave (R128) -/

/-- A sample at distance `d` along the axis and at the floor of the root across it is within 1 of the radius. -/
theorem floorPlus_near {r d e : Int} (h1 : -r ≤ d) (h2 : d ≤ r) (h : IsFloorPlusSqrt 0 (r * r - d * d) e) :
    (1 ≤ r → (r - 1) * (r - 1) ≤ d * d + e * e) ∧ d * d + e * e < (r + 1) * (r + 1) := by
  obtain ⟨he, hle, hlt⟩ := h
  rw [sub_zero] at hle hlt
  refine ⟨fun hr => ?_, by nlinarith⟩
  rcases lt_or_ge e r with her | her <;> nlinarith

theorem floorMinus_near {r d e : Int} (h1 : -r ≤ d) (h2 : d ≤ r) (h : IsFloorMinusSqrt 0 (r * r - d * d) e) :
    (1 ≤ r → (r - 1) * (r - 1) ≤ d * d + e * e) ∧ d * d + e * e < (r + 1) * (r + 1) := by
  obtain ⟨he, hle, hlt⟩ := h
  rw [zero_sub] at hle hlt
  refine ⟨fun hr => by nlinarith, ?_⟩
  rcases eq_or_lt_of_le he with rfl | he
  · nlinarith
  · have hlt := hlt he
    have her : -e ≤ r := by nlinarith
    nlinarith

/-- Only the distance from the centre counts. -/
theorem isFloorPlusSqrt_sub {k n p : Int} : IsFloorPlusSqrt k n p ↔ IsFloorPlusSqrt 0 n (p - k) := by
  simp only [IsFloorPlusSqrt, sub_zero, sub_nonneg]

theorem isFloorMinusSqrt_sub {k n p : Int} : IsFloorMinusSqrt k n p ↔ IsFloorMinusSqrt 0 n (p - k) := by
  simp only [IsFloorMinusSqrt, zero_sub, neg_sub, sub_nonpos, sub_neg]

theorem onRing_sub {cx cy r x y : Int} : OnRing cx cy r x y ↔ OnRing 0 0 r (x - cx) (y - cy) := by
  have hx : cx - r ≤ x ∧ x ≤ cx + r ↔ 0 - r ≤ x - cx ∧ x - cx ≤ 0 + r := by omega
  have hy : cy - r ≤ y ∧ y ≤ cy + r ↔ 0 - r ≤ y - cy ∧ y - cy ≤ 0 + r := by omega
  unfold OnRing
  rw [← and_assoc, ← and_assoc, ← and_assoc, ← and_assoc, hx, hy, isFloorPlusSqrt_sub (k := cy),
    isFloorMinusSqrt_sub (k := cy), isFloorPlusSqrt_sub (k := cx), isFloorMinusSqrt_sub (k := cx)]
  simp only [sub_zero]

theorem onRing_near {r d e : Int} (h : OnRing 0 0 r d e) :
    (1 ≤ r → (r - 1) * (r - 1) ≤ d * d + e * e) ∧ d * d + e * e < (r + 1) * (r + 1) := by
  unfold OnRing at h
  simp only [sub_zero, zero_sub, zero_add] at h
  obtain ⟨h1, h2, hp | hm⟩ | ⟨h1, h2, hp | hm⟩ := h
  · exact floorPlus_near h1 h2 hp
  · exact floorMinus_near h1 h2 hm
  · rw [add_comm (d * d)]
    exact floorPlus_near h1 h2 hp
  · rw [add_comm (d * d)]
    exact floorMinus_near h1 h2 hm

/-- Settles O28: a pixel that changed is on the ring, and a ring pixel's squared distance lies between the squares of `r - 1` and
`r + 1` (`onRing_near`). -/
theorem unfilledCircleStaysNearItsRadius : Obligations.UnfilledCircleStaysNearItsRadius := by
  intro s cx cy r c hs hexact hr
  have hdraws := circle_exact_drawsExactly hexact cx cy r c false
  refine ⟨_, exec_ready hs _, fun x y hne => ?_⟩
  have hring : OnRing cx cy r x y := by
    by_contra hc
    refine hne (hdraws.2.2.1 x y ?_)
    rintro ⟨k, rfl | ⟨hf, -⟩, hk⟩
    · exact hc hk
    · cases hf
  obtain ⟨h1, h2⟩ := onRing_near (onRing_sub.mp hring)
  rcases lt_or_ge ((x - cx) * (x - cx) + (y - cy) * (y - cy)) (r * r) with hlt | hge
  · have hpos : 1 ≤ r := by nlinarith [mul_self_nonneg (x - cx), mul_self_nonneg (y - cy)]
    exact ⟨r - 1, by omega, h1 hpos, by rwa [sub_add_cancel], .inl rfl⟩
  · exact ⟨r, hr, hge, h2, .inr (.inl rfl)⟩

/-- No ring of radius 1 or more holds its centre. -/
theorem not_onRing_centre {k : Int} (hk : 1 ≤ k) : ¬ OnRing 0 0 k 0 0 := by
  unfold OnRing IsFloorPlusSqrt IsFloorMinusSqrt
  simp only [sub_zero, zero_sub, zero_add, mul_zero]
  rintro (⟨-, -, ⟨-, -, h⟩ | ⟨-, h, -⟩⟩ | ⟨-, -, ⟨-, -, h⟩ | ⟨-, h, -⟩⟩) <;> nlinarith

/-- No ring holds the pixel left above its centre: the number under the root would be 1, and `k² = 2`. -/
theorem not_onRing_diagonal {k : Int} (hk : 1 ≤ k) : ¬ OnRing 0 0 k (-1) (-1) := by
  have hsq : k * k ≠ 2 := by
    intro h
    have : k < 2 := by nlinarith
    obtain rfl : k = 1 := by omega
    omega
  unfold OnRing IsFloorPlusSqrt IsFloorMinusSqrt
  norm_num
  omega

/-- The rings of radius 1 and 2 hold every other pixel at most 2 from the centre. -/
theorem onRing_one_or_two {d e : Int} (h : d * d + e * e ≤ 4) (hc : d ≠ 0 ∨ e ≠ 0) (hd : d ≠ -1 ∨ e ≠ -1) :
    OnRing 0 0 1 d e ∨ OnRing 0 0 2 d e := by
  have hd1 : -2 ≤ d ∧ d ≤ 2 := by constructor <;> nlinarith [mul_self_nonneg e]
  have he1 : -2 ≤ e ∧ e ≤ 2 := by constructor <;> nlinarith [mul_self_nonneg d]
  obtain ⟨hd1, hd2⟩ := hd1
  obtain ⟨he1, he2⟩ := he1
  unfold OnRing IsFloorPlusSqrt IsFloorMinusSqrt
  interval_cases d <;> interval_cases e <;> revert h hc hd <;> decide

/-- Settles O29: the centre and the pixel left above it are on no ring, and at radius 2 every other pixel near enough is on one of
the two. -/
theorem filledCircleLeavesItsHoles : Obligations.FilledCircleLeavesItsHoles := by
  intro s cx cy r c hs hexact hr
  have hdraws := circle_exact_drawsExactly hexact cx cy r c true
  refine ⟨_, exec_ready hs _, hdraws.2.2.1 cx cy ?_, fun _ => hdraws.2.2.1 _ _ ?_, ?_⟩
  · rintro ⟨k, hk, hring⟩
    rw [onRing_sub, sub_self, sub_self] at hring
    exact not_onRing_centre (by omega) hring
  · rintro ⟨k, hk, hring⟩
    rw [onRing_sub, sub_sub_cancel_left, sub_sub_cancel_left] at hring
    exact not_onRing_diagonal (by omega) hring
  · rintro rfl x y hin hdist hcentre hhole
    refine hdraws.2.1 x y ?_ hin
    obtain h | h := onRing_one_or_two hdist (by omega) (by omega)
    · exact ⟨1, .inr ⟨rfl, le_rfl, by omega⟩, onRing_sub.mpr h⟩
    · exact ⟨2, .inl rfl, onRing_sub.mpr h⟩

/-! ### Text (R130 to R132) -/

theorem msbIsTop_iff (cfg : Cfg) : msbIsTop cfg = true ↔ (cfg.orient = .landscape ↔ cfg.glyphLandscapeMsbTop = true) := by
  unfold msbIsTop
  cases cfg.orient <;> simp

/-- The bit of a glyph's row, by the bit order (R131). -/
theorem glyphBit_eq_one_iff (cfg : Cfg) (b : Byte) (k : Nat) :
    glyphBit cfg b k = 1#1 ↔
      b.getLsbD (if (cfg.orient = .landscape ↔ cfg.glyphLandscapeMsbTop = true) then 7 - k else k) = true := by
  have hbit (j : Nat) : bitOf b j = 1#1 ↔ b.getLsbD j = true := by
    rw [bitOf_eq]
    cases b.getLsbD j <;> simp
  unfold glyphBit
  simp only [msbIsTop_iff]
  split <;> exact hbit _

/-- Settles O30: with every glyph known the text is one plot, of each glyph's pixels in its place. -/
theorem textDrawsItsGlyphs : Obligations.TextDrawsItsGlyphs := by
  intro s str x y c hs hglyphs
  have hsome : ∀ d ∈ str, (glyphOf s.cfg d).isSome := fun d hd => Option.isSome_iff_exists.mpr (hglyphs d hd)
  have heffect : effect (.text str x y c) s = (s.plot (textRun s.cfg x y str).1 c).reply .done := by
    obtain ⟨-, h⟩ | ⟨d, hd, -⟩ := drawText_cases s str x y c
    · exact h
    · have hnone := List.find?_some hd
      rw [Option.isNone_iff_eq_none] at hnone
      have := hsome d (List.mem_of_find?_eq_some hd)
      rw [hnone] at this
      cases this
  refine ⟨_, exec_ready hs _, ?_⟩
  rw [heffect]
  refine plot_drawsExactly s c fun px py => ?_
  simp only [mem_textRun, mem_glyphPoints, glyphBit_eq_one_iff]
  constructor
  · rintro ⟨n, d, g, hn, -, hg, j, k, hj, hk, hbit, rfl, rfl⟩
    refine ⟨n, d, g, ⟨j, hj⟩, k, hn, hg, hk, ?_, rfl, rfl⟩
    simpa [hj] using hbit
  · rintro ⟨n, d, g, ⟨j, hj⟩, k, hn, hg, hk, hbit, rfl, rfl⟩
    refine ⟨n, d, g, hn, fun e he => hsome e (List.mem_of_mem_take he), hg, j, k, hj, hk, ?_, rfl, rfl⟩
    simpa [hj] using hbit

/-- Up to the first unknown character a text plots what the characters before it plot. -/
theorem textRun_append_unknown (cfg : Cfg) (x y : Int) {before : List Char}
    (hbefore : ∀ e ∈ before, ∃ g, glyphOf cfg e = some g) {d : Char} (hd : glyphOf cfg d = none) (after : List Char) :
    textRun cfg x y (before ++ d :: after) = ((textRun cfg x y before).1, some d) ∧ (textRun cfg x y before).2 = none := by
  induction before generalizing x with
  | nil => simp [textRun, hd]
  | cons e es ih =>
    obtain ⟨g, hg⟩ := hbefore e (List.mem_cons_self ..)
    obtain ⟨h1, h2⟩ := ih (x + 8) fun e he => hbefore e (List.mem_cons_of_mem _ he)
    simp [textRun, hg, h1, h2]

/-- Settles O31: both texts plot the same pixels, and one of them then raises the fault. -/
theorem textStopsAtTheFirstUnknownCharacter : Obligations.TextStopsAtTheFirstUnknownCharacter := by
  intro s before after d x y c hs hbefore hd
  obtain ⟨h1, h2⟩ := textRun_append_unknown s.cfg x y hbefore hd after
  have ht : effect (.text (before ++ d :: after) x y c) s = (s.plot (textRun s.cfg x y before).1 c).raise (.glyphNotFound d) := by
    show s.drawText _ x y c = _
    simp only [State.drawText, h1]
  have hu : effect (.text before x y c) s = (s.plot (textRun s.cfg x y before).1 c).reply .done := by
    show s.drawText _ x y c = _
    simp only [State.drawText, h2]
  refine ⟨_, _, exec_ready hs _, exec_ready hs _, ?_⟩
  rw [ht, hu, State.plot_eq]
  unfold State.raise
  rw [hs.2]
  rfl

end Sys2Proof.Machine
end

section
/-! PROOFS of the families 42_transfer.md, 30_encoding.md section 3 and 43_controller.md on an idle panel: `reset` and single frames
(O33, O34), the command rows (O38, O39), the controller sequences (O40 to O44) and their traces read back (O45). -/

namespace Sys2Proof.Machine

/-- On a ready core whose panel answers each of its waits with idle, an operation is its idle run and the reply. -/
theorem exec_performs_idle {i : Instr} (hi : Performs i) {s : State} (hs : s.Ready)
    (h : s.AllIdle (waits (operation s i))) : exec i s = .next ((runIdle (operation s i) s).reply .done) := by
  have hw : waits (operation s i ++ [.act (.reply .done)]) = waits (operation s i) := waits_append _ _
  rw [exec_ready hs, effect_of_performs hi, runStmts_idle _ _ (hw ▸ h), runIdle_append]
  rfl

/-- An operation whose idle run sends frames and changes nothing else. -/
theorem exec_sends {i : Instr} (hi : Performs i) {s : State} (hs : s.Ready) (fs : List (Bool × List Byte))
    (hw : waits (operation s i) = fs.length) (hr : runIdle (operation s i) s = s.afterFrames fs)
    (h : s.AllIdle fs.length) : exec i s = .next { s.afterFrames fs with results := s.results ++ [.done] } := by
  rw [exec_performs_idle hi hs (hw ▸ h), hr]
  rfl

/-! ### `reset`, one poll, one frame (R140 to R144) -/

/-- Settles O33: `reset` holds no wait, so any panel serves, and its idle run is `runIdle_reset`. -/
theorem resetPulsesThePanel : Obligations.ResetPulsesThePanel := by
  intro s hs
  rw [exec_performs_idle (.inr rfl) hs fun j hj => absurd hj (Nat.not_lt_zero j)]
  show _ = Host.Outcome.next _
  rw [operation, runIdle_reset]
  rfl

/-- Settles O34: each has one wait, and the idle run is one poll, with one frame behind it where there is one. -/
theorem framesOnAnIdlePanel : Obligations.FramesOnAnIdlePanel := fun s bs hs h =>
  ⟨exec_performs_idle (i := .waitUntilIdle) (.inl rfl) hs h,
    exec_sends (i := .writeCommand bs) (.inl rfl) hs [(false, bs)] rfl (runIdle_command bs s) h,
    exec_sends (i := .writeData bs) (.inl rfl) hs [(true, bs)] rfl (runIdle_data bs s) h⟩

/-! ### The command rows (R65, R70 to R84) -/

/-- A row with a payload sends its pair. -/
theorem exec_pair {i : Instr} (hi : transfers i = true) {s : State} (hs : s.Ready) {code : Byte} {payload : List Byte}
    (hop : operation s i = pairStmts code payload) (h : s.AllIdle (pairFrames code payload).length) :
    exec i s = .next { s.afterFrames (pairFrames code payload) with results := s.results ++ [.done] } :=
  exec_sends (.inl hi) hs _ (by rw [hop, waits_pair]) (by rw [hop, runIdle_pair]) h

theorem singleton_dem (o : Orient) : (if o = .portrait then [0x03#8] else [0x04#8]) = [dem o] := by
  cases o <;> rfl

theorem window_eq (cfg : Cfg) :
    window cfg = if cfg.orient = .portrait then cfg.windowPortrait else cfg.windowLandscape := by
  unfold window
  cases cfg.orient <;> rfl

theorem lut_eq (cfg : Cfg) : lut cfg = if cfg.mode = .full then cfg.lutFull.toList else cfg.lutPartial.toList := by
  rw [lut, lutTable_eq, apply_ite Vector.toList]

/-- The 12 rows with a payload, with the statements of each. -/
theorem operation_of_mem_payloadRows {s : State} {i : Instr} {code : Byte} {payload : List Byte}
    (h : (i, code, payload) ∈ [
      (Instr.driverOutputControl, (0x01#8 : Byte), s.cfg.init.drv), (.boosterSoftStart, 0x0C#8, s.cfg.init.boost),
      (.writeVcom, 0x2C#8, s.cfg.init.vcom), (.dummyLinePeriod, 0x3A#8, s.cfg.init.dummy),
      (.gateTime, 0x3B#8, s.cfg.init.gate), (.dataEntryMode, 0x11#8, [dem s.cfg.orient]),
      (.writeLut, 0x32#8, s.selectedLut.toList), (.ramXStartEnd, 0x44#8, (window s.cfg).ramX),
      (.ramYStartEnd, 0x45#8, (window s.cfg).ramY), (.ramXCounter, 0x4E#8, (window s.cfg).ctrX),
      (.ramYCounter, 0x4F#8, (window s.cfg).ctrY), (.displayUpdateControl, 0x22#8, [0xC4#8])]) :
    transfers i = true ∧ operation s i = pairStmts code payload := by
  simp only [List.mem_cons, List.not_mem_nil, or_false, Prod.mk.injEq] at h
  rcases h with ⟨rfl, rfl, rfl⟩ | ⟨rfl, rfl, rfl⟩ | ⟨rfl, rfl, rfl⟩ | ⟨rfl, rfl, rfl⟩ | ⟨rfl, rfl, rfl⟩ | ⟨rfl, rfl, rfl⟩ |
    ⟨rfl, rfl, rfl⟩ | ⟨rfl, rfl, rfl⟩ | ⟨rfl, rfl, rfl⟩ | ⟨rfl, rfl, rfl⟩ | ⟨rfl, rfl, rfl⟩ | ⟨rfl, rfl, rfl⟩ <;>
    exact ⟨rfl, rfl⟩

theorem pairFrames_cons {payload : List Byte} (h : payload ≠ []) (code : Byte) :
    pairFrames code payload = [(false, [code]), (true, payload)] := by
  rw [pairFrames, if_neg h]

theorem lut_ne_nil (cfg : Cfg) : lut cfg ≠ [] := by
  intro h
  have := congrArg List.length h
  simp [lut] at this

/-- Settles O38: a row's statements are `pairStmts` of its code and payload; the copied table is `LUT(mode)` by the invariant. -/
theorem payloadCommandsSendTheirPair : Obligations.PayloadCommandsSendTheirPair := by
  refine ⟨fun s i code payload hs hrow hidle => ?_, fun s hinv hs hidle => ?_⟩
  · rw [singleton_dem, ← apply_ite Window.ramX, ← apply_ite Window.ramY, ← apply_ite Window.ctrX, ← apply_ite Window.ctrY,
      ← window_eq] at hrow
    obtain ⟨hi, hop⟩ := operation_of_mem_payloadRows hrow
    exact exec_pair hi hs hop hidle
  · have hop : operation s .writeLut = pairStmts 0x32 (lut s.cfg) := by
      rw [operation, hinv.table]
      rfl
    have hframes : pairFrames 0x32 (lut s.cfg) = [(false, [0x32#8]), (true, lut s.cfg)] :=
      pairFrames_cons (lut_ne_nil s.cfg) 0x32
    rw [← lut_eq, ← hframes]
    exact exec_pair rfl hs hop (by rw [hframes]; exact hidle)

/-- Settles O39: `runIdle_command` and `runIdle_image` for WRITE_RAM, `runIdle_command` for the two bare rows. -/
theorem imageAndBareCommandsSendTheirFrames : Obligations.ImageAndBareCommandsSendTheirFrames := by
  refine fun s hs => ⟨exec_sends (i := .writeRam) (.inl rfl) hs [(false, [0x24]), (true, s.image)] rfl ?_,
    exec_sends (i := .activateUpdate) (.inl rfl) hs [(false, [0x20])] rfl (runIdle_command [0x20] s),
    exec_sends (i := .terminateFrame) (.inl rfl) hs [(false, [0xFF])] rfl (runIdle_command [0xFF] s)⟩
  rw [operation, writeRamStmts, runIdle_append, runIdle_command, runIdle_image, State.afterFrames_image,
    ← State.afterFrames_append]
  rfl

/-! ### The controller (R160 to R168) -/

/-- Settles O40: `runIdle_area` and `runIdle_pointer`, with the window of the orientation. -/
theorem windowAndPointerAreSentInOrder : Obligations.WindowAndPointerAreSentInOrder := by
  rintro s w hs rfl
  rw [← window_eq]
  exact ⟨exec_sends (i := .setMemoryArea) (.inl rfl) hs _ (waits_area s.cfg) (runIdle_area s.cfg s),
    exec_sends (i := .setMemoryPointer) (.inl rfl) hs _ (waits_pointer s.cfg) (runIdle_pointer s.cfg s)⟩

/-- `init` on an idle panel, with its frames by name. -/
theorem exec_init_idle {s : State} (hs : s.Ready) (h : s.AllIdle (initFrames s.cfg).length) :
    exec .init s = .next { s with
      pstate := .initialized
      trace := s.trace ++ [.rstLow, .sleep 10, .rstHigh, .sleep 10] ++ idleFrames (initFrames s.cfg)
      panel := s.panel.drop (initFrames s.cfg).length
      polls := s.polls + (initFrames s.cfg).length
      results := s.results ++ [.done] } := by
  rw [exec_performs_idle (.inl rfl) hs (by rw [operation, waits_init]; exact h), operation, runIdle_init, runIdle_reset]
  rfl

/-- Settles O41: `exec_init_idle`, its frames written out. -/
theorem initSendsItsSequence : Obligations.InitSendsItsSequence := by
  intro s fs hs hfs
  rw [singleton_dem, ← lut_eq] at hfs
  subst hfs
  exact exec_init_idle hs

theorem afterTransfer_eq (p : PState) :
    p.afterTransfer = if p = .uninitialized ∨ p = .resetting then p else .initialized := by
  cases p <;> rfl

theorem length_imageFrames (cfg : Cfg) (image : List Byte) :
    (imageFrames cfg image).length = (areaFrames cfg).length + (pointerFrames cfg).length + 2 := by
  simp [imageFrames, Nat.add_assoc]

/-- `writeImage` on an idle panel, with its frames by name. -/
theorem exec_writeImage_idle {s : State} (hs : s.Ready) (h : s.AllIdle (imageFrames s.cfg s.image).length) :
    exec .writeImage s = .next { s.afterFrames (imageFrames s.cfg s.image) with
      pstate := s.pstate.afterTransfer
      results := s.results ++ [.done] } := by
  have hw : waits (writeImageStmts s.cfg) = (imageFrames s.cfg s.image).length :=
    (waits_writeImage s.cfg).trans (length_imageFrames s.cfg s.image).symm
  rw [exec_performs_idle (.inl rfl) hs (by rw [operation, hw]; exact h), operation, runIdle_writeImage]
  rfl

/-- Settles O42: `exec_writeImage_idle`, its frames written out. -/
theorem writeImageSendsTheFramebuffer : Obligations.WriteImageSendsTheFramebuffer := by
  rintro s fs hs rfl hidle
  rw [← afterTransfer_eq]
  exact exec_writeImage_idle hs hidle

/-- `update` on an idle panel, with its frames by name. -/
theorem exec_update_idle {s : State} (hs : s.Ready) (h : s.AllIdle 4) :
    exec .update s = .next { s.afterFrames updateFrames with
      pstate := s.pstate.afterTransfer
      results := s.results ++ [.done] } := by
  rw [exec_performs_idle (i := .update) (.inl rfl) hs h, operation, runIdle_update]
  rfl

/-- Settles O43: `exec_update_idle`, its four frames written out. -/
theorem updateActivatesTheRefresh : Obligations.UpdateActivatesTheRefresh := by
  intro s hs hidle
  rw [← afterTransfer_eq]
  exact exec_update_idle hs hidle

/-- Settles O44: `runIdle_fullRefresh`, whose two images are one byte repeated. -/
theorem fullRefreshClearsTheGhosts : Obligations.FullRefreshClearsTheGhosts := by
  rintro s n hs rfl hidle
  refine ⟨_, exec_performs_idle (.inl rfl) hs (by rw [operation, waits_fullRefresh]; exact hidle), ?_, fun a ha => ?_⟩ <;>
    rw [operation, runIdle_fullRefresh]
  · rw [afterTransfer_eq]
    rfl
  · exact Memory.read_fill _ _ ha

/-! ### Read back (R63) -/

/-- Frames that no data frame leads. -/
def StartsWithCommand (fs : List (Bool × List Byte)) : Prop := (takePayload fs).1 = []

theorem startsWithCommand_pairFrames (code : Byte) (payload : List Byte) (fs : List (Bool × List Byte)) :
    StartsWithCommand (pairFrames code payload ++ fs) := rfl

/-- A pair is read back as its command, an empty payload included. -/
theorem commandsOf_pairFrames {fs : List (Bool × List Byte)} (h : StartsWithCommand fs) (code : Byte)
    (payload : List Byte) : commandsOf (pairFrames code payload ++ fs) = ([code], payload) :: commandsOf fs := by
  unfold StartsWithCommand at h
  unfold pairFrames
  by_cases hp : payload = []
  · subst hp
    simp [commandsOf, h]
  · simp [hp, commandsOf, takePayload, h]

theorem commandsOf_area {fs : List (Bool × List Byte)} (h : StartsWithCommand fs) (cfg : Cfg) :
    commandsOf (areaFrames cfg ++ fs) = ([0x44], (window cfg).ramX) :: ([0x45], (window cfg).ramY) :: commandsOf fs := by
  rw [areaFrames, List.append_assoc, commandsOf_pairFrames (startsWithCommand_pairFrames _ _ _),
    commandsOf_pairFrames h]

theorem commandsOf_pointer {fs : List (Bool × List Byte)} (h : StartsWithCommand fs) (cfg : Cfg) :
    commandsOf (pointerFrames cfg ++ fs) =
      ([0x4E], (window cfg).ctrX) :: ([0x4F], (window cfg).ctrY) :: commandsOf fs := by
  rw [pointerFrames, List.append_assoc, commandsOf_pairFrames (startsWithCommand_pairFrames _ _ _),
    commandsOf_pairFrames h]

theorem commandsOf_init (cfg : Cfg) : commandsOf (initFrames cfg) =
    [([0x01#8], cfg.init.drv), ([0x0C#8], cfg.init.boost), ([0x2C#8], cfg.init.vcom), ([0x3A#8], cfg.init.dummy),
      ([0x3B#8], cfg.init.gate), ([0x11#8], [dem cfg.orient]), ([0x32#8], lut cfg), ([0x44#8], (window cfg).ramX),
      ([0x45#8], (window cfg).ramY), ([0x4E#8], (window cfg).ctrX), ([0x4F#8], (window cfg).ctrY)] := by
  have hlast := commandsOf_pointer (fs := []) rfl cfg
  rw [List.append_nil] at hlast
  unfold initFrames
  simp only [List.append_assoc]
  rw [commandsOf_pairFrames, commandsOf_pairFrames, commandsOf_pairFrames, commandsOf_pairFrames, commandsOf_pairFrames,
    commandsOf_pairFrames, commandsOf_pairFrames, commandsOf_area, hlast]
  all_goals rfl

theorem commandsOf_image (cfg : Cfg) (image : List Byte) : commandsOf (imageFrames cfg image) =
    [([0x44#8], (window cfg).ramX), ([0x45#8], (window cfg).ramY), ([0x4E#8], (window cfg).ctrX),
      ([0x4F#8], (window cfg).ctrY), ([0x24#8], image)] := by
  unfold imageFrames
  rw [List.append_assoc, commandsOf_area, commandsOf_pointer]
  · simp [commandsOf, takePayload]
  all_goals rfl

theorem framesOf_idleFrames (fs : List (Bool × List Byte)) : framesOf (idleFrames fs) = fs := framesFrom_idleFrames none fs

/-- A reset pulse in front of frames is none of them. -/
theorem framesOf_pulse_idleFrames (fs : List (Bool × List Byte)) :
    framesOf ([.rstLow, .sleep 10, .rstHigh, .sleep 10] ++ idleFrames fs) = fs := framesFrom_idleFrames none fs

/-- Settles O45: the events behind `s.trace` are idle frames, read back as those frames, and pairs of them as commands. -/
theorem tracesReadBackAsTheListedCommands : Obligations.TracesReadBackAsTheListedCommands := by
  rintro s w hs hidle rfl
  refine ⟨⟨_, exec_init_idle hs (State.allIdle_mono hidle (length_initFrames_le s.cfg)), ?_⟩,
    ⟨_, exec_writeImage_idle hs (State.allIdle_mono hidle ?_), ?_⟩,
    ⟨_, exec_update_idle hs (State.allIdle_mono hidle (by omega)), ?_⟩⟩
  · show readBack (List.drop _ (s.trace ++ _ ++ _)) = _
    rw [List.append_assoc, List.drop_left, readBack, framesOf_pulse_idleFrames, commandsOf_init]
  · have h1 := length_areaFrames_le s.cfg
    have h2 := length_pointerFrames_le s.cfg
    rw [length_imageFrames]
    omega
  · show readBack (List.drop _ (s.trace ++ _)) = _
    rw [List.drop_left, readBack, framesOf_idleFrames, commandsOf_image]
  · show readBack (List.drop _ (s.trace ++ _)) = _
    rw [List.drop_left, readBack, framesOf_idleFrames]
    rfl

end Sys2Proof.Machine
end

section
/-! PROOFS: what decides nothing. The protocol state (O52), the refresh mode and the waveform tables outside `init` (O53, O59);
and the two arithmetics of a line (O58). -/

namespace Sys2Proof.Machine

/-! ### States alike but for mode, tables and protocol state -/

/-- `s` with another refresh mode, other waveform tables and another protocol state. -/
def State.altered (s : State) (m : RefreshMode) (full part : Vector Byte 30) (p : PState) : State :=
  { s with cfg := { s.cfg with mode := m, lutFull := full, lutPartial := part }, pstate := p }

/-- A relation between protocol states that no write of the register breaks: equality, or none at all. -/
def Kept (E : PState → PState → Prop) : Prop := ∀ (g : PState → PState) (p q : PState), E p q → E (g p) (g q)

theorem kept_eq : Kept (· = ·) := fun g _ _ h => congrArg g h

theorem kept_any : Kept fun _ _ => True := fun _ _ _ _ => trivial

section Altered

variable {E : PState → PState → Prop} (hE : Kept E) {m : RefreshMode} {full part : Vector Byte 30}

include hE in
theorem Act.run_altered (a : Act) (s : State) {q : PState} (hq : E s.pstate q) :
    ∃ q', E (a.run s).pstate q' ∧ a.run (s.altered m full part q) = (a.run s).altered m full part q' := by
  cases a with
  | setPState p => exact ⟨p, hE (fun _ => p) _ _ hq, rfl⟩
  | enter p => exact ⟨p.enter q, hE p.enter _ _ hq, rfl⟩
  | leave p => exact ⟨p.leave q, hE p.leave _ _ hq, rfl⟩
  | _ => exact ⟨q, hq, rfl⟩

include hE in
/-- Statements do the same in states so alike. -/
theorem runStmts_altered (l : List Stmt) (s : State) {q : PState} (hq : E s.pstate q) :
    ∃ q', E (runStmts l s).pstate q' ∧ runStmts l (s.altered m full part q) = (runStmts l s).altered m full part q' := by
  induction l generalizing s q with
  | nil => exact ⟨q, hq, rfl⟩
  | cons st rest ih =>
    cases st with
    | act a =>
      obtain ⟨q', hq', ha⟩ := Act.run_altered hE (m := m) (full := full) (part := part) a s hq
      obtain ⟨q'', hq'', hr⟩ := ih (a.run s) hq'
      refine ⟨q'', hq'', ?_⟩
      rw [runStmts, ha, hr]
      rfl
    | wait n =>
      have hlimit : (s.altered m full part q).pollLimitReached (n + 1) = s.pollLimitReached (n + 1) := rfl
      have hanswer : (s.altered m full part q).answer 0 = s.answer 0 := rfl
      rw [runStmts, runStmts, hanswer, hlimit]
      split
      · split
        · exact ⟨q, hq, rfl⟩
        · exact ⟨q, hq, rfl⟩
      · exact ih s.poll hq

end Altered

/-! ### Changes that drawing does not see -/

/-- A change of the state that touches nothing a drawing reads or writes. -/
structure Blind (g : State → State) : Prop where
  orient : ∀ s, (g s).cfg.orient = s.cfg.orient
  fbResetFill : ∀ s, (g s).cfg.fbResetFill = s.cfg.fbResetFill
  lineY : ∀ s, (g s).cfg.lineY = s.cfg.lineY
  circleRoot : ∀ s, (g s).cfg.circleRoot = s.cfg.circleRoot
  glyphs : ∀ s, (g s).cfg.glyphs = s.cfg.glyphs
  msbTop : ∀ s, (g s).cfg.glyphLandscapeMsbTop = s.cfg.glyphLandscapeMsbTop
  fb : ∀ s, (g s).fb = s.fb
  setFb : ∀ s m, { g s with fb := m } = g { s with fb := m }
  reply : ∀ s r, (g s).reply r = g (s.reply r)
  raise : ∀ s f, (g s).raise f = g (s.raise f)

theorem altered_blind (m : RefreshMode) (full part : Vector Byte 30) (q : PState) :
    Blind fun s => s.altered m full part q :=
  ⟨fun _ => rfl, fun _ => rfl, fun _ => rfl, fun _ => rfl, fun _ => rfl, fun _ => rfl, fun _ => rfl, fun _ _ => rfl,
    fun _ _ => rfl, fun _ _ => rfl⟩

theorem setPanel_blind (answers : List Bool) : Blind fun s => { s with panel := answers } :=
  ⟨fun _ => rfl, fun _ => rfl, fun _ => rfl, fun _ => rfl, fun _ => rfl, fun _ => rfl, fun _ => rfl, fun _ _ => rfl,
    fun _ _ => rfl, fun _ _ => rfl⟩

section Blind

variable {g : State → State} (hg : Blind g)

include hg

theorem byteAt_blind (s : State) (a : Nat) : (g s).byteAt a = s.byteAt a := by
  rw [State.byteAt, hg.fbResetFill, hg.fb]
  rfl

theorem pixelAt_blind (s : State) (x y : Int) : (g s).pixelAt x y = s.pixelAt x y := by
  simp only [State.pixelAt, hg.orient, byteAt_blind hg]

theorem setPixel_blind (s : State) (x y c : Int) : (g s).setPixel x y c = g (s.setPixel x y c) := by
  simp only [State.setPixel, hg.orient, byteAt_blind hg, State.writeByte, hg.fbResetFill, hg.fb, hg.setFb]
  split <;> rfl

theorem plot_blind (s : State) (ps : List (Int × Int)) (c : Int) : (g s).plot ps c = g (s.plot ps c) := by
  induction ps generalizing s with
  | nil => rfl
  | cons p ps ih => rw [State.plot_cons, State.plot_cons, setPixel_blind hg, ih]

theorem glyphOf_blind (s : State) (d : Char) : glyphOf (g s).cfg d = glyphOf s.cfg d := by
  rw [glyphOf, hg.glyphs, glyphOf]

theorem glyphPoints_blind (s : State) : glyphPoints (g s).cfg = glyphPoints s.cfg := by
  have hmsb : msbIsTop (g s).cfg = msbIsTop s.cfg := by unfold msbIsTop; rw [hg.orient, hg.msbTop]
  have hbit : glyphBit (g s).cfg = glyphBit s.cfg := by unfold glyphBit; rw [hmsb]
  unfold glyphPoints columnPoints
  rw [hbit]

theorem textRun_blind (s : State) (x y : Int) (str : List Char) : textRun (g s).cfg x y str = textRun s.cfg x y str := by
  induction str generalizing x with
  | nil => rfl
  | cons d ds ih => simp only [textRun, glyphOf_blind hg, glyphPoints_blind hg, ih]

/-- An instruction that is no run of statements does the same after such a change. -/
theorem effect_local_blind {i : Instr} (hi : ¬ Performs i) (s : State) : effect i (g s) = g (effect i s) := by
  obtain ⟨-, points, c, he⟩ | ⟨c, rfl⟩ | ⟨x, y, rfl⟩ | ⟨str, x, y, c, rfl⟩ := effect_of_not_performs hi
  · rw [he, he, hg.lineY, hg.circleRoot, plot_blind hg, hg.reply]
  · show ({ g s with fb := Memory.fill (g s).cfg.fbResetFill (fillByte c) } : State).reply .done = _
    rw [hg.fbResetFill, hg.setFb, hg.reply]
    rfl
  · show (g s).reply (.pixel ((g s).pixelAt x y)) = _
    rw [pixelAt_blind hg, hg.reply]
    rfl
  · show (g s).drawText str x y c = g (s.drawText str x y c)
    simp only [State.drawText, textRun_blind hg, plot_blind hg, hg.reply, hg.raise]
    split <;> rfl

end Blind

/-- The protocol state of what such an instruction leaves is the one it found. -/
theorem effect_local_pstate {i : Instr} (hi : ¬ Performs i) (s : State) : (effect i s).pstate = s.pstate := by
  obtain ⟨r, he⟩ | ⟨_, _, _, _, _, -, -, he⟩ := effect_local hi s <;> rw [he]

/-- An instruction whose statements are the same in both states does the same in both. -/
theorem exec_altered {E : PState → PState → Prop} (hE : Kept E) {i : Instr} {s t : State} {m : RefreshMode}
    {full part : Vector Byte 30} {q : PState} (h : exec i s = .next t)
    (hop : operation (s.altered m full part q) i = operation s i) (hq : E s.pstate q) :
    ∃ q', E t.pstate q' ∧ exec i (s.altered m full part q) = .next (t.altered m full part q') := by
  obtain ⟨hr, rfl⟩ := exec_next_iff.mp h
  have hr' : (s.altered m full part q).Ready := hr
  rw [exec_ready hr']
  by_cases hi : Performs i
  · rw [effect_of_performs hi, effect_of_performs hi, hop]
    obtain ⟨q', hq', hrun⟩ := runStmts_altered hE (operation s i ++ [.act (.reply .done)]) s hq
    exact ⟨q', hq', by rw [hrun]⟩
  · exact ⟨q, by rw [effect_local_pstate hi]; exact hq, by rw [effect_local_blind (altered_blind m full part q) hi]⟩

/-- No statements but those of `init` depend on mode and tables. -/
theorem operation_altered {i : Instr} (hi : i ≠ .init) (s : State) (m : RefreshMode) (full part : Vector Byte 30)
    (q : PState) : operation (s.altered m full part q) i = operation s i := by
  cases i with
  | init => exact absurd rfl hi
  | _ => rfl

/-- Those of `init` depend on them by `LUT(mode)` alone. -/
theorem operation_init_altered {s : State} {m : RefreshMode} {full part : Vector Byte 30} (q : PState)
    (h : lutTable (s.altered m full part q).cfg = lutTable s.cfg) :
    operation (s.altered m full part q) .init = operation s .init := by
  simp only [operation, initStmts, h]
  rfl

/-- The same, where the protocol state is not altered. -/
theorem exec_altered_same {i : Instr} {s t : State} {m : RefreshMode} {full part : Vector Byte 30}
    (h : exec i s = .next t) (hop : operation (s.altered m full part s.pstate) i = operation s i) :
    exec i (s.altered m full part s.pstate) = .next (t.altered m full part t.pstate) := by
  obtain ⟨q, rfl, hexec⟩ := exec_altered kept_eq h hop rfl
  exact hexec

theorem exec_cfg {i : Instr} {s t : State} (h : exec i s = .next t) : t.cfg = s.cfg := by
  obtain ⟨-, rfl⟩ := exec_next_iff.mp h
  exact (Extends.effect i s).cfg

/-- Settles O53: the altered state has its own tables and protocol state, and another mode (`operation_altered`). -/
theorem refreshModeIsReadOnlyByInit : Obligations.RefreshModeIsReadOnlyByInit := by
  intro i s t m h hi
  refine (exec_altered_same (m := m) (full := s.cfg.lutFull) (part := s.cfg.lutPartial) h
    (operation_altered hi s _ _ _ _)).trans ?_
  rw [← exec_cfg h]
  rfl

/-- Where the table of the mode is the same, the statements of every instruction are. -/
theorem operation_altered_of_lutTable {s : State} {full part : Vector Byte 30}
    (h : lutTable (s.altered s.cfg.mode full part s.pstate).cfg = lutTable s.cfg) (i : Instr) :
    operation (s.altered s.cfg.mode full part s.pstate) i = operation s i := by
  by_cases hi : i = .init
  · subst hi
    exact operation_init_altered s.pstate h
  · exact operation_altered hi s _ _ _ _

/-- Settles O59: outside `init` by `operation_altered`; for `init` the table of the mode is the one that is kept. -/
theorem waveformTablesAreReadOnlyByInit : Obligations.WaveformTablesAreReadOnlyByInit := by
  intro i s t full part h
  have hcfg := exec_cfg h
  refine ⟨fun hi => (exec_altered_same h (operation_altered hi s s.cfg.mode full part _)).trans ?_, fun hmode =>
    (exec_altered_same h (operation_altered_of_lutTable (full := s.cfg.lutFull) (part := part) ?_ i)).trans ?_,
    fun hmode => (exec_altered_same h (operation_altered_of_lutTable (full := full) (part := s.cfg.lutPartial) ?_ i)).trans ?_⟩
  · rw [← hcfg]
    rfl
  · simp only [lutTable, State.altered, hmode]
  · rw [← hcfg]
    rfl
  · simp only [lutTable, State.altered, hmode]
  · rw [← hcfg]
    rfl

/-! ### The protocol state (R31) -/

theorem State.altered_own (s : State) (q : PState) :
    s.altered s.cfg.mode s.cfg.lutFull s.cfg.lutPartial q = { s with pstate := q } := rfl

/-- A step that goes on with a suspended operation. -/
theorem step_pending {s : State} (hf : s.fault = none) (hp : s.pending ≠ []) :
    step s = .next (runStmts s.pending (s.suspend [])) := by
  unfold step
  cases hpending : s.pending with
  | nil => exact absurd hpending hp
  | cons st rest => rw [hf]

/-- What a step answers, by the fault and the next issue. -/
theorem step_cases (s : State) :
    (∃ f, s.fault = some f ∧ step s = .fault f) ∨ (∃ t, step s = .next t) ∨
    ∃ issue rest e, s.Ready ∧ s.program = issue :: rest ∧ decode issue = .error e ∧ step s = .refused (.illFormed e) := by
  cases hf : s.fault with
  | some f => exact .inl ⟨f, rfl, step_faulted hf⟩
  | none =>
    by_cases hp : s.pending = []
    · cases hprogram : s.program with
      | nil => exact .inr (.inl ⟨s, coreWaitsForTheHost s ⟨hf, hp⟩ hprogram⟩)
      | cons issue rest =>
        cases hdecode : decode issue with
        | ok i =>
          refine .inr (.inl ⟨effect i { s with program := rest }, ?_⟩)
          rw [stepRunsTheDecodedInstruction s issue rest i ⟨hf, hp⟩ hprogram hdecode]
          exact exec_ready (s := { s with program := rest }) ⟨hf, hp⟩ i
        | error e =>
          exact .inr (.inr ⟨issue, rest, e, ⟨hf, hp⟩, rfl, hdecode,
            illFormedIssueIsRefused s issue rest e ⟨hf, hp⟩ hprogram hdecode⟩)
    · exact .inr (.inl ⟨_, step_pending hf hp⟩)

/-- A next state, and the same but for the protocol state from a state that differs in it. -/
theorem step_next_altered {s t : State} (h : step s = .next t) (p : PState) :
    ∃ q, step { s with pstate := p } = .next { t with pstate := q } := by
  obtain ⟨hf, ⟨hp, hprogram, rfl⟩ | ⟨hp, rfl⟩ | ⟨hp, issue, rest, i, hprogram, hdecode, hexec⟩⟩ := step_next_cases h
  · exact ⟨p, coreWaitsForTheHost { t with pstate := p } ⟨hf, hp⟩ hprogram⟩
  · obtain ⟨q, -, hrun⟩ := runStmts_altered kept_any (m := s.cfg.mode) (full := s.cfg.lutFull)
      (part := s.cfg.lutPartial) s.pending (s.suspend []) (q := p) trivial
    refine ⟨q, (step_pending (s := { s with pstate := p }) hf hp).trans (congrArg _ (hrun.trans ?_))⟩
    rw [← State.altered_own, (Extends.runStmts s.pending (s.suspend [])).cfg]
    rfl
  · obtain ⟨q, -, hexec'⟩ := exec_altered kept_any (m := s.cfg.mode) (full := s.cfg.lutFull)
      (part := s.cfg.lutPartial) (q := p) hexec rfl trivial
    refine ⟨q, (stepRunsTheDecodedInstruction { s with pstate := p } issue rest i ⟨hf, hp⟩ hprogram hdecode).trans
      (hexec'.trans ?_)⟩
    rw [← State.altered_own, exec_cfg hexec]

/-- Settles O52: neither the fault nor the next issue is the protocol state (`step_cases`), and a next state is alike
(`step_next_altered`). -/
theorem protocolStateDecidesNothing : Obligations.ProtocolStateDecidesNothing := by
  intro s p
  refine ⟨fun t hstep => step_next_altered hstep p, fun f hstep => ?_, fun r hstep => ?_⟩
  · obtain ⟨f', hf, h⟩ | ⟨t, h⟩ | ⟨_, _, _, -, -, -, h⟩ := step_cases s <;> rw [h] at hstep <;> cases hstep
    exact step_faulted (s := { s with pstate := p }) hf
  · obtain ⟨f, -, h⟩ | ⟨t, h⟩ | ⟨issue, rest, e, hr, hprogram, hdecode, h⟩ := step_cases s <;> rw [h] at hstep <;>
      cases hstep
    exact illFormedIssueIsRefused { s with pstate := p } issue rest e hr hprogram hdecode

/-- Settles O58: the kernel evaluates both readings. -/
theorem binaryLineMissesItsEndPoint : Obligations.BinaryLineMissesItsEndPoint := by
  unfold Obligations.BinaryLineMissesItsEndPoint
  decide +kernel

end Sys2Proof.Machine
end

section
/-! PROOFS: the whole run of an operation, suspended and gone on with. What an instruction leaves unchanged throughout it (O51), and
the codes it sends (O57). -/

namespace Sys2Proof.Machine

/-! ### One property along a whole run -/

/-- A property of a run between two statements, `I`, that every statement keeps, with what holds where the bound is reached. -/
structure Keeps (I : State → List Stmt → Prop) (F : State → Prop) : Prop where
  act : ∀ s a rest, I s (.act a :: rest) → I (a.run s) rest
  idle : ∀ s n rest, I s (.wait n :: rest) → I s.poll rest
  busy : ∀ s n rest, I s (.wait n :: rest) → I (s.poll.emit (.sleep pollMs)) (.wait (n + 1) :: rest)
  limit : ∀ s n rest, I s (.wait n :: rest) → F (s.poll.raise (.deviceUnresponsive (n + 1)))

/-- Where a run stands between two steps: at its end, in a busy wait, or at the fault of one. -/
inductive Stands (I : State → List Stmt → Prop) (F : State → Prop) (u : State) : Prop
  | ended (hu : u.Ready) (h : I u [])
  | waiting {n : Nat} {rest : List Stmt} (hf : u.fault = none) (hp : u.pending = .wait n :: rest)
      (h : I (u.suspend []) (.wait n :: rest))
  | stopped {f : Fault} (hf : u.fault = some f) (hp : u.pending = []) (h : F u)

section Run

variable {I : State → List Stmt → Prop} {F : State → Prop} (hK : Keeps I F)

include hK

theorem stands_runStmts {l : List Stmt} {s : State} (hs : s.Ready) (h : I s l) : Stands I F (runStmts l s) := by
  refine runStmts_induction (I := fun u l => u.Ready ∧ I u l) (Q := Stands I F) (fun u hu => .ended hu.1 hu.2)
    (fun u a rest hu => ⟨⟨?_, ?_⟩, hK.act u a rest hu.2⟩) (fun u n rest hu _ => ⟨hu.1, hK.idle u n rest hu.2⟩)
    (fun u n rest hu _ _ => .waiting hu.1.1 rfl ?_) (fun u n rest hu _ _ => .stopped rfl rfl (hK.limit u n rest hu.2))
    l s ⟨hs, h⟩
  · rw [Act.run_fault, hu.1.1]
  · rw [Act.run_pending, hu.1.2]
  · have hpending : ((u.poll.emit (.sleep pollMs)).suspend (.wait (n + 1) :: rest)).suspend [] =
        u.poll.emit (.sleep pollMs) := by
      rw [← show (u.poll.emit (.sleep pollMs)).pending = [] from hu.1.2]
      rfl
    rw [hpending]
    exact hK.busy u n rest hu.2

theorem stands_step {t u : State} (h : Stands I F t) (hp : t.program = []) (hstep : step t = .next u) :
    Stands I F u := by
  cases h with
  | ended hu h =>
    rw [coreWaitsForTheHost t hu hp] at hstep
    cases hstep
    exact .ended hu h
  | waiting hf hpending h =>
    rw [step_pending hf (by rw [hpending]; exact nofun)] at hstep
    cases hstep
    rw [hpending]
    exact stands_runStmts hK ⟨hf, rfl⟩ h
  | stopped hf =>
    rw [step_faulted hf] at hstep
    cases hstep

/-- Where the host has issued nothing behind the operation, every later step stands in its run. -/
theorem stands_stepsTo {k : Nat} {t u : State} (h : Stands I F t) (hk : k = 0 ∨ t.program = [])
    (hsteps : stepsTo k t u) : Stands I F u := by
  induction k generalizing t with
  | zero =>
    cases hsteps
    exact h
  | succ k ih =>
    obtain ⟨v, hstep, hsteps⟩ := hsteps
    have hp : t.program = [] := hk.resolve_left (Nat.succ_ne_zero k)
    obtain ⟨-, -, ⟨is, his⟩, -⟩ := historyOnlyGrows t v hstep
    rw [hp] at his
    exact ih (stands_step hK h hp hstep) (.inr (List.append_eq_nil_iff.mp his.symm).2) hsteps

/-- The whole run of an instruction that is a run of statements. -/
theorem stands_exec {i : Instr} (hi : Performs i) {s t u : State} {k : Nat} (hexec : exec i s = .next t)
    (hk : k = 0 ∨ s.program = []) (hsteps : stepsTo k t u) (h : I s (operation s i ++ [.act (.reply .done)])) :
    Stands I F u := by
  obtain ⟨hs, rfl⟩ := exec_next_iff.mp hexec
  rw [← (Extends.effect i s).program] at hk
  rw [effect_of_performs hi] at hk hsteps
  exact stands_stepsTo hK (stands_runStmts hK hs h) hk hsteps

end Run

/-- A state with nothing pending and no issue to come is the last one of its run. -/
theorem stepsTo_settled {k : Nat} {t u : State} (hp : t.pending = []) (hk : k = 0 ∨ t.program = [])
    (h : stepsTo k t u) : u = t := by
  induction k with
  | zero => exact h
  | succ k ih =>
    obtain ⟨v, hstep, hsteps⟩ := h
    have hprogram : t.program = [] := hk.resolve_left (Nat.succ_ne_zero k)
    obtain ⟨-, ⟨-, -, rfl⟩ | ⟨hpending, -⟩ | ⟨-, issue, rest, i, his, -⟩⟩ := step_next_cases hstep
    · exact ih (.inr hprogram) hsteps
    · exact absurd hp hpending
    · rw [hprogram] at his
      cases his

/-! ### What an operation may change (R26, R30) -/

/-- The statements that an instruction may have: those that write the framebuffer where it draws, and the protocol state where
R30 has it write it. -/
def Allowed (i : Instr) : Stmt → Prop
  | .wait _ | .act (.emit _) | .act .sendImage | .act (.reply _) => True
  | .act (.setPState _) | .act (.enter _) | .act (.leave _) => movesProtocol i = true
  | .act (.fill _) => draws i = true

theorem Conducts.allowed {i : Instr} {l : List Stmt} (h : Conducts i l) : ∀ st ∈ l, Allowed i st := by
  induction h with
  | nil => exact fun _ h => nomatch h
  | quiet ha _ ih =>
    rename_i a _ _
    refine List.forall_mem_cons.mpr ⟨?_, ih⟩
    cases a with
    | emit | sendImage => exact trivial
    | _ => exact ha
  | pause ms _ ih => exact List.forall_mem_cons.mpr ⟨trivial, ih⟩
  | pulse hi _ ih => exact List.forall_mem_append.mpr ⟨by simp [resetStmts, emitStmt, Allowed, hi], ih⟩
  | wait _ ih | command _ _ ih | data _ _ ih | image _ ih =>
    exact List.forall_mem_append.mpr
      ⟨by simp [waitStmts, commandStmts, dataStmts, imageStmts, emitStmt, Allowed], ih⟩

/-- What `i` leaves unchanged, from `s` to any state `u` of its run: the configuration, the table and the program, the
framebuffer unless it draws, the protocol state unless it writes it. -/
structure Untouched (i : Instr) (s u : State) : Prop where
  cfg : u.cfg = s.cfg
  program : u.program = s.program
  selectedLut : u.selectedLut = s.selectedLut
  fb : draws i = false → u.fb = s.fb
  pstate : movesProtocol i = false → u.pstate = s.pstate

theorem Untouched.act {i : Instr} {s u : State} (h : Untouched i s u) {a : Act} (ha : Allowed i (.act a)) :
    Untouched i s (a.run u) := by
  obtain ⟨hcfg, hprogram, hlut, hfb, hp⟩ := h
  cases a with
  | emit | sendImage | reply => exact ⟨hcfg, hprogram, hlut, hfb, hp⟩
  | setPState | enter | leave => exact ⟨hcfg, hprogram, hlut, hfb, fun hi => absurd (ha.symm.trans hi) (by decide)⟩
  | fill c => exact ⟨hcfg, hprogram, hlut, fun hi => absurd (ha.symm.trans hi) (by decide), hp⟩

/-! ### The protocol state and the picture that a wait is met in -/

/-- What a statement does to the protocol state. -/
def Act.onPState (a : Act) (p : PState) : PState :=
  match a with
  | .setPState q => q
  | .enter q => q.enter p
  | .leave q => q.leave p
  | .emit _ | .sendImage | .fill _ | .reply _ => p

/-- The colour of the last `fill` so far. -/
def Act.onColour (a : Act) (c : Option Int) : Option Int :=
  match a with
  | .fill d => some d
  | .emit _ | .sendImage | .setPState _ | .enter _ | .leave _ | .reply _ => c

theorem Act.run_pstate (a : Act) (s : State) : (a.run s).pstate = a.onPState s.pstate := by cases a <;> rfl

theorem pstateAfter_cons_act (a : Act) (p : PState) (l : List Stmt) :
    pstateAfter p (.act a :: l) = pstateAfter (a.onPState p) l := by cases a <;> rfl

def colourAfter (c : Option Int) : List Stmt → Option Int
  | [] => c
  | .act a :: rest => colourAfter (a.onColour c) rest
  | .wait _ :: rest => colourAfter c rest

/-- Every byte has the colour of the last `fill`, where there was one. -/
def Coloured (s : State) (c : Option Int) : Prop := ∀ d, c = some d → ∀ a, a < 4736 → s.byteAt a = fillByte d

theorem Coloured.act {s : State} {c : Option Int} (h : Coloured s c) (a : Act) : Coloured (a.run s) (a.onColour c) := by
  cases a with
  | fill d =>
    rintro _ ⟨⟩ b hb
    exact State.byteAt_fillFB s d hb
  | _ => exact h

/-- Each wait among statements is met with a protocol state and a colour that satisfy `P`. -/
def AtWaits (P : PState → Option Int → Prop) : PState → Option Int → List Stmt → Prop
  | _, _, [] => True
  | p, c, .act a :: rest => AtWaits P (a.onPState p) (a.onColour c) rest
  | p, c, .wait _ :: rest => P p c ∧ AtWaits P p c rest

theorem atWaits_append {P : PState → Option Int → Prop} {p : PState} {c : Option Int} {l l' : List Stmt} :
    AtWaits P p c (l ++ l') ↔ AtWaits P p c l ∧ AtWaits P (pstateAfter p l) (colourAfter c l) l' := by
  induction l generalizing p c with
  | nil => exact (true_and _).symm ▸ Iff.rfl
  | cons st rest ih =>
    cases st with
    | act a => rw [pstateAfter_cons_act]; exact ih
    | wait n => rw [List.cons_append, AtWaits, AtWaits, ih, and_assoc]; rfl

theorem colourAfter_append (c : Option Int) (l l' : List Stmt) :
    colourAfter c (l ++ l') = colourAfter (colourAfter c l) l' := by
  induction l generalizing c with
  | nil => rfl
  | cons st rest ih => cases st <;> exact ih _

theorem pstateAfter_of_allowed {i : Instr} (hm : movesProtocol i = false) {l : List Stmt} (h : ∀ st ∈ l, Allowed i st)
    (p : PState) : pstateAfter p l = p := by
  induction l with
  | nil => rfl
  | cons st rest ih =>
    obtain ⟨hst, hrest⟩ := List.forall_mem_cons.mp h
    cases st with
    | wait n => exact ih hrest
    | act a =>
      rw [pstateAfter_cons_act]
      cases a with
      | setPState | enter | leave => exact absurd (hst.symm.trans hm) (by decide)
      | _ => exact ih hrest

/-- Statements that write neither protocol state nor framebuffer meet all their waits in what they find. -/
theorem atWaits_of_allowed {i : Instr} (hm : movesProtocol i = false) (hd : draws i = false)
    {P : PState → Option Int → Prop} {p : PState} {c : Option Int} (hP : P p c) {l : List Stmt}
    (h : ∀ st ∈ l, Allowed i st) : AtWaits P p c l ∧ colourAfter c l = c := by
  induction l with
  | nil => exact ⟨trivial, rfl⟩
  | cons st rest ih =>
    obtain ⟨hst, hrest⟩ := List.forall_mem_cons.mp h
    have ih := ih hrest
    cases st with
    | wait n => exact ⟨⟨hP, ih.1⟩, ih.2⟩
    | act a =>
      cases a with
      | setPState | enter | leave => exact absurd (hst.symm.trans hm) (by decide)
      | fill => exact absurd (hst.symm.trans hd) (by decide)
      | _ => exact ih

section AtWaits

variable {P : PState → Option Int → Prop} {p : PState} {c : Option Int}

/-- The statements of a controller sequence between what it does outside the bus. -/
theorem atWaits_body {l : List Stmt} (h : Conducts .setMemoryArea l) (hP : P p c) :
    AtWaits P p c l ∧ colourAfter c l = c := atWaits_of_allowed rfl rfl hP h.allowed

theorem atWaits_init (cfg : Cfg) (hP : P .resetting c) : AtWaits P p c (initStmts cfg) := by
  rw [initStmts_eq]
  exact atWaits_append.mpr ⟨trivial, atWaits_append.mpr ⟨(atWaits_body (.initBody cfg) hP).1, trivial⟩⟩

theorem atWaits_writeImage (cfg : Cfg) (hP : P (PState.enter .writingImage p) c) :
    AtWaits P p c (writeImageStmts cfg) ∧ colourAfter c (writeImageStmts cfg) = c := by
  obtain ⟨hbody, hcolour⟩ := atWaits_body (.imageBody cfg) hP
  rw [writeImageStmts_eq]
  refine ⟨atWaits_append.mpr ⟨hbody, trivial⟩, ?_⟩
  show colourAfter c (imageBody cfg ++ _) = c
  rw [colourAfter_append, hcolour]
  rfl

theorem atWaits_update (hP : P (PState.enter .updating p) c) :
    AtWaits P p c updateStmts ∧ colourAfter c updateStmts = c := by
  obtain ⟨hbody, hcolour⟩ := atWaits_body .updateBody hP
  rw [updateStmts_eq]
  refine ⟨atWaits_append.mpr ⟨hbody, trivial⟩, ?_⟩
  show colourAfter c (updateBody ++ _) = c
  rw [colourAfter_append, hcolour]
  rfl

/-- `fullRefresh` waits in the states of `writeImage` and `update`, black and then white. -/
theorem atWaits_fullRefresh (cfg : Cfg)
    (hP : ∀ q, q = p ∨ q = p.afterTransfer → ∀ d : Int, d = 0 ∨ d = 1 →
      P (PState.enter .writingImage q) (some d) ∧ P (PState.enter .updating q) (some d)) :
    AtWaits P p c (fullRefreshStmts cfg) := by
  have hblack := hP p (.inl rfl) 0 (.inl rfl)
  have hblack' := hP p.afterTransfer (.inr rfl) 0 (.inl rfl)
  have hwhite := hP p.afterTransfer (.inr rfl) 1 (.inr rfl)
  obtain ⟨h1, c1⟩ := atWaits_writeImage cfg hblack.1
  obtain ⟨h2, c2⟩ := atWaits_update hblack'.2
  obtain ⟨h3, c3⟩ := atWaits_writeImage cfg hwhite.1
  obtain ⟨h4, -⟩ := atWaits_update hwhite.2
  rw [fullRefreshStmts_eq]
  refine atWaits_append.mpr ⟨h1, ?_⟩
  show AtWaits P (pstateAfter p _) (colourAfter (some 0) _) _
  rw [pstateAfter_writeImage, c1]
  refine atWaits_append.mpr ⟨h2, ?_⟩
  rw [pstateAfter_update, afterTransfer_afterTransfer]
  refine atWaits_append.mpr ⟨h3, ?_⟩
  show AtWaits P (pstateAfter p.afterTransfer _) (colourAfter (some 1) _) _
  rw [pstateAfter_writeImage, c3, afterTransfer_afterTransfer]
  exact h4

end AtWaits

/-- What the last clause of O51 says of the state that a wait of `i` is met in, where `i` found the protocol state `p`. -/
def MetIn (i : Instr) (p q : PState) (c : Option Int) : Prop :=
  (i ≠ .fullRefresh → q = waitsIn i p) ∧
  (i = .fullRefresh → (q = waitsIn .writeImage p ∨ q = waitsIn .update p) ∧ (c = some 0 ∨ c = some 1))

theorem enter_afterTransfer (p q : PState) : q.enter p.afterTransfer = q.enter p := by
  cases p <;> rfl

/-- Every wait of an operation is met so. -/
theorem operation_atWaits (i : Instr) (s : State) : AtWaits (MetIn i s.pstate) s.pstate none (operation s i) := by
  cases i with
  | setPixel | getPixel | fill | hline | vline | line | rect | circle | text | reset => exact trivial
  | init => exact atWaits_init _ ⟨fun _ => rfl, nofun⟩
  | writeImage => exact (atWaits_writeImage _ ⟨fun _ => enter_eq _ _, nofun⟩).1
  | update => exact (atWaits_update ⟨fun _ => enter_eq _ _, nofun⟩).1
  | fullRefresh =>
    refine atWaits_fullRefresh _ fun q hq d hd => ?_
    have henter (r : PState) : PState.enter r q = PState.enter r s.pstate := by
      obtain rfl | rfl := hq
      · rfl
      · exact enter_afterTransfer _ r
    have hcolour : some d = some 0 ∨ some d = some 1 := hd.imp (congrArg some) (congrArg some)
    rw [henter, henter]
    exact ⟨⟨fun h => absurd rfl h, fun _ => ⟨.inl (enter_eq _ _), hcolour⟩⟩,
      ⟨fun h => absurd rfl h, fun _ => ⟨.inr (enter_eq _ _), hcolour⟩⟩⟩
  | _ => exact (atWaits_of_allowed rfl rfl ⟨fun _ => rfl, nofun⟩ (operation_conducts _ s).allowed).1

/-! ### What each instruction leaves unchanged (R21, R26, R28, R30) -/

/-- What a run of `i` from `s` keeps between two statements. -/
def Confined (i : Instr) (s u : State) (l : List Stmt) : Prop :=
  Untouched i s u ∧ (∀ st ∈ l, Allowed i st) ∧ ∃ c, Coloured u c ∧ AtWaits (MetIn i s.pstate) u.pstate c l

/-- What it leaves where the bound is reached. -/
def ConfinedFault (i : Instr) (s u : State) : Prop :=
  Untouched i s u ∧ ∃ c, Coloured u c ∧ MetIn i s.pstate u.pstate c

theorem confined_keeps (i : Instr) (s : State) : Keeps (Confined i s) (ConfinedFault i s) where
  act := fun u a rest ⟨hu, hl, c, hc, hw⟩ => by
    obtain ⟨ha, hl⟩ := List.forall_mem_cons.mp hl
    exact ⟨hu.act ha, hl, a.onColour c, hc.act a, by rw [Act.run_pstate]; exact hw⟩
  idle := fun u n rest ⟨hu, hl, c, hc, _, hw⟩ =>
    ⟨⟨hu.cfg, hu.program, hu.selectedLut, hu.fb, hu.pstate⟩, (List.forall_mem_cons.mp hl).2, c, hc, hw⟩
  busy := fun u n rest ⟨hu, hl, c, hc, hw⟩ =>
    ⟨⟨hu.cfg, hu.program, hu.selectedLut, hu.fb, hu.pstate⟩,
      List.forall_mem_cons.mpr ⟨trivial, (List.forall_mem_cons.mp hl).2⟩, c, hc, hw⟩
  limit := fun u n rest ⟨hu, _, c, hc, hw, _⟩ =>
    ⟨⟨hu.cfg, hu.program, hu.selectedLut, hu.fb, hu.pstate⟩, c, hc, hw⟩

theorem untouched_refl (i : Instr) (s : State) : Untouched i s s := ⟨rfl, rfl, rfl, fun _ => rfl, fun _ => rfl⟩

/-- Along its whole run an instruction that is a run of statements is confined, and waits as `MetIn` says. -/
theorem run_confined {i : Instr} (hi : Performs i) {s t u : State} {k : Nat} (hexec : exec i s = .next t)
    (hk : k = 0 ∨ s.program = []) (hsteps : stepsTo k t u) :
    Untouched i s u ∧ (u.pending ≠ [] ∨ (∃ n, u.fault = some (.deviceUnresponsive n)) →
      ∃ c, Coloured u c ∧ MetIn i s.pstate u.pstate c) := by
  have hstart : Confined i s s (operation s i ++ [.act (.reply .done)]) :=
    ⟨untouched_refl i s, (operation_reply_conducts i s).allowed, none, nofun,
      atWaits_append.mpr ⟨operation_atWaits i s, trivial⟩⟩
  cases stands_exec (confined_keeps i s) hi hexec hk hsteps hstart with
  | ended hu h =>
    refine ⟨h.1, fun hc => ?_⟩
    obtain hp | ⟨n, hn⟩ := hc
    · exact absurd hu.2 hp
    · exact absurd (hu.1.symm.trans hn) nofun
  | waiting hf hp h =>
    obtain ⟨hu, -, c, hc, hmet, -⟩ := h
    exact ⟨⟨hu.cfg, hu.program, hu.selectedLut, hu.fb, hu.pstate⟩, fun _ => ⟨c, hc, hmet⟩⟩
  | stopped hf hp h => exact ⟨h.1, fun _ => h.2⟩

/-- An instruction that is no run of statements leaves its last state at once, untouched. -/
theorem effect_local_untouched {i : Instr} (hi : ¬ Performs i) (s : State) : Untouched i s (effect i s) :=
  have h := Extends.effect i s
  ⟨h.cfg, h.program, h.selectedLut, fun hd => effect_local_fb hi hd s, fun _ => effect_local_pstate hi s⟩

theorem effect_reset (s : State) : effect .reset s = { s with
    pstate := .resetting
    trace := s.trace ++ [.rstLow, .sleep 10, .rstHigh, .sleep 10]
    results := s.results ++ [.done] } := by
  show (runIdle resetStmts s).reply .done = _
  rw [runIdle_reset]
  rfl

/-- An instruction that does not transfer is over at once, with nothing of the panel touched, and no fault but that of `text`. -/
theorem effect_not_transfers {i : Instr} (hi : transfers i ≠ true) {s : State} (hs : s.Ready) :
    (i ≠ .reset → (effect i s).trace = s.trace) ∧ (effect i s).panel = s.panel ∧ (effect i s).polls = s.polls ∧
    (effect i s).pending = [] ∧ ((∀ str x y c, i ≠ .text str x y c) → (effect i s).fault = none) ∧
    ∀ n, (effect i s).fault ≠ some (.deviceUnresponsive n) := by
  by_cases hreset : i = .reset
  · subst hreset
    rw [effect_reset]
    exact ⟨fun h => absurd rfl h, rfl, rfl, hs.2, fun _ => hs.1, fun n hn => nomatch hs.1.symm.trans hn⟩
  · obtain ⟨r, he⟩ | ⟨str, x, y, c, d, rfl, -, he⟩ := effect_local (fun h => h.elim hi hreset) s
    · rw [he]
      exact ⟨fun _ => rfl, rfl, rfl, hs.2, fun _ => hs.1, fun n hn => nomatch hs.1.symm.trans hn⟩
    · rw [he]
      exact ⟨fun _ => rfl, rfl, rfl, rfl, fun h => absurd rfl (h str x y c), nofun⟩

/-- Settles O51: an instruction that transfers is confined along its run (`run_confined`); any other is over at once
(`effect_not_transfers`), and its run stays there (`stepsTo_settled`). -/
theorem instructionsChangeOnlyTheirOwnState : Obligations.InstructionsChangeOnlyTheirOwnState := by
  intro i s t u k hexec hk hsteps
  obtain ⟨hs, rfl⟩ := exec_next_iff.mp hexec
  by_cases hi : transfers i = true
  · obtain ⟨hu, hmet⟩ := run_confined (.inl hi) hexec hk hsteps
    have hno {p : Prop} : transfers i = false → p := fun h => absurd (hi.symm.trans h) (by decide)
    refine ⟨hu.cfg, hu.program, hu.fb, hno, hno, hu.pstate, hno, hu.selectedLut, fun hw => ?_⟩
    obtain ⟨c, hcolour, hother, hrefresh⟩ := hmet hw
    refine ⟨hother, fun hfull => ⟨(hrefresh hfull).1, (hrefresh hfull).2.imp ?_ ?_⟩⟩
    · rintro rfl
      exact hcolour 0 rfl
    · rintro rfl
      exact hcolour 1 rfl
  · obtain ⟨htrace, hpanel, hpolls, hpending, hfault, hbusy⟩ := effect_not_transfers hi hs
    rw [← (Extends.effect i s).program] at hk
    obtain rfl := stepsTo_settled hpending hk hsteps
    have hu : Untouched i s (effect i s) := by
      by_cases hreset : i = .reset
      · subst hreset
        exact (run_confined (.inr rfl) hexec (.inl rfl) rfl).1
      · exact effect_local_untouched (fun h => h.elim hi hreset) s
    refine ⟨hu.cfg, hu.program, hu.fb, fun _ => htrace, fun _ => ⟨hpanel, hpolls, hpending⟩, hu.pstate, fun _ => hfault,
      hu.selectedLut, fun hw => ?_⟩
    obtain hp | ⟨n, hn⟩ := hw
    · exact absurd hpending hp
    · exact absurd hn (hbusy n)

/-! ### The command frames of a run (R62, R66) -/

/-- The events that statements emit besides their polls and pauses of waiting, whatever the framebuffer holds. -/
inductive Emits : List Stmt → List Event → Prop
  | nil : Emits [] []
  | wait {n : Nat} {l : List Stmt} {es : List Event} (h : Emits l es) : Emits (.wait n :: l) es
  | emit {e : Event} {l : List Stmt} {es : List Event} (h : Emits l es) : Emits (.act (.emit e) :: l) (e :: es)
  | image (bs : List Byte) {l : List Stmt} {es : List Event} (h : Emits l es) :
    Emits (.act .sendImage :: l) (.write bs :: es)
  | quiet {i : Instr} {a : Act} {l : List Stmt} {es : List Event} (ha : MayDo i a) (h : Emits l es) :
    Emits (.act a :: l) es

/-- Every command frame carries a listed code. -/
def AllListed (fs : List (Bool × List Byte)) : Prop := ∀ bs, (false, bs) ∈ fs → bs ∈ listedCodes

/-- A data frame in front adds no command frame. -/
theorem AllListed.data {fs : List (Bool × List Byte)} (h : AllListed fs) (payload : List Byte) :
    AllListed ((true, payload) :: fs) := by
  intro bs hbs
  obtain ⟨⟨⟩⟩ | hbs := List.mem_cons.mp hbs
  exact h bs hbs

theorem emits_exists (l : List Stmt) : ∃ es, Emits l es := by
  induction l with
  | nil => exact ⟨[], .nil⟩
  | cons st rest ih =>
    obtain ⟨es, h⟩ := ih
    cases st with
    | wait n => exact ⟨es, .wait h⟩
    | act a =>
      cases a with
      | emit e => exact ⟨e :: es, .emit h⟩
      | sendImage => exact ⟨.write [] :: es, .image [] h⟩
      | setPState | enter | leave => exact ⟨es, .quiet (i := .init) (by exact rfl) h⟩
      | fill => exact ⟨es, .quiet (i := .fullRefresh) (by exact rfl) h⟩
      | reply => exact ⟨es, .quiet (i := .init) trivial h⟩

theorem Emits.of_wait {n : Nat} {l : List Stmt} {es : List Event} (h : Emits (.wait n :: l) es) : Emits l es := by
  cases h with
  | wait h => exact h

/-- Statements that emit given events emit them. -/
theorem Emits.of_emits {evs : List Event} {l : List Stmt} {es : List Event} (h : Emits (evs.map emitStmt ++ l) es) :
    ∃ es', es = evs ++ es' ∧ Emits l es' := by
  induction evs generalizing es with
  | nil => exact ⟨es, rfl, h⟩
  | cons e evs ih =>
    cases h with
    | emit h =>
      obtain ⟨es', rfl, hl⟩ := ih h
      exact ⟨es', rfl, hl⟩
    | quiet ha _ => cases ha

theorem Emits.of_sendImage {l : List Stmt} {es : List Event} (h : Emits (.act .sendImage :: l) es) :
    ∃ bs es', es = .write bs :: es' ∧ Emits l es' := by
  cases h with
  | image bs h => exact ⟨bs, _, rfl, h⟩
  | quiet ha _ => cases ha

theorem Emits.of_quiet {i : Instr} {a : Act} (ha : MayDo i a) {l : List Stmt} {es : List Event}
    (h : Emits (.act a :: l) es) : Emits l es := by
  cases h with
  | emit _ | image _ _ => cases ha
  | quiet _ h => exact h

/-- What conducted statements emit is read back as frames whose codes are listed, whatever the level before. -/
theorem Conducts.allListed {i : Instr} (hi : ∀ bs, i ≠ .writeCommand bs) {l : List Stmt} (h : Conducts i l) :
    ∀ (dc : Option Bool) (es : List Event), Emits l es → AllListed (framesFrom dc es) := by
  induction h with
  | nil =>
    rintro dc es ⟨⟩ bs hbs
    cases dc <;> cases hbs
  | quiet ha _ ih => exact fun dc es h => ih dc es (h.of_quiet ha)
  | wait _ ih => exact fun dc es h => ih dc es h.of_wait
  | pause ms _ ih =>
    intro dc es h
    obtain ⟨es', rfl, hl⟩ := h.of_emits (evs := [.sleep ms])
    simpa only [List.cons_append, List.nil_append, framesFrom] using ih dc es' hl
  | pulse _ _ ih =>
    intro dc es h
    obtain ⟨es', rfl, hl⟩ := (h.of_quiet (i := .reset) (by exact rfl)).of_emits
      (evs := [.rstLow, .sleep resetLowMs, .rstHigh, .sleep resetHighMs])
    simpa only [List.cons_append, List.nil_append, framesFrom] using ih dc es' hl
  | @command code _ hbs _ ih =>
    intro dc es h
    obtain ⟨es', rfl, hl⟩ := h.of_wait.of_emits (evs := [.csLow, .dcCmd, .write code, .csHigh])
    simp only [List.cons_append, List.nil_append, framesFrom]
    rintro bs hbs'
    obtain ⟨⟨⟩⟩ | hbs' := List.mem_cons.mp hbs'
    · exact hbs.resolve_right (hi _)
    · exact ih _ es' hl bs hbs'
  | data payload _ ih =>
    intro dc es h
    obtain ⟨es', rfl, hl⟩ := h.of_wait.of_emits (evs := [.csLow, .dcData, .write payload, .csHigh])
    simp only [List.cons_append, List.nil_append, framesFrom]
    exact (ih _ es' hl).data payload
  | image _ ih =>
    intro dc es h
    obtain ⟨es₁, rfl, hl₁⟩ := h.of_wait.of_emits (evs := [.csLow, .dcData])
    obtain ⟨bs, es₂, rfl, hl₂⟩ := hl₁.of_sendImage
    obtain ⟨es₃, rfl, hl₃⟩ := hl₂.of_emits (evs := [.csHigh])
    simp only [List.cons_append, List.nil_append, framesFrom]
    exact (ih _ es₃ hl₃).data bs

/-- Polls and pauses are part of no frame. -/
theorem framesFrom_skip (dc : Option Bool) (es es' : List Event) {e : Event} (he : (∃ b, e = .poll b) ∨ ∃ ms, e = .sleep ms) :
    framesFrom dc (es ++ e :: es') = framesFrom dc (es ++ es') := by
  induction es generalizing dc with
  | nil => obtain ⟨b, rfl⟩ | ⟨ms, rfl⟩ := he <;> simp only [List.nil_append, framesFrom]
  | cons e' es ih =>
    cases e' with
    | write bs => cases dc <;> simp only [List.cons_append, framesFrom, ih]
    | _ => simp only [List.cons_append, framesFrom, ih]

theorem framesOf_append_left (es es' : List Event) : ∀ f ∈ framesOf es, f ∈ framesOf (es ++ es') := by
  intro f hf
  obtain ⟨dc, h⟩ := framesFrom_append none es es'
  rw [framesOf, h]
  exact List.mem_append_left _ hf

/-- What has been emitted since `s`, and whatever the statements still to run may emit behind it, carries listed codes. -/
def SendsListed (s u : State) (l : List Stmt) : Prop :=
  ∃ es, u.trace = s.trace ++ es ∧ ∀ es', Emits l es' → AllListed (framesOf (es ++ es'))

def SentListed (s u : State) : Prop := ∃ es, u.trace = s.trace ++ es ∧ AllListed (framesOf es)

theorem SendsListed.sent {s u : State} {l : List Stmt} (h : SendsListed s u l) : SentListed s u := by
  obtain ⟨es, htrace, h⟩ := h
  obtain ⟨es', he⟩ := emits_exists l
  exact ⟨es, htrace, fun bs hbs => h es' he bs (framesOf_append_left es es' _ hbs)⟩

theorem SendsListed.act {s u : State} {a : Act} {rest : List Stmt} (h : SendsListed s u (.act a :: rest)) :
    SendsListed s (a.run u) rest := by
  obtain ⟨es, htrace, h⟩ := h
  cases a with
  | emit e =>
    refine ⟨es ++ [e], by rw [Act.run, State.emit_trace, htrace, List.append_assoc], fun es' he => ?_⟩
    rw [List.append_assoc]
    exact h _ (.emit he)
  | sendImage =>
    refine ⟨es ++ [.write u.image], by rw [Act.run, State.emit_trace, htrace, List.append_assoc], fun es' he => ?_⟩
    rw [List.append_assoc]
    exact h _ (.image _ he)
  | setPState | enter | leave => exact ⟨es, htrace, fun es' he => h es' (.quiet (i := .init) (by exact rfl) he)⟩
  | fill => exact ⟨es, htrace, fun es' he => h es' (.quiet (i := .fullRefresh) (by exact rfl) he)⟩
  | reply => exact ⟨es, htrace, fun es' he => h es' (.quiet (i := .init) trivial he)⟩

/-- A poll, or a pause, changes no frame. -/
theorem SendsListed.skip {s u v : State} {l l' : List Stmt} (h : SendsListed s u l) {e : Event}
    (he : (∃ b, e = .poll b) ∨ ∃ ms, e = .sleep ms) (hv : v.trace = u.trace ++ [e])
    (hl : ∀ es, Emits l' es → Emits l es) : SendsListed s v l' := by
  obtain ⟨es, htrace, h⟩ := h
  refine ⟨es ++ [e], by rw [hv, htrace, List.append_assoc], fun es' hes => ?_⟩
  rw [List.append_assoc, List.singleton_append, framesOf, framesFrom_skip none es es' he]
  exact h es' (hl es' hes)

theorem sendsListed_keeps (s : State) : Keeps (SendsListed s) (SentListed s) where
  act := fun _ _ _ h => h.act
  idle := fun _ _ _ h => h.skip (.inl ⟨_, rfl⟩) rfl fun _ he => .wait he
  busy := fun u n rest h =>
    (h.skip (v := u.poll) (l' := .wait (n + 1) :: rest) (.inl ⟨_, rfl⟩) rfl fun _ he => .wait he.of_wait).skip
      (.inr ⟨_, rfl⟩) rfl fun _ he => he
  limit := fun u _ rest h => (h.skip (v := u.poll) (l' := rest) (.inl ⟨_, rfl⟩) rfl fun _ he => .wait he).sent

/-- Settles O57: along the run of an operation, what it has sent and what it may still send carries listed codes
(`sendsListed_keeps`), as its statements are conducted; any other instruction emits nothing. -/
theorem operationsSendOnlyListedCodes : Obligations.OperationsSendOnlyListedCodes := by
  intro i s t u k bs hexec hk hsteps hi _ hbs
  have hsent : SentListed s u := by
    by_cases hp : Performs i
    · have hstart : SendsListed s s (operation s i ++ [.act (.reply .done)]) :=
        ⟨[], by simp, (operation_reply_conducts i s).allListed hi none⟩
      cases stands_exec (sendsListed_keeps s) hp hexec hk hsteps hstart with
      | ended hu h => exact h.sent
      | waiting hf hpending h => exact h.sent
      | stopped hf hpending h => exact h
    · obtain ⟨hs, rfl⟩ := exec_next_iff.mp hexec
      obtain ⟨htrace, -, -, hpending, -⟩ := effect_not_transfers (fun h => hp (.inl h)) hs
      rw [← (Extends.effect i s).program] at hk
      obtain rfl := stepsTo_settled hpending hk hsteps
      exact ⟨[], by rw [htrace fun h => hp (.inr h), List.append_nil], fun _ h => nomatch h⟩
  obtain ⟨es, htrace, hlisted⟩ := hsent
  rw [htrace, List.drop_left] at hbs
  exact hlisted bs hbs

end Sys2Proof.Machine
end

section
/-! PROOFS about one busy wait (42_transfer.md R142, 60_exceptions.md R182): one that ends (O35), one that does not (O36), one
that reaches the bound (O37). -/

namespace Sys2Proof.Machine

/-! ### One busy wait -/

/-- The state after `n` busy polls, each with its pause. -/
def State.afterBusy (s : State) (n : Nat) : State :=
  { s with trace := s.trace ++ busyPolls n, panel := s.panel.drop n, polls := s.polls + n }

theorem State.afterBusy_zero (s : State) : s.afterBusy 0 = s := by
  simp [State.afterBusy, busyPolls]

theorem busyPolls_add (m n : Nat) : busyPolls (m + n) = busyPolls m ++ busyPolls n := by
  rw [busyPolls, List.replicate_add, List.flatten_append]
  rfl

theorem State.afterBusy_afterBusy (s : State) (m n : Nat) : (s.afterBusy m).afterBusy n = s.afterBusy (m + n) := by
  simp [State.afterBusy, busyPolls_add, Nat.add_assoc]

theorem State.afterBusy_afterWait (s : State) (m n : Nat) : (s.afterBusy m).afterWait n = s.afterWait (m + n) := by
  simp [State.afterBusy, State.afterWait, busyPolls_add, Nat.add_assoc]

theorem State.answer_afterBusy (s : State) (n j : Nat) : (s.afterBusy n).answer j = s.answer (n + j) := by
  simp only [State.answer, State.afterBusy, List.getElem?_drop, Nat.add_assoc]

/-- One busy poll and its pause. -/
theorem State.poll_sleep_eq_afterBusy {s : State} (h : s.answer 0 = true) : s.poll.emit (.sleep pollMs) = s.afterBusy 1 := by
  simp [State.afterBusy, State.emit, State.poll, busyPolls, h]

theorem State.belowBound_of_pollLimitReached {s : State} {n : Nat} (h : s.pollLimitReached n = false) : s.BelowBound n := by
  intro bound hb
  simpa [State.pollLimitReached, hb] using h

/-- A wait with `n` busy polls behind it that meets `k` more, the bound not reached, polls on after `k` steps. -/
theorem stepsTo_busy {rest : List Stmt} (k : Nat) : ∀ (n : Nat) (s : State), s.Ready → s.BelowBound (n + k) →
    (∀ j, j < k → s.answer j = true) →
    stepsTo k (runStmts (.wait n :: rest) s) (runStmts (.wait (n + k) :: rest) (s.afterBusy k)) := by
  induction k with
  | zero =>
    intro n s _ _ _
    rw [State.afterBusy_zero]
    rfl
  | succ k ih =>
    intro n s hs hbound hbusy
    have h0 : s.answer 0 = true := hbusy 0 (Nat.succ_pos k)
    have hn : n + 1 + k = n + (k + 1) := by omega
    rw [runStmts_busy h0 (State.pollLimitReached_of_belowBound (hbound.mono (by omega))), State.poll_sleep_eq_afterBusy h0]
    refine ⟨_, step_suspended hs.1 hs.2, ?_⟩
    have key := ih (n + 1) (s.afterBusy 1) hs (show s.BelowBound _ from hn ▸ hbound) fun j hj =>
      (State.answer_afterBusy s 1 j).trans (hbusy _ (by omega))
    rwa [hn, State.afterBusy_afterBusy, Nat.add_comm 1 k] at key

/-- A wait that meets busy answers only, the bound not reached, is still polling. -/
theorem stepsTo_stuck {rest : List Stmt} {s : State} (hs : s.Ready) {n k : Nat} (hbound : s.BelowBound (n + k + 1))
    (hbusy : ∀ j, j ≤ k → s.answer j = true) :
    stepsTo k (runStmts (.wait n :: rest) s) ((s.afterBusy (k + 1)).suspend (.wait (n + k + 1) :: rest)) := by
  have hlast : (s.afterBusy k).answer 0 = true := (State.answer_afterBusy s k 0).trans (hbusy k le_rfl)
  have key := stepsTo_busy (rest := rest) k n s hs (hbound.mono (by omega)) fun j hj => hbusy j (by omega)
  rwa [runStmts_busy hlast (State.pollLimitReached_of_belowBound (show s.BelowBound _ from hbound)),
    State.poll_sleep_eq_afterBusy hlast, State.afterBusy_afterBusy] at key

/-- The state after a wait with `n` busy polls behind it has met busy answers up to the bound. -/
def State.afterLimit (s : State) (n : Nat) (bound : PollBound) : State :=
  { s with
    fault := some (.deviceUnresponsive bound.polls)
    pending := []
    trace := s.trace ++ busyPolls (bound.afterFirst - n) ++ [.poll true]
    panel := s.panel.drop (bound.polls - n)
    polls := s.polls + (bound.polls - n)
    results := s.results ++ [.fault (.deviceUnresponsive bound.polls)] }

/-- A wait below the bound whose every answer up to it is busy raises `DeviceUnresponsive`, no pause behind the last poll. -/
theorem stepsTo_limit {rest : List Stmt} {s : State} (hs : s.Ready) {n : Nat} {bound : PollBound}
    (hb : s.cfg.busyMaxPolls = some bound) (hn : n < bound.polls) (hbusy : ∀ j, n + j < bound.polls → s.answer j = true) :
    stepsTo (bound.afterFirst - n) (runStmts (.wait n :: rest) s) (s.afterLimit n bound) := by
  unfold State.afterLimit
  unfold PollBound.polls at hn hbusy ⊢
  obtain ⟨k, hk⟩ := Nat.exists_eq_add_of_le (Nat.le_of_lt_succ hn)
  have hsub : bound.afterFirst - n = k := by omega
  have hsub' : bound.afterFirst + 1 - n = k + 1 := by omega
  have hlast : (s.afterBusy k).answer 0 = true := (State.answer_afterBusy s k 0).trans (hbusy k (by omega))
  have hlimit : (s.afterBusy k).pollLimitReached (bound.afterFirst + 1) = true := by
    simp [State.pollLimitReached, State.afterBusy, hb, PollBound.polls]
  have hbelow : s.BelowBound bound.afterFirst := by
    intro b hb'
    cases hb.symm.trans hb'
    exact Nat.lt_succ_self _
  have key := stepsTo_busy (rest := rest) k n s hs (hk ▸ hbelow) fun j hj => hbusy j (by omega)
  rw [← hk, runStmts_limit hlast hlimit] at key
  rw [State.raise, State.poll, hlast] at key
  rw [hsub, hsub']
  simpa [State.afterBusy, Nat.add_assoc] using key

theorem runStmts_emits (es : List Event) (l : List Stmt) (s : State) :
    runStmts (es.map emitStmt ++ l) s = runStmts l { s with trace := s.trace ++ es } := by
  induction es generalizing s with
  | nil => rw [List.append_nil]; rfl
  | cons e es ih =>
    rw [List.map_cons, List.cons_append, emitStmt, runStmts, ih]
    simp [Act.run, State.emit]

/-- Settles O35: `stepsTo_wait` leads to the statements behind the wait, which emit `after` and reply. -/
theorem busyWaitPollsUntilIdle : Obligations.BusyWaitPollsUntilIdle := by
  intro s n i bs after hs hbusy hidle hbound hi
  have hop : Performs i ∧ operation s i = .wait 0 :: after.map emitStmt := by
    simp only [List.mem_cons, List.not_mem_nil, or_false, Prod.mk.injEq] at hi
    obtain ⟨rfl, rfl⟩ | ⟨rfl, rfl⟩ | ⟨rfl, rfl⟩ := hi <;> exact ⟨.inl rfl, rfl⟩
  have run := stepsTo_wait n 0 (after.map emitStmt ++ [.act (.reply .done)]) s hs (by rwa [Nat.zero_add]) hbusy hidle
  rw [runStmts_emits] at run
  refine ⟨_, exec_ready hs _, ?_⟩
  rw [effect_of_performs hop.1, hop.2]
  simpa [runStmts, Act.run, State.reply, State.afterWait, busyPolls, pollMs] using run

/-! ### The first wait of an operation -/

/-- What an operation that transfers has done where it meets its first wait: the reset pulse of `init`, and the protocol
state; and `fullRefresh` has another framebuffer. -/
def State.atFirstWait (s : State) (i : Instr) (fb : List Host.Cell) : State :=
  { s with
    fb := fb
    pstate := waitsIn i s.pstate
    trace := s.trace ++ if i = .init then [.rstLow, .sleep 10, .rstHigh, .sleep 10] else [] }

theorem atFirstWait_of_ne_init {i : Instr} (hi : i ≠ .init) (s : State) (fb : List Host.Cell) :
    s.atFirstWait i fb = { s with fb := fb, pstate := waitsIn i s.pstate } := by
  simp [State.atFirstWait, hi]

/-- The first statement of an operation that waits is a wait, but for what `atFirstWait` says. -/
theorem effect_first_wait {i : Instr} (hi : transfers i = true) (s : State) : ∃ fb rest,
    effect i s = runStmts (.wait 0 :: rest) (s.atFirstWait i fb) ∧ (i ≠ .fullRefresh → fb = s.fb) ∧
      (i = .fullRefresh → ∀ a, a < 4736 → (s.atFirstWait i fb).byteAt a = 0x00#8) := by
  have enters (u : State) (p : PState) : (Act.enter p).run u =
      { u with pstate := if u.pstate = .uninitialized ∨ u.pstate = .resetting then u.pstate else p } := by
    rw [← enter_eq]
    rfl
  by_cases hinit : i = .init
  · subst hinit
    have h : effect .init s = runStmts (.wait 0 :: (initBody s.cfg ++ [Stmt.act (.setPState .initialized)] ++
      [Stmt.act (.reply .done)]).tail) (runIdle resetStmts s) := by
      rw [effect_of_performs (.inl rfl), operation, initStmts_eq, List.append_assoc]
      rfl
    rw [runIdle_reset] at h
    exact ⟨s.fb, _, h, fun _ => rfl, nofun⟩
  simp only [atFirstWait_of_ne_init hinit]
  cases i with
  | setPixel | getPixel | fill | hline | vline | line | rect | circle | text | reset => cases hi
  | init => exact absurd rfl hinit
  | writeImage => exact ⟨s.fb, _, congrArg (runStmts _) (enters s .writingImage), fun _ => rfl, nofun⟩
  | update => exact ⟨s.fb, _, congrArg (runStmts _) (enters s .updating), fun _ => rfl, nofun⟩
  | fullRefresh => exact ⟨(s.fillFB 0).fb, _, congrArg (runStmts _) (enters (s.fillFB 0) .writingImage), nofun,
      fun _ a ha => State.byteAt_fillFB s 0 ha⟩
  | _ => exact ⟨s.fb, _, rfl, fun _ => rfl, nofun⟩

/-- Settles O36: from the first wait on, `stepsTo_stuck`. -/
theorem stuckBusyLineNeverEnds : Obligations.StuckBusyLineNeverEnds := by
  intro s i k hs hi hnone hbusy
  obtain ⟨fb, rest, he, hfb, hblack⟩ := effect_first_wait hi s
  have hbound : (s.atFirstWait i fb).BelowBound (0 + k + 1) := by
    intro bound hb
    cases hnone.symm.trans hb
  have run := stepsTo_stuck (rest := rest) (s := s.atFirstWait i fb) hs hbound hbusy
  exact ⟨_, ((s.atFirstWait i fb).afterBusy (k + 1)).suspend (.wait (0 + k + 1) :: rest), exec_ready hs i,
    he ▸ run, List.cons_ne_nil _ _, hs.1, hfb, hblack, rfl⟩

/-- Settles O37: at its first wait an operation has no busy poll behind it, and the invariant keeps any other wait below the
bound; from there `stepsTo_limit`. -/
theorem boundedWaitFaults : Obligations.BoundedWaitFaults := by
  refine ⟨fun s i bound hs hi hb hbusy => ?_, fun s n rest bound hinv hp hb hbusy => ?_⟩
  · obtain ⟨fb, rest, he, hfb, hblack⟩ := effect_first_wait hi s
    have run := stepsTo_limit (rest := rest) (s := s.atFirstWait i fb) hs hb (Nat.succ_pos _)
      fun j hj => hbusy j (by rwa [Nat.zero_add] at hj)
    refine ⟨_, (s.atFirstWait i fb).afterLimit 0 bound, exec_ready hs i, he ▸ run, hfb, hblack, ?_⟩
    obtain ⟨-, hpending⟩ := hs
    simp [State.afterLimit, State.atFirstWait, busyPolls, pollMs, hpending]
  · have hf : s.fault = none := by
      by_contra hf
      cases hp.symm.trans (hinv.stopped hf)
    have hn : n < bound.polls := by simpa [hp, busyCount] using hinv.below bound hb
    have run := stepsTo_limit (rest := rest) (s := s.suspend []) ⟨hf, rfl⟩ hb hn hbusy
    have hsteps : bound.polls - n = bound.afterFirst - n + 1 := Nat.succ_sub (Nat.le_of_lt_succ hn)
    have hstep : step s = .next (runStmts (.wait n :: rest) (s.suspend [])) := by
      rw [step_pending hf (by rw [hp]; exact List.cons_ne_nil _ _), hp]
    refine ⟨hn, ?_⟩
    show stepsTo _ s ((s.suspend []).afterLimit n bound)
    rw [hsteps]
    exact ⟨_, hstep, run⟩

end Sys2Proof.Machine
end

section
/-! PROOFS about whole runs on a panel that answers busy in between (70_reset_and_hazards.md R208): they end exactly on a fair
panel (O54), and as the run on an idle panel does but for polls and pauses (O60). -/

namespace Sys2Proof.Machine

/-! ### What an operation sends -/

/-- `u` is `s` with frames sent, some events between them, and no reply. -/
def Sent (s u : State) (fs : List (Bool × List Byte)) : Prop :=
  ∃ es, u.trace = s.trace ++ es ∧ framesOf es = fs ∧ u.results = s.results ∧ u.fault = s.fault ∧ u.pending = s.pending

theorem sent_of_eq {s u : State} {fs : List (Bool × List Byte)} (h : u = s.afterFrames fs) : Sent s u fs := by
  subst h
  exact ⟨_, rfl, framesOf_idleFrames fs, rfl, rfl, rfl⟩

theorem framesOf_idleFrames_sleep (fs gs : List (Bool × List Byte)) (ms : Nat) :
    framesOf (idleFrames fs ++ [.sleep ms] ++ idleFrames gs) = fs ++ gs := by
  rw [List.append_assoc, List.singleton_append, framesOf, framesFrom_skip none _ _ (.inr ⟨ms, rfl⟩), ← idleFrames_append]
  exact framesOf_idleFrames _

/-- The idle run of an operation sends its frames. -/
theorem sent_runIdle_operation (i : Instr) (s : State) : Sent s (runIdle (operation s i) s) (sentFrames s i) := by
  cases i with
  | setPixel | getPixel | fill | hline | vline | line | rect | circle | text => exact sent_of_eq (State.afterFrames_nil s).symm
  | activateUpdate | terminateFrame | writeCommand => exact sent_of_eq (runIdle_command _ s)
  | writeData bs => exact sent_of_eq (runIdle_data bs s)
  | reset => exact ⟨[.rstLow, .sleep 10, .rstHigh, .sleep 10], by rw [operation, runIdle_reset], rfl, rfl, rfl, rfl⟩
  | waitUntilIdle => exact ⟨[.poll false], rfl, rfl, rfl, rfl, rfl⟩
  | setMemoryArea => exact sent_of_eq (runIdle_area _ s)
  | setMemoryPointer => exact sent_of_eq (runIdle_pointer _ s)
  | writeRam =>
    refine sent_of_eq ?_
    rw [operation, writeRamStmts, runIdle_append, runIdle_command, runIdle_image, ← State.afterFrames_append]
    rfl
  | init =>
    rw [operation, runIdle_init, runIdle_reset]
    exact ⟨_, List.append_assoc _ _ _, framesOf_pulse_idleFrames _, rfl, rfl, rfl⟩
  | writeImage =>
    rw [operation, runIdle_writeImage]
    exact ⟨_, rfl, framesOf_idleFrames _, rfl, rfl, rfl⟩
  | update =>
    rw [operation, runIdle_update]
    exact ⟨_, rfl, framesOf_idleFrames _, rfl, rfl, rfl⟩
  | fullRefresh =>
    rw [operation, runIdle_fullRefresh]
    exact ⟨_, by simp only [List.append_assoc]; rfl, framesOf_idleFrames_sleep _ _ settleMs, rfl, rfl, rfl⟩
  | _ => exact sent_of_eq (runIdle_pair _ _ s)

/-- An operation waits once before each frame, and `waitUntilIdle` once. -/
theorem waits_operation (i : Instr) (s : State) : waits (operation s i) = busyWaits s i := by
  unfold busyWaits
  cases i with
  | init => exact waits_init _
  | setMemoryArea => exact waits_area _
  | setMemoryPointer => exact waits_pointer _
  | writeImage => exact (waits_writeImage _).trans (length_imageFrames _ _).symm
  | fullRefresh =>
    rw [operation, waits_fullRefresh, sentFrames]
    simp only [List.length_append, length_imageFrames, updateFrames, List.length_cons, List.length_nil, reduceCtorEq,
      if_false]
    omega
  | setPixel | getPixel | fill | hline | vline | line | rect | circle | text | reset | waitUntilIdle
  | activateUpdate | terminateFrame | writeCommand | writeData | writeRam | update => rfl
  | _ => exact waits_pair _ _

theorem waits_operation_reply (i : Instr) (s : State) :
    waits (operation s i ++ [.act (.reply .done)]) = busyWaits s i := by
  rw [waits_append, waits_operation]
  rfl

/-- No operation waits more than 28 times. -/
theorem busyWaits_le (i : Instr) (s : State) : busyWaits s i ≤ 28 := by
  have harea := length_areaFrames_le s.cfg
  have hpointer := length_pointerFrames_le s.cfg
  have hpair (code : Byte) (payload : List Byte) : (pairFrames code payload).length ≤ 28 :=
    (length_pairFrames_le code payload).trans (by omega)
  unfold busyWaits
  cases i with
  | init => exact (length_initFrames_le s.cfg).trans (by omega)
  | setMemoryArea => exact harea.trans (by omega)
  | setMemoryPointer => exact hpointer.trans (by omega)
  | writeImage =>
    show (imageFrames _ _).length ≤ 28
    rw [length_imageFrames]
    omega
  | fullRefresh =>
    simp only [sentFrames, List.length_append, length_imageFrames, updateFrames, List.length_cons, List.length_nil,
      reduceCtorEq, if_false]
    omega
  | setPixel | getPixel | fill | hline | vline | line | rect | circle | text | reset | waitUntilIdle
  | activateUpdate | terminateFrame | writeCommand | writeData | writeRam | update => exact Nat.le_of_ble_eq_true rfl
  | _ =>
    simp only [sentFrames, reduceCtorEq, if_false, Nat.add_zero]
    exact hpair _ _

/-- An instruction that is no run of statements sends nothing and waits for nothing. -/
theorem sends_nothing {i : Instr} (hi : ¬ Performs i) (s : State) : sentFrames s i = [] ∧ busyWaits s i = 0 := by
  cases i with
  | setPixel | getPixel | fill | hline | vline | line | rect | circle | text => exact ⟨rfl, rfl⟩
  | reset => exact absurd (.inr rfl) hi
  | _ => exact absurd (.inl rfl) hi

/-! ### Runs on a fair panel -/

/-- On a fair panel an operation's run ends, and as its idle run from a state that differs in trace, panel and poll count at
most, but for busy polls and their pauses; the steps are among any answers that hold enough idle ones. -/
theorem runs_as_idle {i : Instr} {s : State} (hs : s.Ready) (hfair : s.PanelEventuallyIdle i) {s' : State}
    (hs' : s' = { s with trace := s'.trace, panel := s'.panel, polls := s'.polls }) : ∃ u v k es,
    v = (runIdle (operation s i) s').reply .done ∧ stepsTo k (runStmts (operation s i ++ [.act (.reply .done)]) s) u ∧
      u.trace = s.trace ++ es ∧ v.trace = s'.trace ++ withoutBusy es ∧
      u = { v with trace := u.trace, panel := u.panel, polls := u.polls } ∧ ∀ m, busyWaits s i ≤ s.idleAmong m → k ≤ m := by
  have hconducts := operation_reply_conducts i s
  obtain ⟨ns, hlength, hsteps, hle⟩ := run_to_end _ s hs hconducts.freshWaits (by rw [waits_operation_reply]; exact hfair)
  obtain ⟨es, htrace, hidle, heq⟩ := runThrough_sim _ ns s s' hlength (noPolls_of_stmtsBus hconducts.stmtsBus) hs'
  rw [runIdle_append] at hidle heq
  rw [waits_operation_reply] at hle
  exact ⟨_, _, _, es, rfl, hsteps, htrace, hidle, heq, hle⟩

/-! ### Runs that end -/

theorem Act.run_meetsIdle (a : Act) (s : State) (w j : Nat) : (a.run s).MeetsIdle w j ↔ s.MeetsIdle w j := by
  induction w generalizing j with
  | zero => exact Iff.rfl
  | succ w ih => simp only [State.MeetsIdle, State.BelowBound, Act.run_cfg, Act.run_answer, ih]

/-- No step leaves a fault. -/
theorem stepsTo_faulted {k : Nat} {t u : State} (hf : t.fault ≠ none) (h : stepsTo k t u) : u = t := by
  cases k with
  | zero => exact h
  | succ k =>
    obtain ⟨v, hv, -⟩ := h
    exact absurd (step_next_cases hv).1 hf

/-- An end of an operation other than `DeviceUnresponsive`. -/
def EndsWell (u : State) : Prop := u.pending = [] ∧ ∀ n, u.fault ≠ some (.deviceUnresponsive n)

/-- A wait in a run that ends well met an idle answer, and fewer busy ones before it than the bound. -/
theorem wait_of_endsWell {rest : List Stmt} {u : State} (hu : EndsWell u) (k : Nat) : ∀ (n : Nat) (s : State), s.Ready →
    s.BelowBound n → stepsTo k (runStmts (.wait n :: rest) s) u →
    ∃ m k', s.BelowBound (n + m) ∧ (∀ j, j < m → s.answer j = true) ∧ s.answer m = false ∧
      stepsTo k' (runStmts rest (s.afterWait m)) u := by
  induction k using Nat.strongRecOn with
  | ind k ih =>
    intro n s hs hbound h
    cases h0 : s.answer 0 with
    | false =>
      have hmeets : runStmts rest (s.afterWait 0) = runStmts (.wait n :: rest) s := stepsTo_wait 0 n rest s hs hbound nofun h0
      exact ⟨0, k, hbound, nofun, h0, hmeets ▸ h⟩
    | true =>
      cases hl : s.pollLimitReached (n + 1) with
      | true =>
        rw [runStmts_limit h0 hl] at h
        cases stepsTo_faulted (Option.some_ne_none _) h
        exact absurd rfl (hu.2 (n + 1))
      | false =>
        rw [runStmts_busy h0 hl, State.poll_sleep_eq_afterBusy h0] at h
        cases k with
        | zero =>
          cases h
          exact absurd hu.1 (List.cons_ne_nil _ _)
        | succ k =>
          obtain ⟨v, hv, h⟩ := h
          cases (step_suspended (s := s.afterBusy 1) hs.1 hs.2).symm.trans hv
          obtain ⟨m, k', hb, hbusy, hidle, h⟩ := ih k (Nat.lt_succ_self k) (n + 1) (s.afterBusy 1) hs
            (State.belowBound_of_pollLimitReached (s := s) hl) h
          rw [State.answer_afterBusy] at hidle
          rw [State.afterBusy_afterWait] at h
          refine ⟨1 + m, k', by rwa [← Nat.add_assoc], fun j hj => ?_, hidle, h⟩
          cases j with
          | zero => exact h0
          | succ j =>
            have := hbusy j (by omega)
            rwa [State.answer_afterBusy, Nat.add_comm] at this

/-- Statements whose waits have not begun run to a good end only on a panel that meets every one of them. -/
theorem meetsIdle_of_endsWell {u : State} (hu : EndsWell u) (l : List Stmt) : ∀ (k : Nat) (s : State), s.Ready →
    FreshWaits l → stepsTo k (runStmts l s) u → s.MeetsIdle (waits l) 0 := by
  induction l with
  | nil => exact fun _ _ _ _ _ => trivial
  | cons st rest ih =>
    intro k s hs hfresh h
    have hrest : FreshWaits rest := fun n hn => hfresh n (List.mem_cons_of_mem _ hn)
    cases st with
    | act a =>
      have ha : (a.run s).Ready := ⟨(Act.run_fault a s).trans hs.1, (Act.run_pending a s).trans hs.2⟩
      exact (Act.run_meetsIdle a s _ _).mp (ih k (a.run s) ha hrest h)
    | wait n =>
      obtain rfl : n = 0 := hfresh n (List.mem_cons_self ..)
      obtain ⟨m, k', hbound, hbusy, hidle, h⟩ := wait_of_endsWell hu k 0 s hs (belowBound_zero s) h
      have key := (State.meetsIdle_afterWait s m _ 0).mp (ih k' (s.afterWait m) hs hrest h)
      rw [Nat.zero_add] at hbound
      exact ⟨m, hbound, by simpa using hbusy, by simpa using hidle, key⟩

/-- Settles O54: `runs_as_idle` with the idle run of the operation itself; and `meetsIdle_of_endsWell`. -/
theorem everyOperationEndsOnAFairPanel : Obligations.EveryOperationEndsOnAFairPanel := by
  refine fun i s hs => ⟨fun hfair => ?_, fun t u k hexec hsteps hpending hfault => ?_⟩
  · by_cases hi : Performs i
    · obtain ⟨u, v, k, es, rfl, hsteps, htrace, hidle, heq, hle⟩ := runs_as_idle hs hfair (s' := s) rfl
      obtain ⟨sent, hsent, hframes, hresults, hf, hp⟩ := sent_runIdle_operation i s
      have hes : withoutBusy es = sent := List.append_cancel_left (hidle.symm.trans hsent)
      refine ⟨_, u, k, es, .done, exec_ready hs i, effect_of_performs hi s ▸ hsteps, ?_, ?_, .inl ?_, htrace, ?_, hle⟩
      · rw [heq]
        exact hp.trans hs.2
      · rw [heq, ← hresults]
        rfl
      · rw [heq]
        exact hf.trans hs.1
      · rw [← hframes, ← hes]
        exact (framesFrom_withoutBusy none es).symm
    · obtain ⟨hframes, -⟩ := sends_nothing hi s
      obtain ⟨htrace, -, -, hpending, -⟩ := effect_not_transfers (fun h => hi (.inl h)) hs
      have hreply : ∃ r, (effect i s).results = s.results ++ [r] ∧
          ((effect i s).fault = none ∨ ∃ d, (effect i s).fault = some (.glyphNotFound d)) := by
        obtain ⟨r, he⟩ | ⟨_, _, _, _, d, -, -, he⟩ := effect_local hi s <;> rw [he]
        · exact ⟨r, rfl, .inl hs.1⟩
        · exact ⟨_, rfl, .inr ⟨d, rfl⟩⟩
      obtain ⟨r, hr, hf⟩ := hreply
      exact ⟨_, _, 0, [], r, exec_ready hs i, rfl, hpending, hr, hf,
        by rw [htrace fun h => hi (.inr h), List.append_nil], hframes.symm, fun m _ => Nat.zero_le m⟩
  · obtain ⟨-, rfl⟩ := exec_next_iff.mp hexec
    unfold State.PanelEventuallyIdle
    by_cases hi : Performs i
    · rw [effect_of_performs hi] at hsteps
      rw [← waits_operation_reply]
      exact meetsIdle_of_endsWell ⟨hpending, hfault⟩ _ k s hs (operation_reply_conducts i s).freshWaits hsteps
    · rw [(sends_nothing hi s).2]
      trivial

/-! ### Busy answers in between -/

theorem allIdle_replicate (s : State) (n : Nat) : ({ s with panel := List.replicate n false } : State).AllIdle n := by
  intro j hj
  simp [State.answer, hj]

/-- Settles O60: `runs_as_idle`, the idle run taken from the state with 28 idle answers, as many as an operation waits for;
an instruction that waits for none does not see the panel. -/
theorem busyAnswersAddOnlyPolls : Obligations.BusyAnswersAddOnlyPolls := by
  intro i s hs hfair
  by_cases hi : Performs i
  · obtain ⟨u, v, k, es, hv, hsteps, htrace, hidle, heq, -⟩ :=
      runs_as_idle hs hfair (s' := { s with panel := List.replicate 28 false }) rfl
    have hexec : exec i { s with panel := List.replicate 28 false } = .next v := by
      rw [hv]
      refine exec_performs_idle hi hs (State.allIdle_mono (allIdle_replicate s 28) ?_)
      rw [waits_operation]
      exact busyWaits_le i _
    have hpending : u.pending = [] := by
      obtain ⟨_, -, -, -, -, hp⟩ := sent_runIdle_operation i { s with panel := List.replicate 28 false }
      rw [heq, hv]
      exact hp.trans hs.2
    refine ⟨_, u, v, k, es, exec_ready hs i, effect_of_performs hi s ▸ hsteps, hpending, hexec, ?_, hidle⟩
    rw [← htrace]
    exact heq
  · have hblind := effect_local_blind (setPanel_blind (List.replicate 28 false)) hi s
    obtain ⟨htrace, -, -, hpending, -⟩ := effect_not_transfers (fun h => hi (.inl h)) hs
    have hnone : s.trace ++ [] = (effect i s).trace := by rw [htrace fun h => hi (.inr h), List.append_nil]
    refine ⟨_, _, { effect i s with panel := List.replicate 28 false }, 0, [], exec_ready hs i, rfl, hpending, ?_, ?_,
      hnone.symm⟩
    · rw [← hblind]
      exact exec_ready (s := { s with panel := List.replicate 28 false }) hs i
    · rw [hnone]

end Sys2Proof.Machine
end
